-- ==== Sys2Proof/Word.lean ====
section
/-! DEFINITION. The plain value types every other file uses: words of the interface, triples of
colour channels, pixels, and the numbers of binary64. -/

namespace Sys2Proof

/-- One byte of a buffer or of the output stream. -/
abbrev Byte := BitVec 8

/-- One interface register, 32 bits wide (spec/10_state.md R25). -/
abbrev Word := BitVec 32

/-- One 64-bit codeword (spec/30_encoding.md R99 to R105, R111) or loss (spec/10_state.md R37). -/
abbrev DWord := BitVec 64

/-- One value for each of the channels R, G and B. -/
structure Triple (α : Type) where
  r : α
  g : α
  b : α
deriving DecidableEq, Repr

/-- The same function on each channel. -/
def Triple.map {α β : Type} (f : α → β) (t : Triple α) : Triple β := ⟨f t.r, f t.g, f t.b⟩

/-- A function of two triples, channel by channel. -/
def Triple.zip {α β γ : Type} (f : α → β → γ) (s : Triple α) (t : Triple β) : Triple γ :=
  ⟨f s.r t.r, f s.g t.g, f s.b t.b⟩

/-- A predicate that every channel meets. -/
def Triple.all {α : Type} (p : α → Bool) (t : Triple α) : Bool := p t.r && p t.g && p t.b

/-- A colour: unsigned channels of the width its context gives (4, 5, 6, 7, 8 or 16 bits). -/
abbrev Rgb := Triple Nat

/-- A pixel with its alpha channel (spec/30_encoding.md R114, R116). -/
structure Rgba where
  rgb : Rgb
  a : Nat
deriving DecidableEq, Repr

/-- A source pixel as the colour metric and the generators see it: its colour, and whether it is a
transparent pixel of an A1 format (spec/42_metric.md R204). Outside A1 formats no pixel is. -/
structure SrcPixel where
  rgb : Rgb
  transparent : Bool
deriving DecidableEq, Repr

/-- A finite binary64 number, the value `man * 2 ^ exp` (spec/00_scope.md R10). The operations of
Machine/Float.lean keep it in one canonical form, so equal numbers are equal data. -/
structure F64 where
  man : Int
  exp : Int
deriving DecidableEq, Repr

end Sys2Proof
end

