-- ==== Sys2Proof/Syntax.lean ====
section
/-! DEFINITION. The commands of the core, one constructor for each row of
spec/opcode_table.json (spec/30_encoding.md R93). -/

namespace Sys2Proof

/-- A command. Option fields keep the shape spec/30_encoding.md R92 gives them: RED, FLIP, TRANSP
and CH are single bits, INTENS is a 2-bit field whose value 3 is reserved. -/
inductive Instr where
  /-- NOP, OP 0x00 (spec/45_control_container.md R301). -/
  | nop
  /-- SRESET, OP 0x01 (R302). -/
  | sreset
  /-- CFG, OP 0x02 (R303). -/
  | cfg
  /-- EXTRACT, OP 0x03 (spec/40_normalizer.md R141). -/
  | extract
  /-- ENCODE, OP 0x04 (spec/44_alpha_eac_driver.md R277). -/
  | encode
  /-- DECODE, OP 0x05 (spec/41_decoder.md R161). -/
  | decode
  /-- SCORE, OP 0x06 (spec/42_metric.md R201). -/
  | score
  /-- HDR_EMIT, OP 0x07 (spec/45_control_container.md R305). -/
  | hdrEmit
  /-- HDR_PARSE, OP 0x08 (R306). -/
  | hdrParse
  /-- CAND_ID, OP 0x10, with RED, FLIP and TRANSP (spec/43_color_candidates.md R217). -/
  | candId (red flip transp : Bool)
  /-- CAND_ETC1S, OP 0x11 (R226). -/
  | candEtc1s
  /-- CAND_PLANAR, OP 0x12 (R250). -/
  | candPlanar
  /-- CAND_T, OP 0x13, with TRANSP and INTENS (R227). -/
  | candT (transp : Bool) (intens : BitVec 2)
  /-- CAND_H, OP 0x14, with TRANSP and INTENS (R232). -/
  | candH (transp : Bool) (intens : BitVec 2)
  /-- CAND_EAC8, OP 0x15 (spec/44_alpha_eac_driver.md R271). -/
  | candEac8
  /-- CAND_EAC11, OP 0x16, with CH (R274). -/
  | candEac11 (ch : Bool)
deriving DecidableEq, Repr

end Sys2Proof
end

