-- ==== Sys2Proof/WellFormed.lean ====
section
/-! DEFINITION. Which terms of `Instr` a command word can encode. -/

namespace Sys2Proof

/-- INTENS = 3 is reserved (spec/30_encoding.md R92, R94, R120). -/
def intensityLegal (intens : BitVec 2) : Bool := intens != 3

/-- A command that some legal command word encodes. -/
def WellFormed : Instr → Bool
  | .nop => true
  | .sreset => true
  | .cfg => true
  | .extract => true
  | .encode => true
  | .decode => true
  | .score => true
  | .hdrEmit => true
  | .hdrParse => true
  | .candId _ _ _ => true
  | .candEtc1s => true
  | .candPlanar => true
  | .candT _ intens => intensityLegal intens
  | .candH _ intens => intensityLegal intens
  | .candEac8 => true
  | .candEac11 _ => true

end Sys2Proof
end

