-- ==== Sys2Proof/Decode.lean ====
section
/-! DEFINITION. The command word: its decoder, total on all 32-bit words and rejecting by name, and
its encoder (spec/30_encoding.md R92 to R94, R120, R122). -/

namespace Sys2Proof

/-- Why a command word is illegal (spec/30_encoding.md R120). Every reason completes with
BAD_COMMAND (spec/60_exceptions.md R327), so naming it is safe. -/
inductive Reject where
  /-- OP is not in the opcode map of R93. -/
  | unassignedOpcode
  /-- A bit of [31:14] is set. -/
  | reservedBits
  /-- An option field the operation does not use is not 0. -/
  | unusedField
  /-- INTENS = 3. -/
  | reservedIntensity
deriving DecidableEq, Repr

/-- The option fields of a command word (R92). -/
structure CommandFields where
  red : Bool
  flip : Bool
  transp : Bool
  intens : BitVec 2
  ch : Bool
deriving DecidableEq, Repr

/-- OP, bits 7:0 (R92). -/
def opField (w : Word) : Nat := (w.extractLsb' 0 8).toNat

/-- RED 8, FLIP 9, TRANSP 10, INTENS 12:11, CH 13 (R92). -/
def commandFields (w : Word) : CommandFields where
  red := w.getLsbD 8
  flip := w.getLsbD 9
  transp := w.getLsbD 10
  intens := w.extractLsb' 11 2
  ch := w.getLsbD 13

/-- Bits 31:14, which must be 0 (R92). -/
def reservedField (w : Word) : BitVec 18 := w.extractLsb' 14 18

/-- No option field is set but those named as used (R92, R93). -/
def unusedClear (f : CommandFields) (red flip transp intens ch : Bool) : Bool :=
  (red || !f.red) && (flip || !f.flip) && (transp || !f.transp) && (intens || f.intens == 0) && (ch || !f.ch)

/-- Accept `i` when every field its operation does not use is 0. -/
def acceptWhen (clear : Bool) (i : Instr) : Except Reject Instr :=
  if clear then .ok i else .error .unusedField

/-- Accept `i`, which uses INTENS, when INTENS is not the reserved value (R94, R120). -/
def acceptIntens (clear : Bool) (intens : BitVec 2) (i : Instr) : Except Reject Instr :=
  if intensityLegal intens then acceptWhen clear i else .error .reservedIntensity

/-- The opcode map of R93. -/
def decodeOp (op : Nat) (f : CommandFields) : Except Reject Instr :=
  let none' := unusedClear f false false false false false
  match op with
  | 0x00 => acceptWhen none' .nop
  | 0x01 => acceptWhen none' .sreset
  | 0x02 => acceptWhen none' .cfg
  | 0x03 => acceptWhen none' .extract
  | 0x04 => acceptWhen none' .encode
  | 0x05 => acceptWhen none' .decode
  | 0x06 => acceptWhen none' .score
  | 0x07 => acceptWhen none' .hdrEmit
  | 0x08 => acceptWhen none' .hdrParse
  | 0x10 => acceptWhen (unusedClear f true true true false false) (.candId f.red f.flip f.transp)
  | 0x11 => acceptWhen none' .candEtc1s
  | 0x12 => acceptWhen none' .candPlanar
  | 0x13 => acceptIntens (unusedClear f false false true true false) f.intens (.candT f.transp f.intens)
  | 0x14 => acceptIntens (unusedClear f false false true true false) f.intens (.candH f.transp f.intens)
  | 0x15 => acceptWhen none' .candEac8
  | 0x16 => acceptWhen (unusedClear f false false false false true) (.candEac11 f.ch)
  | _ => .error .unassignedOpcode

/-- The decoder: a word selects an operation when its OP matches and every bit the operation does
not use is 0 (R93). -/
def decode (w : Word) : Except Reject Instr :=
  if reservedField w = 0 then decodeOp (opField w) (commandFields w) else .error .reservedBits

/-- A command word from its fields (R92). -/
def commandWord (op : Byte) (red flip transp : Bool) (intens : BitVec 2) (ch : Bool) : Word :=
  (0 : BitVec 18) ++ BitVec.ofBool ch ++ intens ++ BitVec.ofBool transp ++ BitVec.ofBool flip ++
    BitVec.ofBool red ++ op

/-- A command word with no option field set. -/
def plainWord (op : Byte) : Word := commandWord op false false false 0 false

/-- The encoder, from the same table (R92, R93). -/
def encode : Instr → Word
  | .nop => plainWord 0x00
  | .sreset => plainWord 0x01
  | .cfg => plainWord 0x02
  | .extract => plainWord 0x03
  | .encode => plainWord 0x04
  | .decode => plainWord 0x05
  | .score => plainWord 0x06
  | .hdrEmit => plainWord 0x07
  | .hdrParse => plainWord 0x08
  | .candId red flip transp => commandWord 0x10 red flip transp 0 false
  | .candEtc1s => plainWord 0x11
  | .candPlanar => plainWord 0x12
  | .candT transp intens => commandWord 0x13 false false transp intens false
  | .candH transp intens => commandWord 0x14 false false transp intens false
  | .candEac8 => plainWord 0x15
  | .candEac11 ch => commandWord 0x16 false false false 0 ch

/-- The instruction read from a table row's word. A command is one 32-bit word, captured whole
(spec/20_memory.md R79), so the word has no byte order of its own. -/
def decodeTableWord (nbits w : Nat) : Option Instr :=
  match decode (BitVec.ofNat 32 (w % 2 ^ nbits)) with
  | .ok i => some i
  | .error _ => none

end Sys2Proof
end

