-- ==== Sys2Proof/Config.lean ====
section
/-! DEFINITION. What an implementation fixes: the free values, which have no body, and the type of
the OPEN parameters of spec/00_scope.md R6. The parameters' default values are in
Machine/Params.lean. -/

namespace Sys2Proof

/-- FREE VALUE (DESIGN CHOICE, log 2; safe). What a host read of an UNSPEC byte returns
(spec/93_implementation_defined.md 1.1: any value). `era` counts the events that left bytes UNSPEC,
`addr` is the byte's aperture offset, so two reads with no such event between agree
(spec/20_memory.md R72). -/
opaque Config.unspecByte (era addr : Nat) : Byte

/-- FREE VALUE (DESIGN CHOICE, log 4; safe). What the attached source answers to `SrcRead(x, y)`
during the `era`-th EXTRACT, where State lists no answer for it (spec/20_memory.md R66 to R68):
`none` is `IOERR`. A source of 8-bit channels uses the low byte of each channel. -/
opaque Config.portAnswer (era : Nat) (x y : Int) :
  Option (BitVec 16 × BitVec 16 × BitVec 16 × BitVec 16)

/-- FREE VALUE (log 15; safe). The platform places the aperture at `512 * Config.apertureIndex`,
which is 512-byte aligned (spec/20_memory.md R62). No command depends on it. -/
opaque Config.apertureIndex : Nat

/-- The system address of an aperture offset (spec/20_memory.md R62). -/
def Config.apertureAddress (off : BitVec 9) : Nat := 512 * Config.apertureIndex + off.toNat

/-- `MAX_DIM` of spec/00_scope.md R6. -/
def Config.maxDim : Int := 65532

/-- `FLOAT_OPS` of spec/00_scope.md R6: the four binary64 operations as the implementation
performs them. -/
structure FloatOps where
  add : F64 → F64 → F64
  sub : F64 → F64 → F64
  mul : F64 → F64 → F64
  div : F64 → F64 → F64

/-- The parameters of the 2-means routine (spec/00_scope.md R6): `SEED_TABLE`, `SEED_PICK` (for `n`
points and start `s`, the indices of the two points that start the centres) and `QRS`. -/
structure KMeansParams where
  seedTable : List Nat
  seedPick : List Nat → Nat → Nat → Nat × Nat
  qrs : FloatOps → F64 → Rgb → Triple F64

/-- The OPEN parameters of spec/00_scope.md R6 a command's result can depend on. The generators,
the decoder and the metric take them as an argument; `exec` runs with `Sys2Proof.Machine.params`
(log 9). -/
structure Params where
  float : FloatOps
  /-- `KMEANS`: the whole routine, from the points and the intensity to the two 8-bit centres. -/
  kmeans2 : List Rgb → F64 → Rgb × Rgb
  /-- `ALPHA_SEARCH`: from the 16 alpha values in raster order to the EAC codeword. -/
  alphaSearch : List Nat → DWord
  /-- `SIGNED_MAP`: the signed target of an unsigned 16-bit sample. -/
  signedMap : Nat → Int
  /-- `EXT11` on unsigned 11-bit values. -/
  ext11Unsigned : Nat → Nat
  /-- `EXT11` on signed 11-bit values. -/
  ext11Signed : Int → Int

end Sys2Proof
end

