-- ==== Sys2Proof/Machine/State.lean ====
section
/-! DEFINITION. The state of the machine as plain data, the reasons a step can stop, and the state
right after reset (spec/10_state.md, spec/70_reset_and_hazards.md R351). -/

namespace Sys2Proof.Machine

/-- Why the machine stops with a fault. -/
inductive Fault where
  /-- Raised by a command that reads a byte of CW, HDR, BLK or DEC that holds no value: nothing has
  written it since reset, or since an EXTRACT that ended with IO (spec/10_state.md R47,
  spec/40_normalizer.md R150). `addr` is the byte's aperture offset. Safe (log 1). -/
  | unspecByte (addr : Nat)
deriving DecidableEq, Repr

/-- Why a step has no meaning. -/
inductive Refusal where
  /-- Raised by no arm: every command has its meaning. The host's fixed name for an instruction
  without one. Safe. -/
  | notModelled (mnemonic : String)
  /-- Raised by EXTRACT when the source answers a channel outside the range of SRC_CFG.DEPTH: the
  spec makes such an answer a refused input (spec/20_memory.md R66). Safe (log 5). -/
  | sourceAnswerOutOfRange
deriving DecidableEq, Repr


/-- The command sequencer state (spec/10_state.md R22). -/
inductive Seq where
  | idle
  /-- The 32-bit command word accepted and not yet executed. -/
  | busy (cmd : Word)
deriving DecidableEq, Repr

/-- The error kinds of STATUS.ERR (spec/60_exceptions.md R321); codes 6 to 15 are never written. -/
inductive ErrKind where
  | none
  | badArgument
  | imageTooLarge
  | notAContainer
  | io
  | badCommand
deriving DecidableEq, Repr

/-- The sub-modes of STATUS.MODE (spec/10_state.md R29); code 7 is never written. -/
inductive Mode where
  | none
  | individual
  | differential
  | t
  | h
  | planar
  | eac
deriving DecidableEq, Repr

/-- The width of a host access in bytes. Widths 2 and 8 exist only as access errors
(spec/20_memory.md R69). -/
inductive Width where
  | w1
  | w2
  | w4
  | w8
deriving DecidableEq, Repr

/-- One instruction of a host program (spec/30_encoding.md R118): WR8 and WR32 are `write .w1` and
`write .w4`, RD8 and RD32 are `read .w1` and `read .w4`. An offset has 9 bits, the whole aperture. -/
inductive HostInstr where
  | write (width : Width) (off : BitVec 9) (v : Word)
  | read (width : Width) (off : BitVec 9) (name : Nat)
  /-- Branch to the host instruction `target` when `name & mask` is not 0. -/
  | bnz (name : Nat) (mask : Word) (target : Nat)
deriving DecidableEq, Repr

/-- Whose turn it is (spec/10_state.md R21, spec/20_memory.md R75). -/
inductive Turn where
  /-- The host performs its next instruction. -/
  | host
  /-- The command sequencer takes its step. -/
  | core
  /-- Hardware reset is asserted (spec/70_reset_and_hazards.md R351). -/
  | reset
deriving DecidableEq, Repr

/-- One answer of the source-pixel port (spec/20_memory.md R66). -/
inductive SrcAnswer where
  | ioerr
  | pixel (r g b a : Nat)
deriving DecidableEq, Repr

/-- The state: the core's registers and byte windows, and the plain data that says what the other
agents do (INVENTORY.md lists each field with its rule). -/
structure State where
  /-- Command sequencer state, R22. STATUS.BUSY is computed from it. -/
  seq : Seq
  /-- STATUS.DONE, R29. -/
  done : Bool
  /-- STATUS.ACCERR, R29. -/
  accErr : Bool
  /-- STATUS.LVALID, R29. -/
  lvalid : Bool
  /-- STATUS.ERR, R29. -/
  err : ErrKind
  /-- STATUS.MODE, R29. -/
  mode : Mode
  /-- FORMAT[7:0], R30. -/
  format : Byte
  imgW : Word
  imgH : Word
  padW : Word
  padH : Word
  /-- BX, R34. -/
  blockX : Word
  /-- BY, R34. -/
  blockY : Word
  /-- SRC_CFG[3:0], R35. -/
  srcCfg : BitVec 4
  srcX0 : Word
  srcY0 : Word
  srcX1 : Word
  srcY1 : Word
  loss : DWord
  aloss : DWord
  /-- The bytes of CW, HDR, BLK and DEC that hold a value, by aperture offset (R39 to R42). -/
  mem : List Host.Cell
  /-- The host's program (log 7). -/
  hostProg : List HostInstr
  /-- The host's place in its program (log 7). -/
  hostPc : Nat
  /-- The values the host has read, by name (log 7). -/
  hostVars : List (Nat × Word)
  /-- The turns still to come (log 6). -/
  turns : List Turn
  /-- The answers the attached source gives next (log 4). -/
  srcPort : List SrcAnswer
  /-- How many events have left bytes UNSPEC (the model's own, log 3). -/
  unspecEra : Nat
  /-- How many EXTRACT commands have read the source (the model's own, log 3). -/
  portEra : Nat
deriving DecidableEq, Repr

/-- The state right after reset (spec/70_reset_and_hazards.md R351). The byte windows list nothing:
they are UNSPEC. The other agents' fields are empty (logs 3, 4, 6, 7). -/
def State.reset : State where
  seq := .idle
  done := false
  accErr := false
  lvalid := false
  err := .none
  mode := .none
  format := 0
  imgW := 0
  imgH := 0
  padW := 0
  padH := 0
  blockX := 0
  blockY := 0
  srcCfg := 0x2
  srcX0 := 0
  srcY0 := 0
  srcX1 := 0
  srcY1 := 0
  loss := 0
  aloss := 0
  mem := []
  hostProg := []
  hostPc := 0
  hostVars := []
  turns := []
  srcPort := []
  unspecEra := 0
  portEra := 0

end Sys2Proof.Machine
end

