-- ==== Sys2Proof/Machine/Tables.lean ====
section
/-! DEFINITION. The ROM tables of spec/10_state.md R44, the format codes, and the arithmetic
primitives of spec/00_scope.md R8 and R9. -/

namespace Sys2Proof.Machine

/-! ## Integers and channel expansions -/

/-- `clamp(v, lo, hi)` of R8. -/
def clampInt (v lo hi : Int) : Int := min (max v lo) hi

/-- `ext4` of R9. -/
def ext4 (v : Nat) : Nat := (v <<< 4) ||| v

/-- `ext5` of R9. -/
def ext5 (v : Nat) : Nat := (v <<< 3) ||| (v >>> 2)

/-- `ext6` of R9. -/
def ext6 (v : Nat) : Nat := (v <<< 2) ||| (v >>> 4)

/-- `ext7` of R9. -/
def ext7 (v : Nat) : Nat := (v <<< 1) ||| (v >>> 6)

/-- `round4` of spec/10_state.md R33. -/
def round4 (v : Int) : Int := 4 * ((v + 3) / 4)

/-! ## Pixel order -/

/-- The raster order of the 16 pixels, `i = 4·y + x` (spec/00_scope.md R12). -/
def raster : List Nat := List.range 16

/-- The column of raster pixel `k`. -/
def pixelX (k : Nat) : Nat := k % 4

/-- The row of raster pixel `k`. -/
def pixelY (k : Nat) : Nat := k / 4

/-! ## Format codes -/

/-- The eleven sub-formats (spec/30_encoding.md R96). -/
inductive Format where
  | etc1
  | rgb
  | rgba8
  | rgba1
  | r11u
  | rg11u
  | r11s
  | rg11s
  | srgb
  | srgba8
  | srgba1
deriving DecidableEq, Repr

/-- The class column of R96. -/
inductive FormatClass where
  | rgb
  | a8
  | a1
  | r11
  | rg11
deriving DecidableEq, Repr

/-- The code column of R96; codes 0x02 and 0x0C to 0xFF are invalid. -/
def formatOfCode (code : Byte) : Option Format :=
  match code.toNat with
  | 0x00 => some .etc1
  | 0x01 => some .rgb
  | 0x03 => some .rgba8
  | 0x04 => some .rgba1
  | 0x05 => some .r11u
  | 0x06 => some .rg11u
  | 0x07 => some .r11s
  | 0x08 => some .rg11s
  | 0x09 => some .srgb
  | 0x0A => some .srgba8
  | 0x0B => some .srgba1
  | _ => none

/-- The class of a format (R96). -/
def formatClass : Format → FormatClass
  | .etc1 => .rgb
  | .rgb => .rgb
  | .rgba8 => .a8
  | .rgba1 => .a1
  | .r11u => .r11
  | .rg11u => .rg11
  | .r11s => .r11
  | .rg11s => .rg11
  | .srgb => .rgb
  | .srgba8 => .a8
  | .srgba1 => .a1

/-- `SIGNED = {0x07, 0x08}` (R96). -/
def formatSigned (f : Format) : Bool := f == .r11s || f == .rg11s

/-- `COLOR = RGB ∪ A8 ∪ A1` (R96). -/
def isColour (f : Format) : Bool :=
  match formatClass f with
  | .rgb => true
  | .a8 => true
  | .a1 => true
  | .r11 => false
  | .rg11 => false

/-- `ETC2COLOR = COLOR minus {0x00}` (R96). -/
def isEtc2Colour (f : Format) : Bool := isColour f && f != .etc1

/-- Class A1, the punch-through formats. -/
def isA1 (f : Format) : Bool := formatClass f == .a1

/-- Class A8. -/
def isA8 (f : Format) : Bool := formatClass f == .a8

/-- `EAC11 = R11 ∪ RG11` (R96). -/
def isEac11 (f : Format) : Bool := formatClass f == .r11 || formatClass f == .rg11

/-- `nbytes` of R97: 16 in formats with 8-bit alpha or two 11-bit channels, 8 in the others. -/
def blockBytes (f : Format) : Nat :=
  match formatClass f with
  | .rgb => 8
  | .a8 => 16
  | .a1 => 8
  | .r11 => 8
  | .rg11 => 16

/-! ## ROM tables -/

/-- `CLAMP` (spec/41_decoder.md R163). -/
def clampTable (i : Nat) : Nat := if i ≤ 255 then i else if i ≤ 511 then 255 else 0

/-- `clamp8(v) = CLAMP[v & 0x3FF]` (R163). -/
def clamp8 (v : Int) : Nat := clampTable (v % 1024).toNat

/-- `MOD_ETC` (R164), rows in ascending order. -/
def modEtcTable : List (List Int) :=
  [[-8, -2, 2, 8], [-17, -5, 5, 17], [-29, -9, 9, 29], [-42, -13, 13, 42],
   [-60, -18, 18, 60], [-80, -24, 24, 80], [-106, -33, 33, 106], [-183, -47, 47, 183]]

/-- Entry `s` of row `t` of `MOD_ETC`. -/
def modEtc (t s : Nat) : Int := (modEtcTable.getD t []).getD s 0

/-- `TH_DIST` (R165). -/
def thDistTable : List Nat := [3, 6, 11, 16, 23, 32, 41, 64]

/-- Entry `di` of `TH_DIST`. -/
def thDist (di : Nat) : Nat := thDistTable.getD di 0

/-- `EAC_MOD` (R166). -/
def eacModTable : List (List Int) :=
  [[-3, -6, -9, -15, 2, 5, 8, 14], [-3, -7, -10, -13, 2, 6, 9, 12],
   [-2, -5, -8, -13, 1, 4, 7, 12], [-2, -4, -6, -13, 1, 3, 5, 12],
   [-3, -6, -8, -12, 2, 5, 7, 11], [-3, -7, -9, -11, 2, 6, 8, 10],
   [-4, -7, -8, -11, 3, 6, 7, 10], [-3, -5, -8, -11, 2, 4, 7, 10],
   [-2, -6, -8, -10, 1, 5, 7, 9], [-2, -5, -8, -10, 1, 4, 7, 9],
   [-2, -4, -8, -10, 1, 3, 7, 9], [-2, -5, -7, -10, 1, 4, 6, 9],
   [-3, -4, -7, -10, 2, 3, 6, 9], [-1, -2, -3, -10, 0, 1, 2, 9],
   [-4, -6, -8, -9, 3, 5, 7, 8], [-3, -5, -7, -9, 2, 4, 6, 8]]

/-- Entry `i` of row `table` of `EAC_MOD`. -/
def eacMod (table i : Nat) : Int := (eacModTable.getD table []).getD i 0

/-- `SCRAMBLE`: from a search position to its bit pattern (spec/30_encoding.md R103). -/
def scramble (s : Nat) : Nat := [3, 2, 0, 1].getD s 0

/-- `UNSCRAMBLE`, the inverse of `SCRAMBLE` (R103). -/
def unscramble (v : Nat) : Nat := [2, 3, 1, 0].getD v 0

/-- `ORIENT_OFS` (R104): the BLK byte offsets of an orientation's 8 pixels. -/
def orientOfs (o : Nat) : List Nat :=
  [[0, 4, 16, 20, 32, 36, 48, 52], [8, 12, 24, 28, 40, 44, 56, 60],
   [0, 4, 8, 12, 16, 20, 24, 28], [32, 36, 40, 44, 48, 52, 56, 60]].getD o []

/-- `ORIENT_SHIFT` (R104): the index LSB bits of an orientation's 8 pixels. -/
def orientShift (o : Nat) : List Nat :=
  [[0, 4, 1, 5, 2, 6, 3, 7], [8, 12, 9, 13, 10, 14, 11, 15],
   [0, 4, 8, 12, 1, 5, 9, 13], [2, 6, 10, 14, 3, 7, 11, 15]].getD o []

/-- `SEED_TABLE`, the default of the OPEN parameter (spec/43_color_candidates.md R236). -/
def seedTable : List Nat :=
  [1804289383, 846930886, 1681692777, 1714636915, 1957747793, 424238335, 719885386, 1649760492,
   596516649, 1189641421, 1025202362, 1350490027, 783368690, 1102520059, 2044897763, 1967513926,
   1365180540, 1540383426, 304089172, 1303455736, 35005211, 521595368, 294702567, 1726956429,
   336465782, 861021530, 278722862, 233665123, 2145174067, 468703135, 1101513929, 1801979802,
   1315634022, 635723058, 1369133069, 1125898167, 1059961393, 2089018456, 628175011, 1656478042,
   1131176229, 1653377373, 859484421, 1914544919, 608413784, 756898537, 1734575198, 1973594324,
   149798315, 2038664370, 1129566413, 184803526, 412776091, 1424268980, 1911759956, 749241873,
   137806862, 42999170, 982906996, 135497281, 511702305, 2084420925, 1937477084, 1827336327]

/-- One value for each of the three colours a Planar codeword holds: origin, horizontal, vertical
(spec/30_encoding.md R105). -/
structure PlanarFit (α : Type) where
  o : α
  h : α
  v : α
deriving DecidableEq, Repr

/-- `PLANAR_Z` (R249), one row per fitted colour. -/
def planarZ : PlanarFit (List Int) where
  o := [4, 3, 2, 1, 3, 2, 1, 0, 2, 1, 0, -1, 1, 0, -1, -2]
  h := [0, 1, 2, 3, 0, 1, 2, 3, 0, 1, 2, 3, 0, 1, 2, 3]
  v := [0, 0, 0, 0, 1, 1, 1, 1, 2, 2, 2, 2, 3, 3, 3, 3]

/-- `320 · PLANAR_C` (R249), an integer matrix, by rows. -/
def planarC320 : PlanarFit (PlanarFit Int) where
  o := ⟨23, -1, -1⟩
  h := ⟨-1, 39, -25⟩
  v := ⟨-1, -25, 39⟩

end Sys2Proof.Machine
end

