-- ==== Sys2Proof/Machine/Ops.lean ====
section
/-! DEFINITION. The named operations over the byte windows and the registers: the memory, completion
and error completion (this machine's exception entry), acceptance (which clears the last error), and
hardware reset. -/

namespace Sys2Proof.Machine

/-! ## The memory of the byte windows

A list of (aperture offset, byte) with strictly rising offsets. An offset that is not listed holds no
value: it is UNSPEC (spec/10_state.md R47, log 1). -/

/-- The byte windows of spec/10_state.md R39 to R42. -/
inductive Window where
  | cw
  | hdr
  | blk
  | dec
deriving DecidableEq, Repr

/-- The aperture offset of a window's first byte (R25). -/
def windowBase : Window → Nat
  | .cw => 0x080
  | .hdr => 0x090
  | .blk => 0x100
  | .dec => 0x140

/-- The number of bytes of a window (R25). -/
def windowSize : Window → Nat
  | .cw => 16
  | .hdr => 16
  | .blk => 64
  | .dec => 64

/-- The window an aperture offset lies in, if any (R25). -/
def windowAt (a : Nat) : Option Window :=
  if 0x080 ≤ a ∧ a < 0x090 then some .cw
  else if 0x090 ≤ a ∧ a < 0x0A0 then some .hdr
  else if 0x100 ≤ a ∧ a < 0x140 then some .blk
  else if 0x140 ≤ a ∧ a < 0x180 then some .dec
  else none

/-- The value of the byte at `a`; `none` is UNSPEC. -/
def memRead : List Host.Cell → Nat → Option Byte
  | [], _ => none
  | (b, v) :: m, a => if a = b then some v else memRead m a

/-- Store one byte, keeping offsets strictly rising. -/
def memWrite : List Host.Cell → Nat → Byte → List Host.Cell
  | [], a, v => [(a, v)]
  | (b, u) :: m, a, v =>
    if a < b then (a, v) :: (b, u) :: m
    else if a = b then (a, v) :: m
    else (b, u) :: memWrite m a v

/-- Store bytes at consecutive offsets. -/
def memWriteList : List Host.Cell → Nat → List Byte → List Host.Cell
  | m, _, [] => m
  | m, a, v :: vs => memWriteList (memWrite m a v) (a + 1) vs

/-- Make the `n` bytes from `a` UNSPEC. -/
def memForget (m : List Host.Cell) (a n : Nat) : List Host.Cell :=
  m.filter fun c => !(decide (a ≤ c.1) && decide (c.1 < a + n))

/-- Offsets rise strictly, and every one lies in a byte window: no reserved offset and no register
holds a byte of the memory. -/
def memWf (m : List Host.Cell) : Bool :=
  match m with
  | [] => true
  | (a, _) :: rest =>
    (windowAt a).isSome && (match rest with | [] => true | (b, _) :: _ => decide (a < b)) && memWf rest

/-! ## Byte order -/

/-- The two bytes of a 16-bit value, high byte first (`putBE16`, spec/00_scope.md R11). -/
def bytesBE16 (v : Nat) : List Byte := [BitVec.ofNat 8 (v / 256), BitVec.ofNat 8 v]

/-- The eight bytes of a codeword, bits 63:56 first (`putBE64`, spec/20_memory.md R63). -/
def bytesBE64 (w : DWord) : List Byte :=
  [w.extractLsb' 56 8, w.extractLsb' 48 8, w.extractLsb' 40 8, w.extractLsb' 32 8,
   w.extractLsb' 24 8, w.extractLsb' 16 8, w.extractLsb' 8 8, w.extractLsb' 0 8]

/-- The big-endian number a list of bytes spells (`BE16`, `BE64`, spec/00_scope.md R11). -/
def natOfBytes (l : List Nat) : Nat := l.foldl (fun acc b => acc * 256 + b) 0

/-- Store bytes in a window from its byte `o` on. -/
def writeWindow (s : State) (win : Window) (o : Nat) (l : List Byte) : State :=
  { s with mem := memWriteList s.mem (windowBase win + o) l }

/-- `putBE64(CW, o, w)`. -/
def putCodeword (s : State) (o : Nat) (w : DWord) : State := writeWindow s .cw o (bytesBE64 w)

/-! ## Acceptance and completion -/

/-- What one step answers. -/
abbrev Answer := Host.Outcome State Fault Refusal

/-- `seq = BUSY(_)`. -/
def isBusy (s : State) : Bool :=
  match s.seq with
  | .idle => false
  | .busy _ => true

/-- A command error with its info value (spec/60_exceptions.md R321, R325; the info of IO is the raster
index of the failed pixel and is not host-visible, log 14). -/
inductive CmdError where
  | badArgument
  | imageTooLarge
  | notAContainer
  | io (i : Nat)
  | badCommand
deriving DecidableEq, Repr

/-- `code(E)` of R325 as a STATUS.ERR kind. -/
def errKind : CmdError → ErrKind
  | .badArgument => .badArgument
  | .imageTooLarge => .imageTooLarge
  | .notAContainer => .notAContainer
  | .io _ => .io
  | .badCommand => .badCommand

/-- Acceptance of a command word (spec/10_state.md R28). It is also the return from an error: it clears
ERR (spec/60_exceptions.md R331). -/
def acceptCommand (s : State) (v : Word) : State :=
  { s with err := .none, done := false, seq := .busy v }

/-- Normal completion (spec/60_exceptions.md R325). -/
def complete (s : State) : State := { s with err := .none, done := true, seq := .idle }

/-- Error completion: TAKING AN EXCEPTION on this machine (spec/60_exceptions.md R325, R330). The kind is
recorded in ERR, LVALID is cleared, the sequencer is idle again; nothing else changes. -/
def errorCompletion (s : State) (e : CmdError) : State :=
  { s with err := errKind e, lvalid := false, done := true, seq := .idle }

/-- End a command normally. -/
def succeed (s : State) : Answer := .next (complete s)

/-- End a command with an error. -/
def raise (s : State) (e : CmdError) : Answer := .next (errorCompletion s e)

/-- Go on with an operand read from the byte windows, or stop on the UNSPEC byte it met (R47). -/
def withOperand {α : Type} (r : Except Fault α) (k : α → Answer) : Answer :=
  match r with
  | .ok a => k a
  | .error f => .fault f

/-! ## Result registers (spec/44_alpha_eac_driver.md R284) -/

/-- `LVALID <- 0` with LOSS, ALOSS and MODE kept. -/
def clearLvalid (s : State) : State := { s with lvalid := false }

/-- `LOSS <- L; LVALID <- 1`. -/
def setLoss (s : State) (loss : Nat) : State := { s with loss := BitVec.ofNat 64 loss, lvalid := true }

/-- `ALOSS <- AL`. -/
def setAloss (s : State) (loss : Nat) : State := { s with aloss := BitVec.ofNat 64 loss }

/-- `STATUS.MODE <- m`. -/
def setMode (s : State) (m : Mode) : State := { s with mode := m }

/-! ## Reset -/

/-- Hardware reset (spec/70_reset_and_hazards.md R351, R352): every register and buffer of the core takes
its reset value, and a command in flight is abandoned. The host, the source and the turns are not the
core's state and stay (log 13); every byte is UNSPEC afresh (log 3). -/
def hardwareReset (s : State) : State :=
  { State.reset with
    hostProg := s.hostProg, hostPc := s.hostPc, hostVars := s.hostVars, turns := s.turns,
    srcPort := s.srcPort, unspecEra := s.unspecEra + 1, portEra := s.portEra }

end Sys2Proof.Machine
end

