-- ==== Sys2Proof/Machine/Operands.lean ====
section
/-! DEFINITION. The operands a command reads: the format, registers as signed numbers, and the bytes,
pixels and samples of the byte windows. A read of an UNSPEC byte is a fault (spec/10_state.md R47). -/

namespace Sys2Proof.Machine

/-! ## Registers -/

/-- `sext_32` of a value register (spec/10_state.md R26). -/
def signedReg (w : Word) : Int := w.toInt

/-- SRC_CFG.CONN (spec/10_state.md R35). -/
def srcConn (c : BitVec 4) : Bool := c.getLsbD 0

/-- SRC_CFG.PREMUL (R35). -/
def srcPremul (c : BitVec 4) : Bool := c.getLsbD 1

/-- SRC_CFG.DEPTH (R35). -/
def srcDepth (c : BitVec 4) : Nat := (c.extractLsb' 2 2).toNat

/-- Go on with the format FORMAT selects, or raise BadArgument where it is not valid
(spec/60_exceptions.md R322). -/
def withFormat (s : State) (k : Format → Answer) : Answer :=
  match formatOfCode s.format with
  | some f => k f
  | none => raise s .badArgument

/-! ## Bytes -/

/-- The bytes at the given offsets, in order, or the fault of the first UNSPEC one. -/
def readBytes (m : List Host.Cell) : List Nat → Except Fault (List Nat)
  | [] => .ok []
  | a :: as =>
    match memRead m a with
    | none => .error (.unspecByte a)
    | some v =>
      match readBytes m as with
      | .ok vs => .ok (v.toNat :: vs)
      | .error f => .error f

/-- A value from the bytes at the given offsets. -/
def readWith {α : Type} (m : List Host.Cell) (addrs : List Nat) (k : List Nat → α) : Except Fault α :=
  match readBytes m addrs with
  | .ok vs => .ok (k vs)
  | .error f => .error f

/-- Two operands, the first read first. -/
def readBoth {α β : Type} (x : Except Fault α) (y : Except Fault β) : Except Fault (α × β) :=
  match x with
  | .error f => .error f
  | .ok a =>
    match y with
    | .error f => .error f
    | .ok b => .ok (a, b)

/-- The offsets of a window's bytes `o` to `o + n - 1`. -/
def windowRange (win : Window) (o n : Nat) : List Nat := (List.range n).map fun i => windowBase win + o + i

/-- `BE64(CW, o)` (spec/20_memory.md R63). -/
def readCodeword (m : List Host.Cell) (o : Nat) : Except Fault DWord :=
  readWith m (windowRange .cw o 8) fun l => BitVec.ofNat 64 (natOfBytes l)

/-- The 16 bytes of HDR. -/
def readHeader (m : List Host.Cell) : Except Fault (List Nat) := readBytes m (windowRange .hdr 0 16)

/-! ## Pixels and samples

`base` is the offset of BLK or of DEC, which share their layouts (spec/30_encoding.md R114 to R116). -/

/-- The offset of channel `c` of raster pixel `k`, `16·y + 4·x + c` (R114). -/
def channelOffset (k c : Nat) : Nat := 16 * pixelY k + 4 * pixelX k + c

/-- The R, G and B bytes of the 16 pixels in raster order. No command reads the alpha byte with them
(spec/40_normalizer.md R146, log 12). -/
def readRgb (m : List Host.Cell) (win : Window) : Except Fault (List Rgb) :=
  readWith m (raster.flatMap fun k => [0, 1, 2].map fun c => windowBase win + channelOffset k c) fun l =>
    raster.map fun k => ⟨l.getD (3 * k) 0, l.getD (3 * k + 1) 0, l.getD (3 * k + 2) 0⟩

/-- The alpha bytes of the 16 pixels in raster order. -/
def readAlpha (m : List Host.Cell) (win : Window) : Except Fault (List Nat) :=
  readBytes m (raster.map fun k => windowBase win + channelOffset k 3)

/-- The 16-bit samples of channel `ch` in raster order, `BE16(0x20·ch + 8·y + 2·x)` (R115). -/
def readSamples (m : List Host.Cell) (win : Window) (ch : Nat) : Except Fault (List Nat) :=
  let at' (k : Nat) := windowBase win + 0x20 * ch + 8 * pixelY k + 2 * pixelX k
  readWith m (raster.flatMap fun k => [at' k, at' k + 1]) fun l =>
    raster.map fun k => 256 * l.getD (2 * k) 0 + l.getD (2 * k + 1) 0

/-- BLK as the colour generators and the colour metric read it: in A1 formats the alpha byte decides
which pixels are transparent, `alpha < 0x80`; in the other colour formats it is not read
(spec/42_metric.md R204, spec/40_normalizer.md R146). -/
def readSource (m : List Host.Cell) (f : Format) : Except Fault (List SrcPixel) :=
  if isA1 f then
    match readBoth (readRgb m .blk) (readAlpha m .blk) with
    | .error e => .error e
    | .ok (px, al) => .ok (List.zipWith (fun p a => ⟨p, decide (a < 0x80)⟩) px al)
  else
    match readRgb m .blk with
    | .error e => .error e
    | .ok px => .ok (px.map fun p => ⟨p, false⟩)

end Sys2Proof.Machine
end

