-- ==== Sys2Proof/Machine/Control.lean ====
section
/-! DEFINITION. The housekeeping commands and the PKM header unit (spec/45_control_container.md). -/

namespace Sys2Proof.Machine

/-! ## Housekeeping -/

/-- NOP (R301). -/
def execNop (s : State) : Answer := succeed (clearLvalid s)

/-- The registers SRESET writes; the byte windows keep their contents (R302). -/
def softReset (s : State) : State :=
  { s with
    format := 0, imgW := 0, imgH := 0, padW := 0, padH := 0, blockX := 0, blockY := 0,
    srcX0 := 0, srcY0 := 0, srcX1 := 0, srcY1 := 0, loss := 0, aloss := 0, srcCfg := 0x2,
    accErr := false, lvalid := false, mode := .none }

/-- SRESET (R302). -/
def execSreset (s : State) : Answer := succeed (softReset s)

/-- A dimension that is not a 16-bit size of at least 1 (R304 checks 2 and 3). -/
def dimensionInvalid (v : Int) : Bool := decide (v < 1) || decide (65536 ≤ v)

/-- Checks 2 to 5 of `checkImage`, in order; check 1, the format, is `withFormat` (R304). -/
def imageError (w h : Int) : Option CmdError :=
  if dimensionInvalid w || dimensionInvalid h then some .badArgument
  else if Config.maxDim < w ∨ Config.maxDim < h then some .imageTooLarge
  else none

/-- Go on with a checked format, width and height (R304). -/
def withImage (s : State) (k : Format → Int → Int → Answer) : Answer :=
  withFormat s fun f =>
    match imageError (signedReg s.imgW) (signedReg s.imgH) with
    | some e => raise s e
    | none => k f (signedReg s.imgW) (signedReg s.imgH)

/-- CFG (R303). -/
def execCfg (s : State) : Answer :=
  withImage s fun _ w h =>
    succeed (clearLvalid { s with padW := BitVec.ofInt 32 (round4 w), padH := BitVec.ofInt 32 (round4 h) })

/-! ## The PKM header -/

/-- The magic "PKM " (spec/30_encoding.md R117). -/
def headerMagic : List Nat := [0x50, 0x4B, 0x4D, 0x20]

/-- The version byte a format code requires: '1' for 0x00, '2' for every other (R305, R307). -/
def versionByte (code : Nat) : Nat := if code = 0 then 0x31 else 0x32

/-- The 16 header bytes (R305; spec/30_encoding.md R117). -/
def headerBytes (code : Byte) (w h : Int) : List Byte :=
  headerMagic.map (BitVec.ofNat 8) ++ [BitVec.ofNat 8 (versionByte code.toNat), 0x30, 0x00, code] ++
    bytesBE16 (round4 w).toNat ++ bytesBE16 (round4 h).toNat ++ bytesBE16 w.toNat ++ bytesBE16 h.toNat

/-- HDR_EMIT (R305). -/
def execHdrEmit (s : State) : Answer :=
  withImage s fun _ w h => succeed (clearLvalid (writeWindow s .hdr 0 (headerBytes s.format w h)))

/-- `BE16(HDR, o)` of the header's bytes. -/
def headerField (l : List Nat) (o : Nat) : Nat := 256 * l.getD o 0 + l.getD (o + 1) 0

/-- One check of R307: the bytes of HDR it reads, and the test their values must pass. -/
structure HeaderCheck where
  reads : List Nat
  passes : List Nat → Bool

/-- The eight checks of R307, in order. Checks 7 and 8 take `BE16` of the bytes they read. -/
def headerChecks : List HeaderCheck :=
  [⟨[0, 1, 2, 3], fun l => l == headerMagic⟩,
   ⟨[4], fun l => l.getD 0 0 == 0x31 || l.getD 0 0 == 0x32⟩,
   ⟨[5], fun l => l.getD 0 0 == 0x30⟩,
   ⟨[6], fun l => l.getD 0 0 == 0x00⟩,
   ⟨[7], fun l => (formatOfCode (BitVec.ofNat 8 (l.getD 0 0))).isSome⟩,
   ⟨[4, 7], fun l => l.getD 0 0 == versionByte (l.getD 1 0)⟩,
   ⟨[12, 13, 14, 15], fun l => headerField l 0 != 0 && headerField l 2 != 0⟩,
   ⟨[8, 9, 10, 11, 12, 13, 14, 15], fun l =>
      decide ((headerField l 0 : Int) = round4 (headerField l 4)) &&
      decide ((headerField l 2 : Int) = round4 (headerField l 6))⟩]

/-- `checkHeader` (R307): whether the checks all pass. The first that fails ends it where it stands
(spec/60_exceptions.md R325, R329), so an UNSPEC byte is a fault only where a check that is reached reads it (DEDUCED,
log 25). A check reads all its bytes before it tests any (DESIGN CHOICE, log 26). -/
def checkHeader (m : List Host.Cell) : List HeaderCheck → Except Fault Bool
  | [] => .ok true
  | c :: cs =>
    match readBytes m (c.reads.map (windowBase .hdr + ·)) with
    | .error e => .error e
    | .ok l => if c.passes l then checkHeader m cs else .ok false

/-- The configuration a header holds (R306). -/
def loadHeader (s : State) (l : List Nat) : State :=
  { s with
    format := BitVec.ofNat 8 (l.getD 7 0),
    imgW := BitVec.ofNat 32 (headerField l 12), imgH := BitVec.ofNat 32 (headerField l 14),
    padW := BitVec.ofNat 32 (headerField l 8), padH := BitVec.ofNat 32 (headerField l 10) }

/-- HDR_PARSE (R306). -/
def execHdrParse (s : State) : Answer :=
  withOperand (checkHeader s.mem headerChecks) fun accepted =>
    if accepted then withOperand (readHeader s.mem) fun l => succeed (clearLvalid (loadHeader s l))
    else raise s .notAContainer

end Sys2Proof.Machine
end

