-- ==== Sys2Proof/Machine/Float.lean ====
section
/-! DEFINITION. Binary64 arithmetic, the default of `FLOAT_OPS` (spec/00_scope.md R6, R10;
92_eei_decisions.md D12): each operation is exact, then rounded once to nearest, ties to even.
Numbers are finite and have no signed zero (DEDUCED, log 10). -/

namespace Sys2Proof.Machine

/-- `2 ^ 53`, one past the largest significand. -/
def sigTop : Nat := 9007199254740992

/-- The exponent of the smallest subnormal. -/
def minExp : Int := -1074

/-- Zero. -/
def fZero : F64 := ⟨0, 0⟩

/-- Rounds a positive quotient to nearest even: `q` is its integer part at scale `2 ^ e`, `sticky` says that a
fraction was left over. `q` has at least 54 bits or is exact, and the result keeps 53 bits, or fewer where
the exponent would fall below that of the smallest subnormal. -/
def roundQuotient (q : Nat) (sticky : Bool) (e : Int) : Nat × Int :=
  let d := (max ((Nat.log2 q : Int) - 52) (minExp - e)).toNat
  let kept := q >>> d
  let low := q % 2 ^ d
  let half := 2 ^ d / 2
  let up := d != 0 && (decide (half < low) || (low == half && (sticky || kept % 2 == 1)))
  let m := if up then kept + 1 else kept
  if m = sigTop then (sigTop / 2, e + d + 1) else (m, e + d)

/-- The binary64 number nearest to `num / den · 2 ^ e`, ties to even. Canonical: a non-zero result has a
53-bit significand, or the exponent of the smallest subnormal. -/
def roundRatio (num : Int) (den : Nat) (e : Int) : F64 :=
  if num = 0 then fZero else
    let n := num.natAbs
    -- scale so that the integer quotient has 54 to 56 bits
    let s : Int := 55 - ((Nat.log2 n : Int) - (Nat.log2 den : Int))
    let a := n <<< s.toNat
    let b := den <<< (-s).toNat
    let m := roundQuotient (a / b) (a % b != 0) (e - s)
    if m.1 = 0 then fZero else ⟨if num < 0 then -(m.1 : Int) else m.1, m.2⟩

/-- The significands of `a` and `b` at their common, smaller exponent. -/
def alignPair (a b : F64) : Int × Int × Int :=
  let e := min a.exp b.exp
  (a.man * 2 ^ (a.exp - e).toNat, b.man * 2 ^ (b.exp - e).toNat, e)

/-- Binary64 addition. -/
def fAdd (a b : F64) : F64 :=
  let p := alignPair a b
  roundRatio (p.1 + p.2.1) 1 p.2.2

/-- Binary64 subtraction. -/
def fSub (a b : F64) : F64 :=
  let p := alignPair a b
  roundRatio (p.1 - p.2.1) 1 p.2.2

/-- Binary64 multiplication. -/
def fMul (a b : F64) : F64 := roundRatio (a.man * b.man) 1 (a.exp + b.exp)

/-- Binary64 division; every divisor in the spec is a positive count or 255. -/
def fDiv (a b : F64) : F64 :=
  if b.man = 0 then fZero else
    roundRatio (if b.man < 0 then -a.man else a.man) b.man.natAbs (a.exp - b.exp)

/-- The default `FLOAT_OPS`: IEEE 754 binary64, one rounding per operation, no fused operations. -/
def ieee754 : FloatOps := ⟨fAdd, fSub, fMul, fDiv⟩

/-- `f64(v)` of an integer (spec/00_scope.md R10); exact below `2 ^ 53`. -/
def fOfInt (v : Int) : F64 := roundRatio v 1 0

/-- `a < b`. -/
def fLt (a b : F64) : Bool :=
  let p := alignPair a b
  decide (p.1 < p.2.1)

/-- `a ≤ b`. -/
def fLe (a b : F64) : Bool :=
  let p := alignPair a b
  decide (p.1 ≤ p.2.1)

/-- The largest integer not above `a`. -/
def fFloor (a : F64) : Int :=
  if a.exp < 0 then a.man / 2 ^ (-a.exp).toNat else a.man * 2 ^ a.exp.toNat

/-- `a` with its fraction dropped, toward zero. -/
def fTrunc (a : F64) : Int :=
  if a.man < 0 then -fFloor ⟨-a.man, a.exp⟩ else fFloor a

/-- 0.5. -/
def fHalf : F64 := ⟨4503599627370496, -53⟩

/-- 1.0. -/
def fOne : F64 := ⟨4503599627370496, -52⟩

/-- `rnd(x)`: `trunc(x + 0.5)` for `x ≥ 0` and `trunc(x − 0.5)` for `x < 0` (spec/00_scope.md R10). -/
def fRound (fl : FloatOps) (x : F64) : Int :=
  if fLt x fZero then fTrunc (fl.sub x fHalf) else fTrunc (fl.add x fHalf)

/-- `K2`, the binary64 number nearest to 1/√2 (spec/43_color_candidates.md R238). -/
def qrsK2 : F64 := ⟨6369051672525773, -53⟩

/-- `K3`, the binary64 number nearest to 1/√3 (R238). -/
def qrsK3 : F64 := ⟨5200308914369308, -53⟩

/-- `K6`, the binary64 number nearest to 1/√6 (R238). -/
def qrsK6 : F64 := ⟨7354347395230782, -54⟩

end Sys2Proof.Machine
end

