-- ==== Sys2Proof/Machine/Codeword.lean ====
section
/-! DEFINITION. The layouts of 64-bit codewords: reading a field, writing a field, the colour mode
selection and the packing functions (spec/30_encoding.md R95, R98 to R113). -/

namespace Sys2Proof.Machine

/-! ## Fields -/

/-- `w[hi:lo]` as an unsigned number (spec/00_scope.md R7). -/
def field (w : DWord) (hi lo : Nat) : Nat := w.toNat / 2 ^ lo % 2 ^ (hi + 1 - lo)

/-- `sext_3` of a 3-bit field value (spec/00_scope.md R8). -/
def sext3 (v : Nat) : Int := if v < 4 then (v : Int) else (v : Int) - 8

/-- `w[hi:lo] <- v` on a word whose field is still 0: the one helper every bit-field write goes through
(spec/30_encoding.md section 5). -/
def putField (w : DWord) (hi lo v : Nat) : DWord :=
  w ||| (BitVec.ofNat 64 (v % 2 ^ (hi + 1 - lo)) <<< lo)

/-! ## Index fields -/

/-- The LSB position of the ETC index of pixel `(x, y)`; the MSB is 16 above (R103). -/
def indexShift (x y : Nat) : Nat := 4 * x + y

/-- The ETC index value of pixel `(x, y)` (R103). -/
def etcIndex (w : DWord) (x y : Nat) : Nat :=
  2 * field w (indexShift x y + 16) (indexShift x y + 16) + field w (indexShift x y) (indexShift x y)

/-- `putIdx(w, idx)` of R95 to R110, for indices in raster order. -/
def putIdx (w : DWord) (idx : Nat → Nat) : DWord :=
  raster.foldl (fun w k =>
    let s := indexShift (pixelX k) (pixelY k)
    putField (putField w (s + 16) (s + 16) (idx k / 2)) s s (idx k % 2)) w

/-- The low bit of the EAC index of pixel `(x, y)` (R112). -/
def eacShift (x y : Nat) : Nat := 45 - 3 * (4 * x + y)

/-- The EAC index of pixel `(x, y)` (R112). -/
def eacIndex (w : DWord) (x y : Nat) : Nat := field w (eacShift x y + 2) (eacShift x y)

/-! ## Colour mode selection -/

/-- A 5-bit base plus its 3-bit signed delta leaves [0, 31] (R98). -/
def overflows (base delta : Nat) : Bool :=
  let s := (base : Int) + sext3 delta
  decide (s < 0) || decide (31 < s)

/-- The colour sub-mode of a codeword: by the diff bit, which A1 formats take as 1, then by the first
channel that overflows (R98, R106). -/
def selectMode (w : DWord) (a1 : Bool) : Mode :=
  if !a1 && field w 33 33 == 0 then .individual
  else if overflows (field w 63 59) (field w 58 56) then .t
  else if overflows (field w 55 51) (field w 50 48) then .h
  else if overflows (field w 47 43) (field w 42 40) then .planar
  else .differential

/-! ## Reading the colour layouts -/

/-- The flip bit (R99, R100). -/
def flipBit (w : DWord) : Bool := field w 32 32 == 1

/-- The half pixel `(x, y)` lies in (spec/41_decoder.md R167). -/
def halfOf (flip : Bool) (x y : Nat) : Nat := if flip then (if 2 ≤ y then 1 else 0) else (if 2 ≤ x then 1 else 0)

/-- The Individual bases, expanded (R99). -/
def individualBase (w : DWord) (half : Nat) : Rgb :=
  if half = 0 then ⟨ext4 (field w 63 60), ext4 (field w 55 52), ext4 (field w 47 44)⟩
  else ⟨ext4 (field w 59 56), ext4 (field w 51 48), ext4 (field w 43 40)⟩

/-- The 5-bit Differential bases (R100). -/
def differentialBase5 (w : DWord) (half : Nat) : Rgb :=
  let b : Rgb := ⟨field w 63 59, field w 55 51, field w 47 43⟩
  if half = 0 then b
  else ⟨((b.r : Int) + sext3 (field w 58 56)).toNat, ((b.g : Int) + sext3 (field w 50 48)).toNat,
    ((b.b : Int) + sext3 (field w 42 40)).toNat⟩

/-- The Differential bases, expanded (R100). -/
def differentialBase (w : DWord) (half : Nat) : Rgb := (differentialBase5 w half).map ext5

/-- The modifier table of a half (R99, R100). -/
def halfTable (w : DWord) (half : Nat) : Nat := if half = 0 then field w 39 37 else field w 36 34

/-- The T colours, 4-bit: paint base and centre base (R101). -/
def tColours (w : DWord) : Rgb × Rgb :=
  (⟨4 * field w 60 59 + field w 57 56, field w 55 52, field w 51 48⟩,
   ⟨field w 47 44, field w 43 40, field w 39 36⟩)

/-- The T distance index (R101). -/
def tDistance (w : DWord) : Nat := 2 * field w 35 34 + field w 32 32

/-- The H colours, 4-bit (R102). -/
def hColours (w : DWord) : Rgb × Rgb :=
  (⟨field w 62 59, 2 * field w 58 56 + field w 52 52, 8 * field w 51 51 + field w 49 47⟩,
   ⟨field w 46 43, field w 42 39, field w 38 35⟩)

/-- `pk` of R102: the packed 12-bit value of a 4-bit colour. -/
def packed12 (c : Rgb) : Nat := c.r * 256 + c.g * 16 + c.b

/-- The H distance index: its low bit is the order of the bases (R102). -/
def hDistance (w : DWord) : Nat :=
  let c := hColours w
  4 * field w 34 34 + 2 * field w 32 32 + (if packed12 c.2 ≤ packed12 c.1 then 1 else 0)

/-- The Planar colours, quantised to 6, 7 and 6 bits (R105). -/
def planarQuantised (w : DWord) : PlanarFit Rgb where
  o := ⟨field w 62 57, 64 * field w 56 56 + field w 54 49,
    32 * field w 48 48 + 8 * field w 44 43 + field w 41 39⟩
  h := ⟨2 * field w 38 34 + field w 32 32, field w 31 25, field w 24 19⟩
  v := ⟨field w 18 13, field w 12 6, field w 5 0⟩

/-- A quantised Planar colour, expanded (R105). -/
def planarExpand (c : Rgb) : Rgb := ⟨ext6 c.r, ext7 c.g, ext6 c.b⟩

/-! ## Packing -/

/-- `packI` (R95). -/
def packI (b0 b1 : Rgb) (t0 t1 : Nat) (flip : Bool) (idx : Nat → Nat) : DWord :=
  let w := putField 0 63 60 b0.r
  let w := putField w 59 56 b1.r
  let w := putField w 55 52 b0.g
  let w := putField w 51 48 b1.g
  let w := putField w 47 44 b0.b
  let w := putField w 43 40 b1.b
  let w := putField w 39 37 t0
  let w := putField w 36 34 t1
  let w := putField w 33 33 0
  let w := putField w 32 32 flip.toNat
  putIdx w idx

/-- `d & 7` of a channel delta (R95). -/
def deltaBits (d : Int) : Nat := (d % 8).toNat

/-- `packD` (R95); `op` is bit 33. -/
def packD (b0 : Rgb) (d : Triple Int) (t0 t1 : Nat) (flip op : Bool) (idx : Nat → Nat) : DWord :=
  let w := putField 0 63 59 b0.r
  let w := putField w 58 56 (deltaBits d.r)
  let w := putField w 55 51 b0.g
  let w := putField w 50 48 (deltaBits d.g)
  let w := putField w 47 43 b0.b
  let w := putField w 42 40 (deltaBits d.b)
  let w := putField w 39 37 t0
  let w := putField w 36 34 t1
  let w := putField w 33 33 op.toNat
  let w := putField w 32 32 flip.toNat
  putIdx w idx

/-- `packT` (R108). -/
def packT (p c : Rgb) (di : Nat) (op : Bool) (idx : Nat → Nat) : DWord :=
  let ra := p.r / 4
  let rb := p.r % 4
  let carry := decide (4 ≤ ra + rb)
  let w := putField 0 63 61 (if carry then 7 else 0)
  let w := putField w 58 58 (if carry then 0 else 1)
  let w := putField w 60 59 ra
  let w := putField w 57 56 rb
  let w := putField w 55 52 p.g
  let w := putField w 51 48 p.b
  let w := putField w 47 44 c.r
  let w := putField w 43 40 c.g
  let w := putField w 39 36 c.b
  let w := putField w 35 34 (di / 2)
  let w := putField w 33 33 op.toNat
  let w := putField w 32 32 (di % 2)
  putIdx w idx

/-- `packH` (R109). -/
def packH (c0 c1 : Rgb) (di : Nat) (op : Bool) (idx : Nat → Nat) : DWord :=
  let g := 2 * (c0.g % 2) + c0.b / 8
  let e := c0.b % 8 / 2
  let carry := decide (4 ≤ g + e)
  let w := putField 0 62 59 c0.r
  let w := putField w 58 56 (c0.g / 2)
  let w := putField w 52 52 (c0.g % 2)
  let w := putField w 51 51 (c0.b / 8)
  let w := putField w 49 47 (c0.b % 8)
  let w := putField w 46 43 c1.r
  let w := putField w 42 39 c1.g
  let w := putField w 38 35 c1.b
  let w := putField w 34 34 (di / 4)
  let w := putField w 33 33 op.toNat
  let w := putField w 32 32 (di / 2 % 2)
  let w := putField w 63 63 (if (c0.r : Int) + sext3 (c0.g / 2) < 0 then 1 else 0)
  let w := putField w 55 53 (if carry then 7 else 0)
  let w := putField w 50 50 (if carry then 0 else 1)
  putIdx w idx

/-- `packP` (R110), for colours quantised to 6, 7 and 6 bits. -/
def packP (o h v : Rgb) : DWord :=
  let go2 := o.g % 64
  let b2 := o.b / 8 % 4
  let b3 := o.b % 8 / 2
  let carry := decide (4 ≤ b2 + b3)
  let w := putField 0 62 57 o.r
  let w := putField w 56 56 (o.g / 64)
  let w := putField w 54 49 go2
  let w := putField w 48 48 (o.b / 32)
  let w := putField w 44 43 b2
  let w := putField w 41 39 (o.b % 8)
  let w := putField w 38 34 (h.r / 2)
  let w := putField w 33 33 1
  let w := putField w 32 32 (h.r % 2)
  let w := putField w 31 25 h.g
  let w := putField w 24 19 h.b
  let w := putField w 18 13 v.r
  let w := putField w 12 6 v.g
  let w := putField w 5 0 v.b
  let w := putField w 63 63 (if ((o.r / 4 : Nat) : Int) + sext3 (o.r % 4 * 2 + o.g / 64) < 0 then 1 else 0)
  let w := putField w 55 55 (if ((go2 / 4 : Nat) : Int) + sext3 (go2 % 4 * 2 + o.b / 32) < 0 then 1 else 0)
  let w := putField w 47 45 (if carry then 7 else 0)
  putField w 42 42 (if carry then 0 else 1)

/-- `packE(base, mult, table, idx)` (R111, R112), for indices in raster order. -/
def packE (base mult table : Nat) (idx : Nat → Nat) : DWord :=
  let w := putField 0 63 56 base
  let w := putField w 55 52 mult
  let w := putField w 51 48 table
  raster.foldl (fun w k =>
    let s := eacShift (pixelX k) (pixelY k)
    putField w (s + 2) s (idx k)) w

end Sys2Proof.Machine
end

