-- ==== Sys2Proof/Machine/Decoder.lean ====
section
/-! DEFINITION. The block decoder (spec/41_decoder.md) and the command DECODE. The same functions serve
as the driver's oracle. -/

namespace Sys2Proof.Machine

/-! ## Colour -/

/-- A base colour with one modifier added to its three channels and clamped (R167). -/
def addModifier (base : Rgb) (m : Int) : Rgb := base.map fun (c : Nat) => clamp8 ((c : Int) + m)

/-- An opaque pixel. -/
def opaquePixel (c : Rgb) : Rgba := ⟨c, 255⟩

/-- The transparent pixel of A1 formats (R174). -/
def transparentPixel : Rgba := ⟨⟨0, 0, 0⟩, 0⟩

/-- The modifier of index value `v` in table `t`; in a punch-through block index 0 has modifier 0
(R167, R174). -/
def indexModifier (punch : Bool) (t v : Nat) : Int :=
  if punch && v == 0 then 0 else modEtc t (unscramble v)

/-- Individual and Differential (R167), with the punch-through exceptions (R174). -/
def decodeHalves (w : DWord) (base : Nat → Rgb) (punch : Bool) (x y : Nat) : Rgba :=
  let half := halfOf (flipBit w) x y
  let v := etcIndex w x y
  if punch && v == 2 then transparentPixel
  else opaquePixel (addModifier (base half) (indexModifier punch (halfTable w half) v))

/-- The T palette of 4-bit colours `p` and `c` at distance `d` (R168). -/
def tPalette (p c : Rgb) (d : Nat) (v : Nat) : Rgb :=
  match v with
  | 0 => p.map ext4
  | 1 => addModifier (c.map ext4) d
  | 2 => c.map ext4
  | _ => addModifier (c.map ext4) (-(d : Int))

/-- The H palette of 4-bit colours `c0` and `c1` at distance `d` (R168). -/
def hPalette (c0 c1 : Rgb) (d : Nat) (v : Nat) : Rgb :=
  match v with
  | 0 => addModifier (c0.map ext4) d
  | 1 => addModifier (c0.map ext4) (-(d : Int))
  | 2 => addModifier (c1.map ext4) d
  | _ => addModifier (c1.map ext4) (-(d : Int))

/-- T and H: the index selects a palette colour, or in a punch-through block index 2 is transparent
(R168, R174). -/
def decodePalette (w : DWord) (pal : Nat → Rgb) (punch : Bool) (x y : Nat) : Rgba :=
  let v := etcIndex w x y
  if punch && v == 2 then transparentPixel else opaquePixel (pal v)

/-- One channel of a Planar pixel (R169; 90_conflicts.md C2). -/
def planarChannel (o h v x y : Nat) : Nat :=
  clamp8 (((x : Int) * ((h : Int) - o) + (y : Int) * ((v : Int) - o) + 4 * (o : Int) + 2) / 4)

/-- Planar (R169). -/
def decodePlanar (w : DWord) (x y : Nat) : Rgba :=
  let q := planarQuantised w
  let o := planarExpand q.o
  let h := planarExpand q.h
  let v := planarExpand q.v
  opaquePixel ⟨planarChannel o.r h.r v.r x y, planarChannel o.g h.g v.g x y, planarChannel o.b h.b v.b x y⟩

/-- A pixel of a colour codeword in sub-mode `m`; `punch` says that the opaque bit of an A1 format is 0
(R162, R174). -/
def decodePixel (w : DWord) (m : Mode) (punch : Bool) (x y : Nat) : Rgba :=
  match m with
  | .individual => decodeHalves w (individualBase w) punch x y
  | .differential => decodeHalves w (differentialBase w) punch x y
  | .t => decodePalette w (tPalette (tColours w).1 (tColours w).2 (thDist (tDistance w))) punch x y
  | .h => decodePalette w (hPalette (hColours w).1 (hColours w).2 (thDist (hDistance w))) punch x y
  | .planar => decodePlanar w x y
  | .none => transparentPixel
  | .eac => transparentPixel

/-- The opaque bit of an A1 codeword is 0 (spec/30_encoding.md R106). -/
def isPunch (w : DWord) (f : Format) : Bool := isA1 f && field w 33 33 == 0

/-- The sub-mode of a codeword in a format (spec/30_encoding.md R98). Format 0x00 decodes the ETC2 modes
all the same (R175). -/
def colourMode (w : DWord) (f : Format) : Mode := selectMode w (isA1 f)

/-- `decodeColor(w, F)`, its pixels in raster order (R162). -/
def decodeColour (w : DWord) (f : Format) : List Rgba :=
  raster.map fun k => decodePixel w (colourMode w f) (isPunch w f) (pixelX k) (pixelY k)

/-! ## EAC -/

/-- `EXT11` on unsigned values, the default (R170). -/
def ext11Unsigned (v : Nat) : Nat := (v <<< 5) ||| (v >>> 6)

/-- `EXT11` on signed values, the default (R170). -/
def ext11Signed (v : Int) : Int :=
  let a := v.natAbs
  let e : Int := ((a <<< 5) ||| (a >>> 5) : Nat)
  if v < 0 then -e else e

/-- The value of an 8-bit EAC codeword's index (R171). -/
def eac8Value (base mult table i : Nat) : Nat := clamp8 ((base : Int) + eacMod table i * (mult : Int))

/-- `decodeEAC8`, in raster order (R171). -/
def decodeEac8 (w : DWord) : List Nat :=
  raster.map fun k => eac8Value (field w 63 56) (field w 55 52) (field w 51 48) (eacIndex w (pixelX k) (pixelY k))

/-- The signed base: `sext_8`, with −128 read as −127 (spec/30_encoding.md R113). -/
def signedBase (base : Nat) : Int :=
  let b : Int := if base < 128 then (base : Int) else (base : Int) - 256
  if b = -128 then -127 else b

/-- A modifier as 11-bit decoding scales it: multiplier 0 leaves it unscaled (R172, R173). -/
def eac11Step (mult table i : Nat) : Int :=
  if mult = 0 then eacMod table i else eacMod table i * (mult : Int) * 8

/-- The reconstruction value of an 11-bit codeword's index, unsigned (R172). -/
def eac11Unsigned (p : Params) (base mult table i : Nat) : Int :=
  p.ext11Unsigned (clampInt ((base : Int) * 8 + 4 + eac11Step mult table i) 0 2047).toNat

/-- The reconstruction value of an 11-bit codeword's index, signed (R173). -/
def eac11Signed (p : Params) (base mult table i : Nat) : Int :=
  p.ext11Signed (clampInt (signedBase base * 8 + eac11Step mult table i) (-1023) 1023)

/-- The reconstruction value of an 11-bit codeword's index (R172, R173). -/
def eac11Value (p : Params) (signed : Bool) (base mult table i : Nat) : Int :=
  if signed then eac11Signed p base mult table i else eac11Unsigned p base mult table i

/-- `decodeEAC11`, in raster order (R172, R173). -/
def decodeEac11 (p : Params) (signed : Bool) (w : DWord) : List Int :=
  raster.map fun k =>
    eac11Value p signed (field w 63 56) (field w 55 52) (field w 51 48) (eacIndex w (pixelX k) (pixelY k))

/-! ## DEC -/

/-- The 64 bytes of DEC for colour pixels (spec/30_encoding.md R116). -/
def colourBytes (l : List Rgba) : List Byte :=
  l.flatMap fun p => [BitVec.ofNat 8 p.rgb.r, BitVec.ofNat 8 p.rgb.g, BitVec.ofNat 8 p.rgb.b, BitVec.ofNat 8 p.a]

/-- The 32 bytes of one channel's samples, each modulo 2^16 (R176). -/
def sampleBytes (l : List Int) : List Byte := l.flatMap fun v => bytesBE16 (v % 65536).toNat

/-- Write DEC whole and report the sub-mode; DECODE computes no loss (R161). -/
def finishDecode (s : State) (bytes : List Byte) (m : Mode) : Answer :=
  succeed (clearLvalid (setMode (writeWindow s .dec 0 bytes) m))

/-- Pixels of an A8 block: the colour with the decoded alpha (R161). -/
def withAlpha (px : List Rgba) (al : List Nat) : List Rgba := List.zipWith (fun q a => ⟨q.rgb, a⟩) px al

/-- DECODE by class of the format (R161), with the OPEN parameters as an argument. -/
def decodeBlock (p : Params) (s : State) (f : Format) : Answer :=
  match formatClass f with
  | .rgb => withOperand (readCodeword s.mem 0) fun w => finishDecode s (colourBytes (decodeColour w f)) (colourMode w f)
  | .a1 => withOperand (readCodeword s.mem 0) fun w => finishDecode s (colourBytes (decodeColour w f)) (colourMode w f)
  | .a8 =>
    withOperand (readBoth (readCodeword s.mem 0) (readCodeword s.mem 8)) fun (a, w) =>
      finishDecode s (colourBytes (withAlpha (decodeColour w f) (decodeEac8 a))) (colourMode w f)
  | .r11 =>
    withOperand (readCodeword s.mem 0) fun w =>
      finishDecode s (sampleBytes (decodeEac11 p (formatSigned f) w) ++ List.replicate 32 0) .eac
  | .rg11 =>
    withOperand (readBoth (readCodeword s.mem 0) (readCodeword s.mem 8)) fun (r, g) =>
      finishDecode s
        (sampleBytes (decodeEac11 p (formatSigned f) r) ++ sampleBytes (decodeEac11 p (formatSigned f) g)) .eac

end Sys2Proof.Machine
end

