-- ==== Sys2Proof/Machine/Metric.lean ====
section
/-! DEFINITION. The error metric (spec/42_metric.md), the ordered searches over it, and the command SCORE. -/

namespace Sys2Proof.Machine

/-! ## The ordered search -/

/-- One candidate of a search: it replaces the best only when strictly smaller (spec/00_scope.md R11). -/
def keepBest {α β : Type} (lt : β → β → Bool) (f : α → β) (best : Option (α × β)) (a : α) : Option (α × β) :=
  let v := f a
  match best with
  | none => some (a, v)
  | some (b, u) => if lt v u then some (a, v) else some (b, u)

/-- `argmin_{a in L} f(a)` with its value: the first element that reaches the minimum
(spec/00_scope.md R11); none for an empty list. -/
def argminBy {α β : Type} (lt : β → β → Bool) (f : α → β) (l : List α) : Option (α × β) :=
  l.foldl (keepBest lt f) none

/-- Strictly smaller losses. -/
def natLt (a b : Nat) : Bool := decide (a < b)

/-- `argminBy` on losses, with a default no caller reaches: every list searched is non-empty (log 20). -/
def argmin {α : Type} (dflt : α) (f : α → Nat) (l : List α) : α × Nat := (argminBy natLt f l).getD (dflt, 0)

/-! ## Losses -/

/-- The square of a difference. -/
def sqDiff (a b : Int) : Nat := (a - b).natAbs ^ 2

/-- The pixel error (R203). -/
def pixelError (p q : Rgb) : Nat := 299 * sqDiff p.r q.r + 587 * sqDiff p.g q.g + 114 * sqDiff p.b q.b

/-- `colourLoss` (R202); a transparent source pixel adds 0 (R204). -/
def colourLoss (src : List SrcPixel) (dec : List Rgb) : Nat :=
  (List.zipWith (fun p q => if p.transparent then 0 else pixelError p.rgb q) src dec).sum

/-- `alphaLoss` (R207). -/
def alphaLoss (src dec : List Nat) : Nat := (List.zipWith (fun (a b : Nat) => sqDiff a b) src dec).sum

/-- `SIGNED_MAP`, the default (R206). -/
def signedMap (u : Nat) : Int := max ((u : Int) - 32768) (-32767)

/-- The targets of a channel's samples (R205). -/
def sampleTargets (p : Params) (signed : Bool) (samples : List Nat) : List Int :=
  samples.map fun (u : Nat) => if signed then p.signedMap u else (u : Int)

/-- `loss11` of targets against reconstruction values (R205). -/
def sampleLoss (targets dec : List Int) : Nat := (List.zipWith sqDiff targets dec).sum

/-- A DEC sample as SCORE reads it: `sext_16` in SIGNED formats (R201). -/
def decSample (signed : Bool) (v : Nat) : Int :=
  if signed && decide (32768 ≤ v) then (v : Int) - 65536 else (v : Int)

/-- `loss11(BLK, DEC, ch, F)` from the samples of both buffers (R201, R205). -/
def scoreSamples (p : Params) (f : Format) (blk dec : List Nat) : Nat :=
  sampleLoss (sampleTargets p (formatSigned f) blk) (dec.map (decSample (formatSigned f)))

/-! ## SCORE -/

/-- The samples of channel `ch` of BLK and of DEC. -/
def readSamplePair (s : State) (ch : Nat) : Except Fault (List Nat × List Nat) :=
  readBoth (readSamples s.mem .blk ch) (readSamples s.mem .dec ch)

/-- SCORE by class of the format (R201), with the OPEN parameters as an argument. -/
def scoreBlock (p : Params) (s : State) (f : Format) : Answer :=
  match formatClass f with
  | .rgb =>
    withOperand (readBoth (readSource s.mem f) (readRgb s.mem .dec)) fun (src, dec) =>
      succeed (setLoss s (colourLoss src dec))
  | .a1 =>
    withOperand (readBoth (readSource s.mem f) (readRgb s.mem .dec)) fun (src, dec) =>
      succeed (setLoss s (colourLoss src dec))
  | .a8 =>
    withOperand (readBoth (readBoth (readSource s.mem f) (readRgb s.mem .dec))
        (readBoth (readAlpha s.mem .blk) (readAlpha s.mem .dec))) fun ((src, dec), (sa, da)) =>
      succeed (setAloss (setLoss s (colourLoss src dec)) (alphaLoss sa da))
  | .r11 =>
    withOperand (readSamplePair s 0) fun (blk, dec) => succeed (setLoss s (scoreSamples p f blk dec))
  | .rg11 =>
    withOperand (readBoth (readSamplePair s 0) (readSamplePair s 1)) fun ((b0, d0), (b1, d1)) =>
      succeed (setLoss s (scoreSamples p f b0 d0 + scoreSamples p f b1 d1))

end Sys2Proof.Machine
end

