-- ==== Sys2Proof/Machine/KMeans.lean ====
section
/-! DEFINITION. Two-means clustering, shared by T and H: the defaults of the OPEN parameters `SEED_PICK`,
`QRS` and `KMEANS` (spec/43_color_candidates.md R236 to R242). -/

namespace Sys2Proof.Machine

/-- The binary64 intensities `[0.5, 0.0, 1.0][INTENS]` (spec/30_encoding.md R94). -/
def intensity (intens : BitVec 2) : F64 := [fHalf, fZero, fOne].getD intens.toNat fZero

/-- `SEED_PICK`, the default: the points that start the two centres of start `s` (R237). -/
def seedPick (seeds : List Nat) (n s : Nat) : Nat × Nat := (seeds.getD (2 * s) 0 % n, seeds.getD (2 * s + 1) 0 % n)

/-- `QRS`, the default: luma scaled by the intensity, and two chroma axes (R238). -/
def qrs (fl : FloatOps) (k : F64) (p : Rgb) : Triple F64 where
  r := fl.mul k (fl.mul qrsK3 (fOfInt ((p.r : Int) + p.g + p.b)))
  g := fl.mul qrsK2 (fOfInt ((p.r : Int) - p.g))
  b := fl.mul qrsK6 (fOfInt ((p.r : Int) + p.g - 2 * p.b))

/-- `dist(u, v)`, evaluated left to right (R238). -/
def dist (fl : FloatOps) (u v : Triple F64) : F64 :=
  let d := Triple.zip fl.sub u v
  fl.add (fl.add (fl.mul d.r d.r) (fl.mul d.g d.g)) (fl.mul d.b d.b)

/-- An assignment: for each point, whether it belongs to cluster 1. -/
abbrev Assignment := List Bool

/-- The assignment step: the nearer centre, ties to centre 0 (R239). -/
def assign (fl : FloatOps) (pts : List (Triple F64)) (m0 m1 : Triple F64) : Assignment :=
  pts.map fun q => !fLe (dist fl q m0) (dist fl q m1)

/-- The distortion, summed in point order (R239). -/
def distortion (fl : FloatOps) (pts : List (Triple F64)) (m0 m1 : Triple F64) (a : Assignment) : F64 :=
  (List.zipWith (fun q c => dist fl q (if c then m1 else m0)) pts a).foldl fl.add fZero

/-- The members of cluster `c`, in order. -/
def members {α : Type} (pts : List α) (a : Assignment) (c : Bool) : List α :=
  (List.zip pts a).filterMap fun q => if q.2 == c then some q.1 else none

/-- The update step: the binary64 mean of a cluster's points, per coordinate (R239). R239 leaves the order of the
additions open; they run in point order, from 0 (DESIGN CHOICE, log 24). -/
def clusterMean (fl : FloatOps) (pts : List (Triple F64)) : Triple F64 :=
  let sum := pts.foldl (Triple.zip fl.add) ⟨fZero, fZero, fZero⟩
  sum.map fun c => fl.div c (fOfInt pts.length)

/-- The Lloyd iteration: this round and at most `more` further ones. It stops when a cluster is empty, when
the distortion is 0, or when it equals that of the round before (R239, log 18). -/
def lloyd (fl : FloatOps) (pts : List (Triple F64)) :
    Nat → Triple F64 → Triple F64 → Option F64 → Assignment × F64
  | more, m0, m1, prev =>
    let a := assign fl pts m0 m1
    let d := distortion fl pts m0 m1 a
    let stop := !a.contains false || !a.contains true || d == fZero || prev == some d
    match more with
    | 0 => (a, d)
    | more + 1 =>
      if stop then (a, d)
      else lloyd fl pts more (clusterMean fl (members pts a false)) (clusterMean fl (members pts a true)) (some d)

/-- The ten starts, in order (R237, R240). -/
def kmeansStarts : List Nat := List.range 10

/-- The final assignment and distortion of start `s` (R237, R239). -/
def runStart (fl : FloatOps) (kp : KMeansParams) (pts : List (Triple F64)) (s : Nat) : Assignment × F64 :=
  let pick := kp.seedPick kp.seedTable pts.length s
  let zero : Triple F64 := ⟨fZero, fZero, fZero⟩
  lloyd fl pts 9 (pts.getD pick.1 zero) (pts.getD pick.2 zero) none

/-- The kept assignment: that of the start with the least final distortion, the earliest among equals
(R240). -/
def bestAssignment (fl : FloatOps) (kp : KMeansParams) (pts : List (Triple F64)) : Assignment :=
  match argminBy (fun (u v : Assignment × F64) => fLt u.2 v.2) (runStart fl kp pts) kmeansStarts with
  | some (_, u) => u.1
  | none => []

/-- The rounded mean of a cluster's original colours, 8-bit (R241). -/
def roundedMean (fl : FloatOps) (pts : List Rgb) : Rgb :=
  let mean (ch : Rgb → Nat) : Nat :=
    (clampInt (fRound fl (fl.div (fOfInt (pts.map ch).sum) (fOfInt pts.length))) 0 255).toNat
  ⟨mean Triple.r, mean Triple.g, mean Triple.b⟩

/-- The output centres; a cluster without points takes the other's, and without any point both are black
(R241). -/
def outputCentres (fl : FloatOps) (pts : List Rgb) (a : Assignment) : Rgb × Rgb :=
  match members pts a false, members pts a true with
  | [], [] => (⟨0, 0, 0⟩, ⟨0, 0, 0⟩)
  | [], q => (roundedMean fl q, roundedMean fl q)
  | p, [] => (roundedMean fl p, roundedMean fl p)
  | p, q => (roundedMean fl p, roundedMean fl q)

/-- `KMEANS`, the default: the two 8-bit centres of the points at an intensity (R236 to R241). -/
def kmeans2 (fl : FloatOps) (kp : KMeansParams) (pts : List Rgb) (k : F64) : Rgb × Rgb :=
  if pts.isEmpty then (⟨0, 0, 0⟩, ⟨0, 0, 0⟩)
  else outputCentres fl pts (bestAssignment fl kp (pts.map (kp.qrs fl k)))

/-- The defaults of `SEED_TABLE`, `SEED_PICK` and `QRS`. -/
def kmeansDefaults : KMeansParams := ⟨seedTable, seedPick, qrs⟩

end Sys2Proof.Machine
end

