-- ==== Sys2Proof/Machine/Params.lean ====
section
/-! DEFINITION. The EAC searches and the values the OPEN parameters take: the defaults spec/00_scope.md R6
names (log 9). -/

namespace Sys2Proof.Machine

/-! ## EAC searches -/

/-- The first index 0..7 whose reconstruction value is nearest to a target, with its squared error. -/
def nearestIndex (val : List Int) (t : Int) : Nat × Nat := argmin 0 (fun i => sqDiff t (val.getD i 0)) (List.range 8)

/-- The block loss of a table of 8 reconstruction values: every target takes its nearest value. -/
def valuesLoss (val targets : List Int) : Nat := (targets.map fun t => (nearestIndex val t).2).sum

/-- The indices that go with `valuesLoss`, by raster pixel. -/
def valuesIndex (val targets : List Int) (k : Nat) : Nat := (nearestIndex val (targets.getD k 0)).1

/-- One (base, multiplier, table) choice of an EAC search. -/
structure EacChoice where
  base : Nat
  mult : Nat
  table : Nat
deriving DecidableEq, Repr

/-- The choices in loop order: base outermost, then multiplier, then table
(spec/44_alpha_eac_driver.md R272, R275). -/
def eacChoices (bases mults : List Nat) : List EacChoice :=
  bases.flatMap fun b => mults.flatMap fun m => (List.range 16).map fun t => ⟨b, m, t⟩

/-- The 8 reconstruction values of a choice. -/
def choiceValues (value : Nat → Nat → Nat → Nat → Int) (c : EacChoice) : List Int :=
  (List.range 8).map (value c.base c.mult c.table)

/-- The exhaustive search over the given choices: the codeword of the first choice of least loss, and that
loss (R272, R275). -/
def eacSearch (value : Nat → Nat → Nat → Nat → Int) (choices : List EacChoice) (targets : List Int) : DWord × Nat :=
  let best := argmin ⟨0, 0, 0⟩ (fun c => valuesLoss (choiceValues value c) targets) choices
  let c := best.1
  (packE c.base c.mult c.table (valuesIndex (choiceValues value c) targets), best.2)

/-- The choices of the alpha search: multiplier 0 is left out (R272). -/
def alphaChoices : List EacChoice := eacChoices (List.range 256) ((List.range 16).drop 1)

/-- `ALPHA_SEARCH`, the default: the exhaustive search over the 16 alpha values (R272). -/
def alphaSearch (alpha : List Nat) : DWord :=
  (eacSearch (fun b m t i => (eac8Value b m t i : Int)) alphaChoices (alpha.map fun (a : Nat) => (a : Int))).1

/-- The choices of the 11-bit search: in signed formats base byte 0x80 is skipped (R275). -/
def sampleChoices (signed : Bool) : List EacChoice :=
  eacChoices ((List.range 256).filter fun b => !(signed && b == 0x80)) (List.range 16)

/-- `search11` on the targets of one channel (R275). -/
def search11 (p : Params) (signed : Bool) (targets : List Int) : DWord × Nat :=
  eacSearch (eac11Value p signed) (sampleChoices signed) targets

/-! ## The parameters -/

/-- The values `exec` runs with: every OPEN parameter at the default of spec/00_scope.md R6 (log 9). -/
def params : Params where
  float := ieee754
  kmeans2 := kmeans2 ieee754 kmeansDefaults
  alphaSearch := alphaSearch
  signedMap := signedMap
  ext11Unsigned := ext11Unsigned
  ext11Signed := ext11Signed

end Sys2Proof.Machine
end

