-- ==== Sys2Proof/Machine/Candidates.lean ====
section
/-! DEFINITION. The colour candidate generators (spec/43_color_candidates.md): Individual and Differential,
ETC1S, T, H and Planar, each from the source block to one 64-bit codeword. -/

namespace Sys2Proof.Machine

/-! ## Means and reductions -/

/-- Raster pixel `k` of a block. -/
def pixelAt (px : List SrcPixel) (k : Nat) : SrcPixel := px.getD k ⟨⟨0, 0, 0⟩, false⟩

/-- The 8 pixels of an orientation with their raster indices, in the order of R104 (R218). -/
def halfPixels (px : List SrcPixel) (o : Nat) : List (Nat × SrcPixel) :=
  (orientOfs o).map fun ofs => (ofs / 4, pixelAt px (ofs / 4))

/-- The colours a mean or a clustering uses: with `tr` the opaque pixels only (R218, R242). -/
def usedColours (tr : Bool) (l : List SrcPixel) : List Rgb :=
  (l.filter fun p => !(tr && p.transparent)).map SrcPixel.rgb

/-- `halfMean(S)`: one binary64 division per channel of an exact sum (R219). -/
def colourMean (fl : FloatOps) (l : List Rgb) : Triple F64 :=
  let mean (ch : Rgb → Nat) : F64 := fl.div (fOfInt (l.map ch).sum) (fOfInt l.length)
  ⟨mean Triple.r, mean Triple.g, mean Triple.b⟩

/-- The means of the two halves; an empty half takes the other's, and two empty halves give 0 (R219). -/
def halfMeans (fl : FloatOps) (l0 l1 : List Rgb) : Triple F64 × Triple F64 :=
  match l0, l1 with
  | [], [] => (⟨fZero, fZero, fZero⟩, ⟨fZero, fZero, fZero⟩)
  | [], q => (colourMean fl q, colourMean fl q)
  | p, [] => (colourMean fl p, colourMean fl p)
  | p, q => (colourMean fl p, colourMean fl q)

/-- The largest `n`-bit value, `M = 2^n − 1` (R220). -/
def maxCode (n : Nat) : Nat := 2 ^ n - 1

/-- `mean.c · M / 255` in binary64 (R220, R221). -/
def scaledMean (fl : FloatOps) (n : Nat) (c : F64) : F64 := fl.div (fl.mul c (fOfInt (maxCode n))) (fOfInt 255)

/-- The Average reduction to `n` bits (R220). -/
def averageReduce (fl : FloatOps) (n : Nat) (mean : Triple F64) : Rgb :=
  mean.map fun c => (fRound fl (scaledMean fl n c)).toNat

/-- `ext5` or `ext4` for `n` bits. -/
def extBits (n : Nat) (v : Nat) : Nat := if n = 5 then ext5 v else ext4 v

/-- Corner `k` of the cube around the scaled mean: R is bit 2, G bit 1, B bit 0 (R221). -/
def corner (n : Nat) (lo : Rgb) (k : Nat) : Rgb :=
  ⟨min (lo.r + k / 4 % 2) (maxCode n), min (lo.g + k / 2 % 2) (maxCode n), min (lo.b + k % 2) (maxCode n)⟩

/-- The cross-channel deviation score of a corner, in binary64, left to right (R221). -/
def cornerScore (fl : FloatOps) (n : Nat) (mean : Triple F64) (q : Rgb) : F64 :=
  let e := Triple.zip (fun (c : Nat) m => fl.sub (fOfInt (extBits n c)) m) q mean
  let term (weight : Int) (u v : F64) : F64 :=
    let d := fl.sub u v
    fl.mul (fOfInt weight) (fl.mul d d)
  fl.add (fl.add (term (299 * 587) e.r e.g) (term (587 * 114) e.g e.b)) (term (114 * 299) e.b e.r)

/-- The Quantize reduction to `n` bits (R221). -/
def quantizeReduce (fl : FloatOps) (n : Nat) (mean : Triple F64) : Rgb :=
  let lo := mean.map fun c => (fFloor (scaledMean fl n c)).toNat
  match argminBy fLt (cornerScore fl n mean) ((List.range 8).map (corner n lo)) with
  | some (q, _) => q
  | none => lo

/-- The reduction RED selects: 0 Average, 1 Quantize (R217). -/
def reduceMean (fl : FloatOps) (red : Bool) (n : Nat) (mean : Triple F64) : Rgb :=
  if red then quantizeReduce fl n mean else averageReduce fl n mean

/-! ## Table and index search -/

/-- The index values a pixel may take in table `t`, with their modifiers, in search order: in a punch-through
search index 2 is skipped and index 0 has modifier 0 (R223). -/
def indexChoices (punch : Bool) (t : Nat) : List (Nat × Int) :=
  ([0, 1, 2, 3].filter fun s => !(punch && scramble s == 2)).map fun s =>
    (scramble s, if punch && scramble s == 0 then 0 else modEtc t s)

/-- The index of one pixel in table `t` and its error; a transparent pixel of a punch-through search takes
index 2 and adds 0 (R223). -/
def pixelIndex (punch : Bool) (base : Rgb) (t : Nat) (p : SrcPixel) : Nat × Nat :=
  if punch && p.transparent then (2, 0)
  else
    let best := argmin (0, 0) (fun c => pixelError p.rgb (addModifier base c.2)) (indexChoices punch t)
    (best.1.1, best.2)

/-- The total error of table `t` over a pixel list (R223). -/
def tableLoss (punch : Bool) (base : Rgb) (l : List (Nat × SrcPixel)) (t : Nat) : Nat :=
  (l.map fun q => (pixelIndex punch base t q.2).2).sum

/-- `tableSearch`: the first table of least total error, and the index of each pixel of the list by raster
index (R223). -/
def tableSearch (punch : Bool) (base : Rgb) (l : List (Nat × SrcPixel)) : Nat × List (Nat × Nat) :=
  let t := (argmin 0 (tableLoss punch base l) (List.range 8)).1
  (t, l.map fun q => (q.1, (pixelIndex punch base t q.2).1))

/-- The index of a raster pixel in such a list. -/
def indexIn (l : List (Nat × Nat)) (k : Nat) : Nat := (l.lookup k).getD 0

/-! ## Individual, Differential and ETC1S -/

/-- A per-channel difference `q1 − q0`. -/
def channelDelta (q0 q1 : Rgb) : Triple Int := Triple.zip (fun (a b : Nat) => (b : Int) - (a : Int)) q0 q1

/-- The delta fits the Differential layout (R222). -/
def deltaFits (d : Triple Int) : Bool := d.all fun c => decide (-4 ≤ c) && decide (c ≤ 3)

/-- `q + d` on each channel. -/
def addDelta (q : Rgb) (d : Triple Int) : Rgb := Triple.zip (fun (a : Nat) (b : Int) => ((a : Int) + b).toNat) q d

/-- A Differential codeword from its 5-bit base, its delta and the two table searches (R217, R224, R225). -/
def differentialWord (px : List SrcPixel) (flip punch op : Bool) (q0 : Rgb) (d : Triple Int) : DWord :=
  let s0 := tableSearch punch (q0.map ext5) (halfPixels px (2 * flip.toNat))
  let s1 := tableSearch punch ((addDelta q0 d).map ext5) (halfPixels px (2 * flip.toNat + 1))
  packD q0 d s0.1 s1.1 flip op (indexIn (s0.2 ++ s1.2))

/-- An Individual codeword from its 4-bit bases and the two table searches (R217, R224). -/
def individualWord (px : List SrcPixel) (flip : Bool) (q0 q1 : Rgb) : DWord :=
  let s0 := tableSearch false (q0.map ext4) (halfPixels px (2 * flip.toNat))
  let s1 := tableSearch false (q1.map ext4) (halfPixels px (2 * flip.toNat + 1))
  packI q0 q1 s0.1 s1.1 flip (indexIn (s0.2 ++ s1.2))

/-- The Individual/Differential generator (R217 to R225). In A1 formats the layout is Differential with the
delta clamped, and bit 33 is the opaque bit (R225). -/
def generateId (p : Params) (f : Format) (px : List SrcPixel) (red flip tr : Bool) : DWord :=
  let half (h : Nat) := usedColours tr ((halfPixels px (2 * flip.toNat + h)).map Prod.snd)
  let means := halfMeans p.float (half 0) (half 1)
  let q0 := reduceMean p.float red 5 means.1
  let q1 := reduceMean p.float red 5 means.2
  let d := channelDelta q0 q1
  if isA1 f then differentialWord px flip tr (!tr) q0 (d.map fun c => clampInt c (-4) 3)
  else if deltaFits d then differentialWord px flip false true q0 d
  else individualWord px flip (reduceMean p.float red 4 means.1) (reduceMean p.float red 4 means.2)

/-- The ETC1S generator: one base and one table for both halves (R226). -/
def generateEtc1s (p : Params) (px : List SrcPixel) : DWord :=
  let q := averageReduce p.float 5 (colourMean p.float (px.map SrcPixel.rgb))
  let s := tableSearch false (q.map ext5) (raster.map fun k => (k, pixelAt px k))
  packD q ⟨0, 0, 0⟩ s.1 s.1 false true (indexIn s.2)

/-! ## T and H -/

/-- `q4` (R228). -/
def q4 (v : Nat) : Nat := (v + 8) * 15 / 255

/-- The palette indices a pixel may take: index 2 is kept for transparent pixels when `tr` (R229). -/
def paletteChoices (tr : Bool) : List Nat := [0, 1, 2, 3].filter fun v => !(tr && v == 2)

/-- The index of one pixel in a palette, and its error (R229). -/
def paletteIndex (tr : Bool) (pal : Nat → Rgb) (p : SrcPixel) : Nat × Nat :=
  if tr && p.transparent then (2, 0) else argmin 0 (fun v => pixelError p.rgb (pal v)) (paletteChoices tr)

/-- The total error of a palette over the block (R229). -/
def paletteLoss (tr : Bool) (px : List SrcPixel) (pal : Nat → Rgb) : Nat :=
  (px.map fun p => (paletteIndex tr pal p).2).sum

/-- One choice of the T or H search: the two 4-bit colours in codeword order and the distance index. -/
structure PairChoice where
  c0 : Rgb
  c1 : Rgb
  di : Nat
deriving DecidableEq, Repr

/-- The T choices: distance outermost, then which cluster is the paint colour (R229). -/
def tChoices (a b : Rgb) : List PairChoice := (List.range 8).flatMap fun di => [⟨a, b, di⟩, ⟨b, a, di⟩]

/-- Make the first of two equal packed colours strictly smaller (R233). -/
def nudge (lo hi : Rgb) : Rgb × Rgb :=
  if hi.b < 15 then (lo, ⟨hi.r, hi.g, hi.b + 1⟩) else (⟨lo.r, lo.g, lo.b - 1⟩, hi)

/-- `hOrder`: the order of the bases that carries the low bit of `di` (R233). -/
def hOrder (a b : Rgb) (di : Nat) : Rgb × Rgb :=
  let lo := if packed12 a ≤ packed12 b then a else b
  let hi := if packed12 a ≤ packed12 b then b else a
  if di % 2 = 1 then (hi, lo)
  else if packed12 lo = packed12 hi then nudge lo hi
  else (lo, hi)

/-- The H choices, one order per distance index (R232, R233). -/
def hChoices (a b : Rgb) : List PairChoice :=
  (List.range 8).map fun di => ⟨(hOrder a b di).1, (hOrder a b di).2, di⟩

/-- The palette of a choice. -/
def choicePalette (palette : Rgb → Rgb → Nat → Nat → Rgb) (c : PairChoice) : Nat → Rgb :=
  palette c.c0 c.c1 (thDist c.di)

/-- The first choice of least total error, and the index of each raster pixel (R229, R232). -/
def pairSearch (palette : Rgb → Rgb → Nat → Nat → Rgb) (tr : Bool) (px : List SrcPixel) (choices : List PairChoice) :
    PairChoice × (Nat → Nat) :=
  let c := (argmin ⟨⟨0, 0, 0⟩, ⟨0, 0, 0⟩, 0⟩ (fun c => paletteLoss tr px (choicePalette palette c)) choices).1
  (c, fun k => (paletteIndex tr (choicePalette palette c) (pixelAt px k)).1)

/-- The 4-bit colours of the two clusters of the block (R227, R228, R242). -/
def clusterColours (p : Params) (px : List SrcPixel) (tr : Bool) (intens : BitVec 2) : Rgb × Rgb :=
  let c := p.kmeans2 (usedColours tr px) (intensity intens)
  (c.1.map q4, c.2.map q4)

/-- Bit 33: the opaque bit in A1 formats, 1 in the others (R227, R232). -/
def opaqueBit (f : Format) (tr : Bool) : Bool := !(isA1 f && tr)

/-- The T generator (R227 to R231). -/
def generateT (p : Params) (f : Format) (px : List SrcPixel) (tr : Bool) (intens : BitVec 2) : DWord :=
  let c := clusterColours p px tr intens
  let s := pairSearch tPalette tr px (tChoices c.1 c.2)
  packT s.1.c0 s.1.c1 s.1.di (opaqueBit f tr) s.2

/-- The H generator (R232 to R235). -/
def generateH (p : Params) (f : Format) (px : List SrcPixel) (tr : Bool) (intens : BitVec 2) : DWord :=
  let c := clusterColours p px tr intens
  let s := pairSearch hPalette tr px (hChoices c.1 c.2)
  packH s.1.c0 s.1.c1 s.1.di (opaqueBit f tr) s.2

/-! ## Planar -/

/-- The inner product of a row with a column of values. -/
def dotProduct (row vals : List Int) : Int := (List.zipWith (· * ·) row vals).sum

/-- `d = Z · b` (R250). -/
def planarMoments (vals : List Int) : PlanarFit Int :=
  ⟨dotProduct planarZ.o vals, dotProduct planarZ.h vals, dotProduct planarZ.v vals⟩

/-- One row of `320 · C · d` (R251). -/
def planarRow (row d : PlanarFit Int) : Int := row.o * d.o + row.h * d.h + row.v * d.v

/-- `320 · x` for `x = C · d`, clamped to `0 ≤ x ≤ 255` (R250, R251). -/
def planarSolve (vals : List Int) : PlanarFit Int :=
  let d := planarMoments vals
  let entry (row : PlanarFit Int) := clampInt (planarRow row d) 0 (320 * 255)
  ⟨entry planarC320.o, entry planarC320.h, entry planarC320.v⟩

/-- `floor(x · M / 255 + 1/2)` for `x = n / 320`, exactly (R252). -/
def planarQuant (m : Int) (n : Int) : Nat := ((2 * m * n + 320 * 255) / (2 * 320 * 255)).toNat

/-- The fitted colours of one channel, quantised with `M = m` (R250, R252). -/
def planarFitChannel (m : Int) (vals : List Int) : PlanarFit Nat :=
  let x := planarSolve vals
  ⟨planarQuant m x.o, planarQuant m x.h, planarQuant m x.v⟩

/-- The Planar generator: each channel alone, 6 bits for R and B and 7 for G (R250 to R253). -/
def generatePlanar (px : List SrcPixel) : DWord :=
  let vals (ch : Rgb → Nat) : List Int := px.map fun p => (ch p.rgb : Int)
  let r := planarFitChannel 63 (vals Triple.r)
  let g := planarFitChannel 127 (vals Triple.g)
  let b := planarFitChannel 63 (vals Triple.b)
  packP ⟨r.o, g.o, b.o⟩ ⟨r.h, g.h, b.h⟩ ⟨r.v, g.v, b.v⟩

/-! ## The command template -/

/-- The oracle loss of a codeword against the block (R216; spec/44_alpha_eac_driver.md R278). -/
def oracleLoss (f : Format) (px : List SrcPixel) (w : DWord) : Nat :=
  colourLoss px ((decodeColour w f).map Rgba.rgb)

/-- Where a colour codeword lies in CW (R216). -/
def colourSlot (f : Format) : Nat := if isA8 f then 8 else 0

/-- The effect of a colour generator command whose codeword is `w`: the oracle's decode and loss, the codeword
into CW, and the result registers (R216). -/
def colourResult (s : State) (f : Format) (px : List SrcPixel) (w : DWord) : State :=
  setMode (setLoss (putCodeword s (colourSlot f) w) (oracleLoss f px w)) (colourMode w f)

/-- The template of the colour generator commands: format and option checks, the operand BLK, then the
generator (R216). -/
def colourCandidate (s : State) (allowed : Format → Bool) (transp : Bool)
    (generate : Format → List SrcPixel → DWord) : Answer :=
  withFormat s fun f =>
    if !allowed f || (transp && !isA1 f) then raise s .badArgument
    else withOperand (readSource s.mem f) fun px => succeed (colourResult s f px (generate f px))

/-- A colour generator that uses INTENS: the reserved value is BAD_COMMAND before any other check
(spec/60_exceptions.md R327, R329; log 17). -/
def intensityCandidate (s : State) (transp : Bool) (intens : BitVec 2)
    (generate : Format → List SrcPixel → DWord) : Answer :=
  if intensityLegal intens then colourCandidate s isEtc2Colour transp generate else raise s .badCommand

/-! ## The commands -/

/-- CAND_ID (R217). -/
def execCandId (red flip transp : Bool) (s : State) : Answer :=
  colourCandidate s isColour transp fun f px => generateId params f px red flip transp

/-- CAND_ETC1S (R226). -/
def execCandEtc1s (s : State) : Answer := colourCandidate s isColour false fun _ px => generateEtc1s params px

/-- CAND_PLANAR (R250). -/
def execCandPlanar (s : State) : Answer := colourCandidate s isEtc2Colour false fun _ px => generatePlanar px

/-- CAND_T (R227). -/
def execCandT (transp : Bool) (intens : BitVec 2) (s : State) : Answer :=
  intensityCandidate s transp intens fun f px => generateT params f px transp intens

/-- CAND_H (R232). -/
def execCandH (transp : Bool) (intens : BitVec 2) (s : State) : Answer :=
  intensityCandidate s transp intens fun f px => generateH params f px transp intens

end Sys2Proof.Machine
end

