-- ==== Sys2Proof/Machine/Driver.lean ====
section
/-! DEFINITION. The EAC commands, the driver's mode search, and the commands that read through them: ENCODE,
DECODE and SCORE with the OPEN parameters at their values (spec/44_alpha_eac_driver.md). -/

namespace Sys2Proof.Machine

/-! ## EAC commands -/

/-- The alpha codeword and its decoded loss (R272). -/
def searchAlpha (p : Params) (alpha : List Nat) : DWord × Nat :=
  let e := p.alphaSearch alpha
  (e, alphaLoss alpha (decodeEac8 e))

/-- CAND_EAC8, with the OPEN parameters as an argument (R271). -/
def candEac8 (p : Params) (s : State) : Answer :=
  withFormat s fun f =>
    if !isA8 f then raise s .badArgument
    else withOperand (readAlpha s.mem .blk) fun alpha =>
      let r := searchAlpha p alpha
      succeed (setMode (setAloss (setLoss (putCodeword s 0 r.1) r.2) r.2) .eac)

/-- The codeword and the loss of one channel's samples (R275). -/
def searchSamples (p : Params) (f : Format) (samples : List Nat) : DWord × Nat :=
  search11 p (formatSigned f) (sampleTargets p (formatSigned f) samples)

/-- CAND_EAC11, with the OPEN parameters as an argument (R274). -/
def candEac11 (p : Params) (ch : Bool) (s : State) : Answer :=
  withFormat s fun f =>
    if !isEac11 f || (ch && formatClass f != .rg11) then raise s .badArgument
    else withOperand (readSamples s.mem .blk ch.toNat) fun samples =>
      let r := searchSamples p f samples
      succeed (setMode (setLoss (putCodeword s (8 * ch.toNat) r.1) r.2) .eac)

/-! ## The mode search -/

/-- One colour candidate of the driver's lists (R279, R280). -/
inductive Candidate where
  | id (red flip tr : Bool)
  | planar
  | t (tr : Bool) (intens : BitVec 2)
  | h (tr : Bool) (intens : BitVec 2)
deriving DecidableEq, Repr

/-- The codeword the candidate's generator builds (R278). -/
def candidateWord (p : Params) (f : Format) (px : List SrcPixel) : Candidate → DWord
  | .id red flip tr => generateId p f px red flip tr
  | .planar => generatePlanar px
  | .t tr intens => generateT p f px tr intens
  | .h tr intens => generateH p f px tr intens

/-- The hidden scratch of one command (spec/10_state.md R45, log 11). `bestLoss = none` is the sentinel NONE,
greater than every loss (R46). -/
structure Scratch where
  best : DWord
  bestLoss : Option Nat
  bestMode : Mode
deriving DecidableEq, Repr

/-- The scratch at the start of a command (spec/10_state.md R45). -/
def scratchStart : Scratch := ⟨0, none, .none⟩

/-- `L` is smaller than the best loss so far, which NONE exceeds (R46, R278). -/
def beats (loss : Nat) : Option Nat → Bool
  | none => true
  | some best => decide (loss < best)

/-- `run(X, options)`: generate, decode with the oracle, score, keep if strictly better (R278). -/
def runCandidate (p : Params) (f : Format) (px : List SrcPixel) (sc : Scratch) (c : Candidate) : Scratch :=
  let w := candidateWord p f px c
  let loss := oracleLoss f px w
  if beats loss sc.bestLoss then ⟨w, some loss, colourMode w f⟩ else sc

/-- Run a list of candidates in order. -/
def runCandidates (p : Params) (f : Format) (px : List SrcPixel) (sc : Scratch) (l : List Candidate) : Scratch :=
  l.foldl (runCandidate p f px) sc

/-- The four Individual/Differential candidates (R279 #1 to #4, R280). -/
def idCandidates (tr : Bool) : List Candidate :=
  [.id false false tr, .id false true tr, .id true false tr, .id true true tr]

/-- Candidates #1 to #7 of the colour tree; ETC1 runs the first four only (R279). -/
def treeCandidates (f : Format) : List Candidate :=
  idCandidates false ++ (if f == .etc1 then [] else [.planar, .t false 0, .h false 0])

/-- The harder re-run: the winning mode of T and H at the other two intensities (R283). -/
def harderCandidates (f : Format) (m : Mode) : List Candidate :=
  match m with
  | .t => if f == .etc1 then [] else [.t false 1, .t false 2]
  | .h => if f == .etc1 then [] else [.h false 1, .h false 2]
  | .none => []
  | .individual => []
  | .differential => []
  | .planar => []
  | .eac => []

/-- `colourTree` (R279, R283). -/
def colourTree (p : Params) (f : Format) (px : List SrcPixel) : Scratch :=
  let sc := runCandidates p f px scratchStart (treeCandidates f)
  runCandidates p f px sc (harderCandidates f sc.bestMode)

/-- The candidates of one pass of the A1 tree (R280). -/
def punchPass (tr : Bool) : List Candidate := idCandidates tr ++ [.t tr 0, .h tr 0]

/-- `punchTree`: the opaque pass runs only if no pixel is transparent (R280). -/
def punchTree (p : Params) (f : Format) (px : List SrcPixel) : Scratch :=
  runCandidates p f px scratchStart
    (punchPass true ++ (if px.any SrcPixel.transparent then [] else punchPass false))

/-- The loss of a finished search; every tree runs a candidate, so it is never NONE (log 20). -/
def scratchLoss (sc : Scratch) : Nat := sc.bestLoss.getD 0

/-! ## ENCODE -/

/-- The colour result registers of ENCODE (R277, R284). -/
def setScratch (s : State) (o : Nat) (sc : Scratch) : State :=
  setMode (setLoss (putCodeword s o sc.best) (scratchLoss sc)) sc.bestMode

/-- ENCODE by class of the format (R277), with the OPEN parameters as an argument. -/
def encodeBlock (p : Params) (s : State) (f : Format) : Answer :=
  match formatClass f with
  | .rgb => withOperand (readSource s.mem f) fun px => succeed (setScratch s 0 (colourTree p f px))
  | .a1 => withOperand (readSource s.mem f) fun px => succeed (setScratch s 0 (punchTree p f px))
  | .a8 =>
    withOperand (readBoth (readAlpha s.mem .blk) (readSource s.mem f)) fun (alpha, px) =>
      let a := searchAlpha p alpha
      succeed (setAloss (setScratch (putCodeword s 0 a.1) 8 (colourTree p f px)) a.2)
  | .r11 =>
    withOperand (readSamples s.mem .blk 0) fun samples =>
      let r := searchSamples p f samples
      succeed (setMode (setLoss (putCodeword s 0 r.1) r.2) .eac)
  | .rg11 =>
    withOperand (readBoth (readSamples s.mem .blk 0) (readSamples s.mem .blk 1)) fun (s0, s1) =>
      let r0 := searchSamples p f s0
      let r1 := searchSamples p f s1
      succeed (setMode (setLoss (putCodeword (putCodeword s 0 r0.1) 8 r1.1) (r0.2 + r1.2)) .eac)

/-! ## The commands -/

/-- CAND_EAC8 (R271). -/
def execCandEac8 (s : State) : Answer := candEac8 params s

/-- CAND_EAC11 (R274). -/
def execCandEac11 (ch : Bool) (s : State) : Answer := candEac11 params ch s

/-- ENCODE (R277). -/
def execEncode (s : State) : Answer := withFormat s fun f => encodeBlock params s f

/-- DECODE (spec/41_decoder.md R161). -/
def execDecode (s : State) : Answer := withFormat s fun f => decodeBlock params s f

/-- SCORE (spec/42_metric.md R201). -/
def execScore (s : State) : Answer := withFormat s fun f => scoreBlock params s f

end Sys2Proof.Machine
end

