-- ==== Sys2Proof/Machine/Normalizer.lean ====
section
/-! DEFINITION. The pixel normaliser and its command EXTRACT (spec/40_normalizer.md). -/

namespace Sys2Proof.Machine

/-! ## Checks and coordinates -/

/-- `maxX`, the last in-range column (spec/10_state.md R36). -/
def sourceMaxX (s : State) : Int := signedReg s.srcX1 - 1

/-- `maxY`, the last in-range row (R36). -/
def sourceMaxY (s : State) : Int := signedReg s.srcY1 - 1

/-- The rectangle is empty (R142 check 4). -/
def sourceEmpty (s : State) : Bool :=
  decide (signedReg s.srcX1 ≤ signedReg s.srcX0) || decide (signedReg s.srcY1 ≤ signedReg s.srcY0)

/-- The block origin lies outside the rectangle (R142 check 5). -/
def originOutside (s : State) : Bool :=
  decide (signedReg s.blockX < signedReg s.srcX0) || decide (sourceMaxX s < signedReg s.blockX) ||
    decide (signedReg s.blockY < signedReg s.srcY0) || decide (sourceMaxY s < signedReg s.blockY)

/-- Checks 2 to 5 of R142; check 1, the format, is `withFormat`. Every failure is BadArgument. -/
def extractRefused (s : State) : Bool :=
  !srcConn s.srcCfg || decide (2 ≤ srcDepth s.srcCfg) || sourceEmpty s || originOutside s

/-- The coordinates of the read for raster pixel `k` (R143). -/
def readCoord (s : State) (k : Nat) : Int × Int :=
  (min (sourceMaxX s) (signedReg s.blockX + pixelX k), min (sourceMaxY s) (signedReg s.blockY + pixelY k))

/-- The 16 reads EXTRACT issues, in raster order, each with its raster index (spec/20_memory.md R67). -/
def extractReads (s : State) : List (Nat × Int × Int) := raster.map fun k => (k, readCoord s k)

/-! ## The source-pixel port -/

/-- The largest channel value of a depth (spec/20_memory.md R66). -/
def depthMax (depth : Nat) : Nat := if depth = 0 then 255 else 65535

/-- The free answer of the source where State lists none: a pixel in the range of its depth, or IOERR
(R66, log 4). -/
def freeAnswer (era depth : Nat) (x y : Int) : SrcAnswer :=
  let low (v : BitVec 16) : Nat := v.toNat % (depthMax depth + 1)
  match Config.portAnswer era x y with
  | none => .ioerr
  | some (r, g, b, a) => .pixel (low r) (low g) (low b) (low a)

/-- The answer to one read, and the answers that remain. -/
def nextAnswer (era depth : Nat) (x y : Int) : List SrcAnswer → SrcAnswer × List SrcAnswer
  | a :: rest => (a, rest)
  | [] => (freeAnswer era depth x y, [])

/-- The pixel is in the range of the declared depth (R66). -/
def inDepth (depth r g b a : Nat) : Bool :=
  decide (r ≤ depthMax depth) && decide (g ≤ depthMax depth) && decide (b ≤ depthMax depth) &&
    decide (a ≤ depthMax depth)

/-! ## Channel arithmetic -/

/-- Depth widening to 16 bits (R144). -/
def widen (depth v : Nat) : Nat := if depth = 0 then v * 0x101 else v

/-- Un-premultiply one channel (R145). -/
def unpremul (a c : Nat) : Nat := if 0 < a ∧ a < 0xFFFF then min 0xFFFF (c * 0xFFFF / a) else c

/-- A source pixel as 16-bit non-premultiplied channels (R144, R145). -/
def normalisePixel (depth : Nat) (premul : Bool) (r g b a : Nat) : Rgba :=
  let c : Rgb := ⟨widen depth r, widen depth g, widen depth b⟩
  let al := widen depth a
  ⟨if premul then c.map (unpremul al) else c, al⟩

/-- BT.709 luma of a 16-bit pixel, scaled and rounded (R147). -/
def luma (c : Rgb) : Nat := (212656 * c.r + 715158 * c.g + 72186 * c.b + 500000) / 1000000

/-! ## Reading the block -/

/-- How the 16 reads end. -/
inductive ReadResult where
  /-- All answered: the normalised pixels in raster order, and the answers that remain. -/
  | pixels (l : List Rgba) (rest : List SrcAnswer)
  /-- Read `i` answered IOERR (R150). -/
  | failed (i : Nat) (rest : List SrcAnswer)
  /-- An answer outside the declared depth (spec/20_memory.md R66). -/
  | outOfRange
deriving DecidableEq, Repr

/-- One more pixel in front of the ones that follow. -/
def consPixel (p : Rgba) : ReadResult → ReadResult
  | .pixels l rest => .pixels (p :: l) rest
  | .failed i rest => .failed i rest
  | .outOfRange => .outOfRange

/-- Issue reads in order; the first that fails ends them (R141, R150). -/
def readPixels (era depth : Nat) (premul : Bool) : List (Nat × Int × Int) → List SrcAnswer → ReadResult
  | [], port => .pixels [] port
  | (k, x, y) :: reads, port =>
    let ans := nextAnswer era depth x y port
    match ans.1 with
    | .ioerr => .failed k ans.2
    | .pixel r g b a =>
      if inDepth depth r g b a then
        consPixel (normalisePixel depth premul r g b a) (readPixels era depth premul reads ans.2)
      else .outOfRange

/-! ## Writing BLK -/

/-- The high byte of a 16-bit channel (R146). -/
def highByte (v : Nat) : Byte := BitVec.ofNat 8 (v >>> 8)

/-- The four bytes of a pixel of a colour format (R146). -/
def pixelBytes (p : Rgba) : List Byte := [highByte p.rgb.r, highByte p.rgb.g, highByte p.rgb.b, highByte p.a]

/-- The 64 bytes of BLK for the class of the format (R146 to R149). -/
def blockContents (f : Format) (px : List Rgba) : List Byte :=
  match formatClass f with
  | .rgb => px.flatMap pixelBytes
  | .a8 => px.flatMap pixelBytes
  | .a1 => px.flatMap pixelBytes
  | .r11 => (px.flatMap fun p => bytesBE16 (luma p.rgb)) ++ List.replicate 32 0
  | .rg11 => (px.flatMap fun p => bytesBE16 p.rgb.r) ++ px.flatMap fun p => bytesBE16 p.rgb.g

/-- The state after the reads of an EXTRACT: the answers used are gone (log 4). -/
def afterReads (s : State) (rest : List SrcAnswer) : State := { s with srcPort := rest, portEra := s.portEra + 1 }

/-- BLK becomes UNSPEC (R150, log 3). -/
def forgetBlock (s : State) : State :=
  { s with mem := memForget s.mem (windowBase .blk) (windowSize .blk), unspecEra := s.unspecEra + 1 }

/-- The end of EXTRACT: BLK written, or IO with BLK UNSPEC, or the refused input (R141, R150). -/
def finishExtract (s : State) (f : Format) : ReadResult → Answer
  | .pixels l rest => succeed (clearLvalid (writeWindow (afterReads s rest) .blk 0 (blockContents f l)))
  | .failed i rest => raise (forgetBlock (afterReads s rest)) (.io i)
  | .outOfRange => .refused .sourceAnswerOutOfRange

/-- EXTRACT (R141). -/
def execExtract (s : State) : Answer :=
  withFormat s fun f =>
    if extractRefused s then raise s .badArgument
    else finishExtract s f
      (readPixels s.portEra (srcDepth s.srcCfg) (srcPremul s.srcCfg) (extractReads s) s.srcPort)

end Sys2Proof.Machine
end

