-- ==== Sys2Proof/Machine/Dispatch.lean ====
section
/-! DEFINITION. One arm for each command. -/

namespace Sys2Proof.Machine

def exec (i : Instr) (s : State) : Host.Outcome State Fault Refusal :=
  match i with
  | .nop => Sys2Proof.Machine.execNop s
  | .sreset => Sys2Proof.Machine.execSreset s
  | .cfg => Sys2Proof.Machine.execCfg s
  | .extract => Sys2Proof.Machine.execExtract s
  | .encode => Sys2Proof.Machine.execEncode s
  | .decode => Sys2Proof.Machine.execDecode s
  | .score => Sys2Proof.Machine.execScore s
  | .hdrEmit => Sys2Proof.Machine.execHdrEmit s
  | .hdrParse => Sys2Proof.Machine.execHdrParse s
  | .candId red flip transp => Sys2Proof.Machine.execCandId red flip transp s
  | .candEtc1s => Sys2Proof.Machine.execCandEtc1s s
  | .candPlanar => Sys2Proof.Machine.execCandPlanar s
  | .candT transp intens => Sys2Proof.Machine.execCandT transp intens s
  | .candH transp intens => Sys2Proof.Machine.execCandH transp intens s
  | .candEac8 => Sys2Proof.Machine.execCandEac8 s
  | .candEac11 ch => Sys2Proof.Machine.execCandEac11 ch s

end Sys2Proof.Machine
end

