-- ==== Sys2Proof/Machine/Flags.lean ====
section
/-! DEFINITION. STATUS, the only flags of the core (spec/10_state.md R29, R49): the codes of its fields and
the word a read returns. -/

namespace Sys2Proof.Machine

/-- The STATUS.ERR code (spec/60_exceptions.md R321). -/
def errCode : ErrKind → BitVec 4
  | .none => 0
  | .badArgument => 1
  | .imageTooLarge => 2
  | .notAContainer => 3
  | .io => 4
  | .badCommand => 5

/-- The STATUS.MODE code (spec/10_state.md R29). -/
def modeCode : Mode → BitVec 3
  | .none => 0
  | .individual => 1
  | .differential => 2
  | .t => 3
  | .h => 4
  | .planar => 5
  | .eac => 6

/-- The STATUS word: MODE 10:8, ERR 7:4, LVALID 3, ACCERR 2, DONE 1, BUSY 0, the rest 0 (R29). -/
def statusWord (s : State) : Word :=
  (0 : BitVec 21) ++ modeCode s.mode ++ errCode s.err ++ BitVec.ofBool s.lvalid ++
    BitVec.ofBool s.accErr ++ BitVec.ofBool s.done ++ BitVec.ofBool (isBusy s)

/-- An access error: ACCERR is set, and nothing else changes (spec/60_exceptions.md R328). -/
def accessError (s : State) : State := { s with accErr := true }

/-- A write to STATUS: bit 2 clears ACCERR, every other bit is ignored (R29). -/
def writeStatus (s : State) (v : Word) : State :=
  if v.getLsbD 2 then { s with accErr := false } else s

end Sys2Proof.Machine
end

