-- ==== Sys2Proof/Machine/HostPort.lean ====
section
/-! DEFINITION. The host: register and window accesses through the aperture (spec/10_state.md R25 to R43,
spec/20_memory.md R61 to R72, spec/60_exceptions.md R328), its program, and the assembler's
pseudo-instructions (spec/30_encoding.md R118, R119). -/

namespace Sys2Proof.Machine

/-! ## The register map -/

/-- The 32-bit registers of spec/10_state.md R25. -/
inductive Reg where
  | id
  | cmd
  | status
  | format
  | imgW
  | imgH
  | padW
  | padH
  | bx
  | by'
  | srcCfg
  | srcX0
  | srcY0
  | srcX1
  | srcY1
  | lossLo
  | lossHi
  | alossLo
  | alossHi
deriving DecidableEq, Repr

/-- The register at an aperture offset (R25); every offset that is neither here nor in a window is reserved
(R43). -/
def regAt (off : Nat) : Option Reg :=
  match off with
  | 0x000 => some .id
  | 0x004 => some .cmd
  | 0x008 => some .status
  | 0x00C => some .format
  | 0x010 => some .imgW
  | 0x014 => some .imgH
  | 0x018 => some .padW
  | 0x01C => some .padH
  | 0x020 => some .bx
  | 0x024 => some .by'
  | 0x028 => some .srcCfg
  | 0x02C => some .srcX0
  | 0x030 => some .srcY0
  | 0x034 => some .srcX1
  | 0x038 => some .srcY1
  | 0x040 => some .lossLo
  | 0x044 => some .lossHi
  | 0x048 => some .alossLo
  | 0x04C => some .alossHi
  | _ => none

/-- What a legal access reaches. -/
inductive Target where
  /-- A 32-bit register, by a 4-byte access. -/
  | reg (r : Reg)
  /-- One byte of a window. -/
  | byte (win : Window)
  /-- Four bytes of a window, at an aligned offset. -/
  | quad (win : Window)
deriving DecidableEq, Repr

/-- The target of an access, or none for an access error: a width of 2 or 8, a misaligned 4-byte access, a
1-byte access outside the windows, or a reserved offset (spec/20_memory.md R69; spec/10_state.md R43). -/
def accessTarget (width : Width) (off : Nat) : Option Target :=
  match width with
  | .w1 => (windowAt off).map .byte
  | .w2 => none
  | .w4 =>
    if off % 4 = 0 then
      match windowAt off with
      | some win => some (.quad win)
      | none => (regAt off).map .reg
    else none
  | .w8 => none

/-! ## Reads -/

/-- The value of a register read; CMD reads 0 (R25 to R38). -/
def readReg (s : State) : Reg → Word
  | .id => 0x45544332
  | .cmd => 0
  | .status => statusWord s
  | .format => s.format.setWidth 32
  | .imgW => s.imgW
  | .imgH => s.imgH
  | .padW => s.padW
  | .padH => s.padH
  | .bx => s.blockX
  | .by' => s.blockY
  | .srcCfg => s.srcCfg.setWidth 32
  | .srcX0 => s.srcX0
  | .srcY0 => s.srcY0
  | .srcX1 => s.srcX1
  | .srcY1 => s.srcY1
  | .lossLo => s.loss.extractLsb' 0 32
  | .lossHi => s.loss.extractLsb' 32 32
  | .alossLo => s.aloss.extractLsb' 0 32
  | .alossHi => s.aloss.extractLsb' 32 32

/-- A window byte as the host reads it; an UNSPEC byte gives a free value
(spec/93_implementation_defined.md 1.1, log 2). -/
def hostByte (s : State) (a : Nat) : Byte := (memRead s.mem a).getD (Config.unspecByte s.unspecEra a)

/-- The value a legal read returns; four window bytes are big-endian (spec/20_memory.md R64). -/
def readTarget (s : State) (off : Nat) : Target → Word
  | .reg r => readReg s r
  | .byte _ => (hostByte s off).setWidth 32
  | .quad _ => hostByte s off ++ hostByte s (off + 1) ++ hostByte s (off + 2) ++ hostByte s (off + 3)

/-- `RegRead`: the value returned and the state after. A legal read changes nothing; an access error returns 0
and sets ACCERR (spec/20_memory.md R72). -/
def regRead (s : State) (width : Width) (off : Nat) : Word × State :=
  match accessTarget width off with
  | some tg => (readTarget s off tg, s)
  | none => (0, accessError s)

/-! ## Writes -/

/-- A 4-byte write to a register while the sequencer is idle. RO registers refuse it; CMD accepts a command
(R26 to R38). STATUS is `writeStatus`, in every sequencer state. -/
def writeReg (s : State) (v : Word) : Reg → State
  | .id => accessError s
  | .cmd => acceptCommand s v
  | .status => writeStatus s v
  | .format => { s with format := v.setWidth 8 }
  | .imgW => { s with imgW := v }
  | .imgH => { s with imgH := v }
  | .padW => accessError s
  | .padH => accessError s
  | .bx => { s with blockX := v }
  | .by' => { s with blockY := v }
  | .srcCfg => { s with srcCfg := v.setWidth 4 }
  | .srcX0 => { s with srcX0 := v }
  | .srcY0 => { s with srcY0 := v }
  | .srcX1 => { s with srcX1 := v }
  | .srcY1 => { s with srcY1 := v }
  | .lossLo => accessError s
  | .lossHi => accessError s
  | .alossLo => accessError s
  | .alossHi => accessError s

/-- The bytes of a 4-byte write, the byte at the lowest offset from bits 31:24 (spec/20_memory.md R64). -/
def quadBytes (v : Word) : List Byte := [v.extractLsb' 24 8, v.extractLsb' 16 8, v.extractLsb' 8 8, v.extractLsb' 0 8]

/-- A write to window bytes; DEC is read-only to the host (spec/10_state.md R42). -/
def writeBytesTo (s : State) (win : Window) (off : Nat) (l : List Byte) : State :=
  if win = .dec then accessError s else { s with mem := memWriteList s.mem off l }

/-- A legal write with the sequencer idle. -/
def writeTarget (s : State) (off : Nat) (v : Word) : Target → State
  | .reg r => writeReg s v r
  | .byte win => writeBytesTo s win off [v.setWidth 8]
  | .quad win => writeBytesTo s win off (quadBytes v)

/-- `RegWrite`: while BUSY every write but one to STATUS is dropped as an access error
(spec/70_reset_and_hazards.md R356). -/
def regWrite (s : State) (width : Width) (off : Nat) (v : Word) : State :=
  match accessTarget width off with
  | none => accessError s
  | some tg => if isBusy s && tg != .reg .status then accessError s else writeTarget s off v tg

/-! ## The host's program -/

/-- The value bound to a name; a name never read into holds 0 (log 7). -/
def hostVar : List (Nat × Word) → Nat → Word
  | [], _ => 0
  | (n, v) :: rest, name => if name = n then v else hostVar rest name

/-- Bind a name, replacing an earlier value. -/
def setHostVar : List (Nat × Word) → Nat → Word → List (Nat × Word)
  | [], name, v => [(name, v)]
  | (n, u) :: rest, name, v => if name = n then (name, v) :: rest else (n, u) :: setHostVar rest name v

/-- Move the host to another instruction of its program. -/
def hostJump (s : State) (pc : Nat) : State := { s with hostPc := pc }

/-- One host instruction (spec/30_encoding.md R118). -/
def hostInstr (s : State) : HostInstr → State
  | .write width off v => hostJump (regWrite s width off.toNat v) (s.hostPc + 1)
  | .read width off name =>
    let r := regRead s width off.toNat
    hostJump { r.2 with hostVars := setHostVar s.hostVars name r.1 } (s.hostPc + 1)
  | .bnz name mask target => hostJump s (if hostVar s.hostVars name &&& mask = 0 then s.hostPc + 1 else target)

/-- The host's turn: its next instruction, if it has one left (spec/10_state.md R21). -/
def hostTurn (s : State) : Answer :=
  match s.hostProg[s.hostPc]? with
  | some i => .next (hostInstr s i)
  | none => .next s

/-! ## Assembler notation (spec/30_encoding.md R118, R119) -/

/-- `WR32 off, v`. -/
def wr32 (off : BitVec 9) (v : Word) : HostInstr := .write .w4 off v

/-- `WR8 off, v`. -/
def wr8 (off : BitVec 9) (v : Word) : HostInstr := .write .w1 off v

/-- `RD32 off -> name`. -/
def rd32 (off : BitVec 9) (name : Nat) : HostInstr := .read .w4 off name

/-- `RD8 off -> name`. -/
def rd8 (off : BitVec 9) (name : Nat) : HostInstr := .read .w1 off name

/-- `CMD op.opts`: write the command's word to CMD. -/
def cmdInstr (i : Instr) : HostInstr := wr32 0x004 (encode i)

/-- `WAIT`, placed at position `pos` of the program: poll STATUS into `name` until BUSY = 0. -/
def waitInstrs (pos name : Nat) : List HostInstr := [rd32 0x008 name, .bnz name 1 pos]

/-- `b0 ++ b1 ++ b2 ++ b3`, the word of a 4-byte access (spec/20_memory.md R64). -/
def quadWord (l : List Byte) : Word := l.getD 0 0 ++ l.getD 1 0 ++ l.getD 2 0 ++ l.getD 3 0

/-- Writes of the bytes `l`, four at a time, from offset `off`. -/
def writeInstrs (off : Nat) (l : List Byte) : List HostInstr :=
  (List.range (l.length / 4)).map fun k => wr32 (BitVec.ofNat 9 (off + 4 * k)) (quadWord (l.drop (4 * k)))

/-- `WRBLK b0 .. b63`. -/
def wrblkInstrs (l : List Byte) : List HostInstr := writeInstrs (windowBase .blk) l

/-- `WRCW b0 .. b(n-1)`; its words are those of `WRBLK`, which R119 spells out (DEDUCED, log 28). -/
def wrcwInstrs (l : List Byte) : List HostInstr := writeInstrs (windowBase .cw) l

/-- `RDCW n -> c`: the reads of the first `n` bytes of CW. R119 does not say how the one name `c` holds the values of
`n / 4` reads; they go into consecutive names, from `name` on (DESIGN CHOICE, log 27). -/
def rdcwInstrs (n name : Nat) : List HostInstr :=
  (List.range (n / 4)).map fun k => rd32 (BitVec.ofNat 9 (windowBase .cw + 4 * k)) (name + k)

/-- The number of blocks of a configured image (spec/45_control_container.md R303). -/
def imageBlocks (s : State) : Nat := s.padW.toNat / 4 * (s.padH.toNat / 4)

/-- The length of the image's block stream in bytes (R303; spec/30_encoding.md R97). -/
def streamLength (s : State) (f : Format) : Nat := imageBlocks s * blockBytes f

end Sys2Proof.Machine
end

