-- ==== Sys2Proof/Machine/Sequencer.lean ====
section
/-! DEFINITION. The turns of the agents: the command sequencer's step, the choice of the next agent, and how
a command word is placed for it (spec/10_state.md R22, spec/20_memory.md R75). -/

namespace Sys2Proof.Machine

/-- The sequencer's fetch: the command word it holds, decoded (R22; spec/30_encoding.md R120). -/
def fetchCommand (s : State) : Option (Except Reject Instr) :=
  match s.seq with
  | .idle => none
  | .busy w => some (decode w)

/-- The core's turn. BUSY: one atomic step executes the command to completion (R22); an illegal word is
BAD_COMMAND before anything else (spec/60_exceptions.md R327). IDLE keeps all state (R338). -/
def coreTurn (s : State) : Answer :=
  match fetchCommand s with
  | none => .next s
  | some (.ok i) => exec i s
  | some (.error _) => raise s .badCommand

/-- The agent whose turn it is where no turn is listed: the core while it is BUSY, so that every accepted
command completes, else the host (spec/70_reset_and_hazards.md R354, log 6). -/
def defaultTurn (s : State) : Answer := if isBusy s then coreTurn s else hostTurn s

/-- One turn. -/
def takeTurn (s : State) : Turn → Answer
  | .host => hostTurn s
  | .core => coreTurn s
  | .reset => .next (hardwareReset s)

/-- The next turn of the list, or the default one. -/
def nextTurn (s : State) : Answer :=
  match s.turns with
  | [] => defaultTurn s
  | t :: ts => takeTurn { s with turns := ts } t

/-- A command word accepted and the turn given to the core: what it takes for the next step to run exactly
that word (log 8). -/
def placeCommand (s : State) (w : Word) : State := { acceptCommand s w with turns := [] }

end Sys2Proof.Machine
end

