-- ==== Sys2Proof/Safety.lean ====
section
/-! DEFINITION. What the statements about the machine speak of: safe runs, the invariants of the state, the
opcode table of spec/30_encoding.md R93 as data, the bytes each command reads, and the shapes of a state
after a command. Nothing here is used by the machine. -/

namespace Sys2Proof.Machine

/-! ## Safe runs -/

/-- The machine answers a next state, with neither a fault nor a refusal. -/
def Answers (a : Answer) : Prop := ∃ t, a = .next t

/-- `n` steps from `s` end in a next state: none of them stops. -/
def SafeRun (n : Nat) (s : State) : Prop := ∃ t, Host.Core.run Sys2Proof.core n s = .next t

/-! ## Invariants -/

/-- A padded dimension: a multiple of 4 that is at most 65532 (spec/10_state.md R33,
spec/45_control_container.md R304). -/
def paddedLegal (v : Word) : Prop := v.toNat % 4 = 0 ∧ v.toNat ≤ 65532

/-- The invariant of the handshake and of the memory's form. Log 7 and log 1 name the model's own parts:
`memWf` is the canonical form of the byte windows. -/
structure Inv (s : State) : Prop where
  /-- The memory lists window bytes only, by strictly rising offset. -/
  memory : memWf s.mem = true
  /-- An accepted command has cleared DONE and ERR (spec/10_state.md R28). -/
  busy : isBusy s = true → s.done = false ∧ s.err = .none
  /-- ERR tells of a completed command (spec/10_state.md R29). -/
  pending : s.done = false → s.err = .none
  /-- An error completion has cleared LVALID (spec/60_exceptions.md R325). -/
  failed : s.err ≠ .none → s.lvalid = false
  /-- PAD_W and PAD_H are 0 or what CFG or HDR_PARSE computed. -/
  padW : paddedLegal s.padW
  padH : paddedLegal s.padH

/-- The loss registers stay within the bounds of spec/42_metric.md R208: two 11-bit channels, and one block
of 8-bit alpha. -/
structure LossInv (s : State) : Prop where
  loss : s.loss.toNat ≤ 137434759200
  aloss : s.aloss.toNat ≤ 1040400

/-! ## The opcode table -/

/-- A row of the opcode map (spec/30_encoding.md R93): the word's fixed bits, their value, and whether the
row uses INTENS. -/
structure OpcodeRow where
  mnemonic : String
  mask : Word
  value : Word
  usesIntens : Bool
deriving DecidableEq, Repr

/-- The sixteen rows, in order (R92, R93). -/
def opcodeRows : List OpcodeRow :=
  [⟨"NOP", 0xFFFFFFFF, 0x00000000, false⟩, ⟨"SRESET", 0xFFFFFFFF, 0x00000001, false⟩,
   ⟨"CFG", 0xFFFFFFFF, 0x00000002, false⟩, ⟨"EXTRACT", 0xFFFFFFFF, 0x00000003, false⟩,
   ⟨"ENCODE", 0xFFFFFFFF, 0x00000004, false⟩, ⟨"DECODE", 0xFFFFFFFF, 0x00000005, false⟩,
   ⟨"SCORE", 0xFFFFFFFF, 0x00000006, false⟩, ⟨"HDR_EMIT", 0xFFFFFFFF, 0x00000007, false⟩,
   ⟨"HDR_PARSE", 0xFFFFFFFF, 0x00000008, false⟩, ⟨"CAND_ID", 0xFFFFF8FF, 0x00000010, false⟩,
   ⟨"CAND_ETC1S", 0xFFFFFFFF, 0x00000011, false⟩, ⟨"CAND_PLANAR", 0xFFFFFFFF, 0x00000012, false⟩,
   ⟨"CAND_T", 0xFFFFE3FF, 0x00000013, true⟩, ⟨"CAND_H", 0xFFFFE3FF, 0x00000014, true⟩,
   ⟨"CAND_EAC8", 0xFFFFFFFF, 0x00000015, false⟩, ⟨"CAND_EAC11", 0xFFFFDFFF, 0x00000016, false⟩]

/-- A word is legal in a row: its fixed bits match, and INTENS, where the row uses it, is not 3 (R93, R120). -/
def legalIn (w : Word) (r : OpcodeRow) : Bool :=
  w &&& r.mask == r.value && !(r.usesIntens && w.extractLsb' 11 2 == 3)

/-- A command word is legal when it is legal in some row (R93, R120). -/
def legalWord (w : Word) : Bool := opcodeRows.any (legalIn w)

/-- The row of an instruction. -/
def rowOf : Instr → Nat
  | .nop => 0
  | .sreset => 1
  | .cfg => 2
  | .extract => 3
  | .encode => 4
  | .decode => 5
  | .score => 6
  | .hdrEmit => 7
  | .hdrParse => 8
  | .candId _ _ _ => 9
  | .candEtc1s => 10
  | .candPlanar => 11
  | .candT _ _ => 12
  | .candH _ _ => 13
  | .candEac8 => 14
  | .candEac11 _ => 15

/-! ## What a command needs -/

/-- The formats in which a command runs to its own effect (spec/60_exceptions.md R322). -/
def allowedFormat : Instr → Format → Bool
  | .nop, _ => true
  | .sreset, _ => true
  | .cfg, _ => true
  | .extract, _ => true
  | .encode, _ => true
  | .decode, _ => true
  | .score, _ => true
  | .hdrEmit, _ => true
  | .hdrParse, _ => true
  | .candId _ _ transp, f => isColour f && (!transp || isA1 f)
  | .candEtc1s, f => isColour f
  | .candPlanar, f => isEtc2Colour f
  | .candT transp _, f => isEtc2Colour f && (!transp || isA1 f)
  | .candH transp _, f => isEtc2Colour f && (!transp || isA1 f)
  | .candEac8, f => isA8 f
  | .candEac11 ch, f => isEac11 f && (!ch || formatClass f == .rg11)

/-- The offset of byte `c` of pixel `k` of a window, `16·y + 4·x + c` (spec/30_encoding.md R114). -/
def pixelByte (win : Window) (k c : Nat) : Nat := windowBase win + 16 * (k / 4) + 4 * (k % 4) + c

/-- The offset of the high byte of sample `k` of channel `ch`, `0x20·ch + 8·y + 2·x` (R115). -/
def sampleByte (win : Window) (ch k : Nat) : Nat := windowBase win + 32 * ch + 8 * (k / 4) + 2 * (k % 4)

/-- The bytes of the colours of a window. -/
def rgbOffsets (win : Window) : List Nat := (List.range 16).flatMap fun k => [0, 1, 2].map (pixelByte win k)

/-- The bytes of the alpha values of a window. -/
def alphaOffsets (win : Window) : List Nat := (List.range 16).map fun k => pixelByte win k 3

/-- The bytes of the samples of one channel of a window. -/
def sampleOffsets (win : Window) (ch : Nat) : List Nat :=
  (List.range 16).flatMap fun k => [sampleByte win ch k, sampleByte win ch k + 1]

/-- The bytes of the window `n` bytes from its start. -/
def leadingOffsets (win : Window) (n : Nat) : List Nat := (List.range n).map (windowBase win + ·)

/-- The bytes of BLK that the colour generators and the colour metric read: alpha only in A1 formats
(spec/42_metric.md R204, spec/40_normalizer.md R146; log 12). -/
def sourceOffsets (f : Format) : List Nat :=
  if isA1 f then rgbOffsets .blk ++ alphaOffsets .blk else rgbOffsets .blk

/-- The bytes of BLK that ENCODE reads, by class. -/
def encodeOffsets (f : Format) : List Nat :=
  match formatClass f with
  | .rgb => sourceOffsets f
  | .a1 => sourceOffsets f
  | .a8 => alphaOffsets .blk ++ sourceOffsets f
  | .r11 => sampleOffsets .blk 0
  | .rg11 => sampleOffsets .blk 0 ++ sampleOffsets .blk 1

/-- The bytes of BLK and DEC that SCORE reads, by class. -/
def scoreOffsets (f : Format) : List Nat :=
  match formatClass f with
  | .rgb => sourceOffsets f ++ rgbOffsets .dec
  | .a1 => sourceOffsets f ++ rgbOffsets .dec
  | .a8 => sourceOffsets f ++ rgbOffsets .dec ++ alphaOffsets .blk ++ alphaOffsets .dec
  | .r11 => sampleOffsets .blk 0 ++ sampleOffsets .dec 0
  | .rg11 => sampleOffsets .blk 0 ++ sampleOffsets .dec 0 ++ (sampleOffsets .blk 1 ++ sampleOffsets .dec 1)

/-- The window bytes a command reads in a format, by aperture offset (spec/70_reset_and_hazards.md R353,
log 12). -/
def operandOffsets : Instr → Format → List Nat
  | .nop, _ => []
  | .sreset, _ => []
  | .cfg, _ => []
  | .extract, _ => []
  | .encode, f => encodeOffsets f
  | .decode, f => leadingOffsets .cw (blockBytes f)
  | .score, f => scoreOffsets f
  | .hdrEmit, _ => []
  | .hdrParse, _ => leadingOffsets .hdr 16
  | .candId _ _ _, f => sourceOffsets f
  | .candEtc1s, f => sourceOffsets f
  | .candPlanar, f => sourceOffsets f
  | .candT _ _, f => sourceOffsets f
  | .candH _ _, f => sourceOffsets f
  | .candEac8, _ => alphaOffsets .blk
  | .candEac11 ch, _ => sampleOffsets .blk ch.toNat

/-- A byte holds a value (spec/10_state.md R47). -/
def Defined (m : List Host.Cell) (a : Nat) : Prop := (memRead m a).isSome = true

/-- Every byte the command reads in this format holds a value. -/
def OperandsDefined (i : Instr) (f : Format) (m : List Host.Cell) : Prop := ∀ a ∈ operandOffsets i f, Defined m a

/-! ## States after a command -/

/-- `s` after a normal completion that changes nothing else (spec/60_exceptions.md R325). -/
def ended (s : State) : State := { s with err := .none, done := true, seq := .idle }

/-- `s` after an error completion that changes nothing else (R325). -/
def failedWith (s : State) (e : ErrKind) : State := { s with err := e, lvalid := false, done := true, seq := .idle }

/-- Byte `i` of a codeword in stream order, bits 63:56 first (spec/20_memory.md R63). -/
def codewordByte (w : DWord) (i : Nat) : Byte := w.extractLsb' (56 - 8 * i) 8

/-- CW holds the codeword `w` from its byte `o` on (R63). -/
def HoldsCodeword (m : List Host.Cell) (o : Nat) (w : DWord) : Prop :=
  ∀ i < 8, memRead m (windowBase .cw + o + i) = some (codewordByte w i)

/-- Outside the `n` bytes from aperture offset `a` the two memories read the same. -/
def SameOutside (m m' : List Host.Cell) (a n : Nat) : Prop :=
  ∀ b, ¬(a ≤ b ∧ b < a + n) → memRead m' b = memRead m b

/-! ## The driver's lists as commands -/

/-- The codeword a colour generator command builds (spec/43_color_candidates.md R217, R226, R227, R232, R250);
0 for a command that is no colour generator. -/
def generatorWord (f : Format) (px : List SrcPixel) : Instr → DWord
  | .candId red flip transp => generateId params f px red flip transp
  | .candEtc1s => generateEtc1s params px
  | .candPlanar => generatePlanar px
  | .candT transp intens => generateT params f px transp intens
  | .candH transp intens => generateH params f px transp intens
  | .nop => 0
  | .sreset => 0
  | .cfg => 0
  | .extract => 0
  | .encode => 0
  | .decode => 0
  | .score => 0
  | .hdrEmit => 0
  | .hdrParse => 0
  | .candEac8 => 0
  | .candEac11 _ => 0

/-- A colour generator command (spec/43_color_candidates.md R216). -/
def isColourGenerator : Instr → Bool
  | .candId _ _ _ => true
  | .candEtc1s => true
  | .candPlanar => true
  | .candT _ _ => true
  | .candH _ _ => true
  | .nop => false
  | .sreset => false
  | .cfg => false
  | .extract => false
  | .encode => false
  | .decode => false
  | .score => false
  | .hdrEmit => false
  | .hdrParse => false
  | .candEac8 => false
  | .candEac11 _ => false

/-- The command that runs one candidate of the driver's lists (spec/44_alpha_eac_driver.md R279, R280). -/
def candidateCommand : Candidate → Instr
  | .id red flip tr => .candId red flip tr
  | .planar => .candPlanar
  | .t tr intens => .candT tr intens
  | .h tr intens => .candH tr intens

/-- The commands ENCODE always tries in a colour format, in order: #1 to #7 of R279 for classes RGB and A8
(#1 to #4 in ETC1), the passes of R280 for class A1. -/
def triedCommands (f : Format) (px : List SrcPixel) : List Instr :=
  if isA1 f then
    [.candId false false true, .candId false true true, .candId true false true, .candId true true true,
     .candT true 0, .candH true 0] ++
    (if px.any SrcPixel.transparent then [] else
      [.candId false false false, .candId false true false, .candId true false false, .candId true true false,
       .candT false 0, .candH false 0])
  else
    [.candId false false false, .candId false true false, .candId true false false, .candId true true false] ++
    (if f = .etc1 then [] else [.candPlanar, .candT false 0, .candH false 0])

end Sys2Proof.Machine
end

