-- ==== Sys2Proof/Certificates/Slice0/Obligations.lean ====
section
/-! DEFINITION. The statements for the provers, in the order of OBLIGATIONS.json. -/

open Sys2Proof Sys2Proof.Machine

/-! ## Reset -/

/-- What hardware reset leaves (spec/70_reset_and_hazards.md R351, R352): every register reads its reset
value, every window byte is UNSPEC, and a reset turn brings the core there from any state, a command in
flight included. That the host, the source's answers and the turns stay is the model's choice (log 13). -/
def Obligations.ResetStateAndTurn : Prop :=
  State.reset.seq = .idle ∧
  (regRead State.reset .w4 0x000).1 = 0x45544332 ∧
  (∀ off ∈ [0x004, 0x008, 0x00C, 0x010, 0x014, 0x018, 0x01C, 0x020, 0x024, 0x02C, 0x030, 0x034, 0x038,
      0x040, 0x044, 0x048, 0x04C], (regRead State.reset .w4 off).1 = 0) ∧
  (regRead State.reset .w4 0x028).1 = 2 ∧
  (∀ a, memRead State.reset.mem a = none) ∧
  ∀ (s : State) (ts : List Turn), s.turns = .reset :: ts →
    step s = .next
      { State.reset with
        hostProg := s.hostProg, hostPc := s.hostPc, hostVars := s.hostVars, turns := ts,
        srcPort := s.srcPort, unspecEra := s.unspecEra + 1, portEra := s.portEra }

/-! ## Command words -/

/-- A few words written out from spec/30_encoding.md R92 and R93 decode as the table says. -/
def Obligations.OpcodeTableWords : Prop :=
  decode 0x00000000 = .ok .nop ∧
  decode 0x00000310 = .ok (.candId true true false) ∧
  decode 0x00000413 = .ok (.candT true 0) ∧
  decode 0x00001014 = .ok (.candH false 2) ∧
  decode 0x00000015 = .ok .candEac8 ∧
  decode 0x00002016 = .ok (.candEac11 true) ∧
  decode 0x00001813 = .error .reservedIntensity ∧
  decode 0x00000009 = .error .unassignedOpcode ∧
  decode 0x00004000 = .error .reservedBits ∧
  decode 0x00000100 = .error .unusedField

/-- Decode and encode agree in both directions, over all words and all instructions: a word decodes to `i`
exactly when `i` is well-formed and the word is its encoding (spec/30_encoding.md R92, R93, R120). -/
def Obligations.DecodeExactlyEncode : Prop :=
  ∀ (w : Word) (i : Instr), decode w = .ok i ↔ WellFormed i = true ∧ encode i = w

/-- The decoder follows the opcode map of R93 and the field positions of R92 (spec/30_encoding.md): a word
decodes exactly when a row of the table admits it, to that row's instruction, with the fields at their
bits. -/
def Obligations.DecodeFollowsOpcodeTable : Prop :=
  ∀ w : Word,
    ((∃ i, decode w = .ok i) ↔ legalWord w = true) ∧
    (∀ i, decode w = .ok i → ∃ r, opcodeRows[rowOf i]? = some r ∧ legalIn w r = true) ∧
    (∀ red flip transp, decode w = .ok (.candId red flip transp) →
      red = w.getLsbD 8 ∧ flip = w.getLsbD 9 ∧ transp = w.getLsbD 10) ∧
    (∀ transp intens, decode w = .ok (.candT transp intens) ∨ decode w = .ok (.candH transp intens) →
      transp = w.getLsbD 10 ∧ intens = w.extractLsb' 11 2) ∧
    (∀ ch, decode w = .ok (.candEac11 ch) → ch = w.getLsbD 13)

/-- An illegal command word ends with BAD_COMMAND and has no other effect (spec/60_exceptions.md R327): no
row of the opcode table admits it. That the core's turn comes where no turn is listed is the model's choice (log 6). -/
def Obligations.IllegalWordIsBadCommand : Prop :=
  ∀ (s : State) (w : Word), s.seq = .busy w → legalWord w = false →
    (s.turns = [] → step s = .next (failedWith s .badCommand)) ∧
    ∀ ts, s.turns = .core :: ts → step s = .next (failedWith { s with turns := ts } .badCommand)

/-- A step runs the decoded command (spec/10_state.md R22): a busy sequencer whose word decodes to `i`, in its
turn, answers what `exec i` answers; no pc and no word is moved past. That the core's turn comes where no turn is listed,
and that `withFetchWord` places a word so, are the model's choices (log 6, log 8). -/
def Obligations.StepRunsDecodedCommand : Prop :=
  (∀ (s : State) (w : Word) (i : Instr), s.seq = .busy w → decode w = .ok i →
    (s.turns = [] → step s = exec i s) ∧
    ∀ ts, s.turns = .core :: ts → step s = exec i { s with turns := ts }) ∧
  ∀ (s : State) (nbits w : Nat) (i : Instr), decodeTableWord nbits w = some i →
    step (s.withFetchWord nbits w) = exec i (s.withFetchWord nbits w)

/-! ## The host port -/

/-- CMD (spec/10_state.md R28): in IDLE a 32-bit write accepts the word, which clears ERR and DONE and sets
BUSY; while BUSY it is dropped with ACCERR; a byte write and a byte read are access errors; a 4-byte read gives 0. -/
def Obligations.CommandAcceptance : Prop :=
  ∀ (s : State) (v : Word),
    (s.seq = .idle → regWrite s .w4 0x004 v = { s with err := .none, done := false, seq := .busy v } ∧
      ((regRead (regWrite s .w4 0x004 v) .w4 0x008).1).getLsbD 0 = true) ∧
    (∀ c, s.seq = .busy c → regWrite s .w4 0x004 v = { s with accErr := true }) ∧
    regWrite s .w1 0x004 v = { s with accErr := true } ∧
    regRead s .w1 0x004 = (0, { s with accErr := true }) ∧
    regRead s .w4 0x004 = (0, s)

/-- Writes while BUSY (spec/70_reset_and_hazards.md R356): every write but one to STATUS is dropped and sets
ACCERR, and no host instruction whatever changes anything of the core but ACCERR, so a command computes from its inputs
as they stood at acceptance. In every state of the sequencer a 4-byte write to STATUS clears ACCERR where its bit 2 is 1,
changes nothing where it is 0, and sets no ACCERR (the rule of spec/10_state.md R29 for a write). -/
def Obligations.WritesDroppedWhileBusy : Prop :=
  (∀ (s : State) (v : Word),
    (v.getLsbD 2 = true → regWrite s .w4 0x008 v = { s with accErr := false }) ∧
    (v.getLsbD 2 = false → regWrite s .w4 0x008 v = s)) ∧
  ∀ (s : State) (c : Word), s.seq = .busy c →
    (∀ (width : Width) (off : Nat) (v : Word), off ≠ 0x008 → regWrite s width off v = { s with accErr := true }) ∧
    ∀ h : HostInstr, ∃ accErr hostPc hostVars,
      hostInstr s h = { s with accErr := accErr, hostPc := hostPc, hostVars := hostVars }

/-- Access errors (spec/10_state.md R43, spec/20_memory.md R69): widths of 2 and 8, misaligned 4-byte accesses,
1-byte accesses outside the windows, and every access to a reserved offset write nothing, read 0 and set
ACCERR. A legal read changes nothing, and every read repeats its value (R72). -/
def Obligations.AccessErrorRules : Prop :=
  ∀ (s : State) (width : Width) (off : Nat) (v : Word),
    (width = .w2 ∨ width = .w8 ∨ (width = .w4 ∧ off % 4 ≠ 0) ∨ (width = .w1 ∧ windowAt off = none) ∨
        (0x03C ≤ off ∧ off < 0x040) ∨ (0x050 ≤ off ∧ off < 0x080) ∨ (0x0A0 ≤ off ∧ off < 0x100) ∨
        (0x180 ≤ off ∧ off < 0x200) →
      regRead s width off = (0, { s with accErr := true }) ∧ regWrite s width off v = { s with accErr := true }) ∧
    (windowAt off = some .dec → regWrite s width off v = { s with accErr := true }) ∧
    (off ∈ [0x000, 0x018, 0x01C, 0x040, 0x044, 0x048, 0x04C] →
      regWrite s width off v = { s with accErr := true } ∧ (regRead s .w4 off).2 = s) ∧
    ((regRead s width off).2 = s ∨
      ((regRead s width off).1 = 0 ∧ (regRead s width off).2 = { s with accErr := true })) ∧
    (regRead (regRead s width off).2 width off).1 = (regRead s width off).1

/-- Window accesses (spec/20_memory.md R64): a 4-byte access moves four bytes in big-endian lane order, a
1-byte access moves one byte in bits 7:0, writes change nothing else, and a 32-bit register is reached only by
4-byte accesses. -/
def Obligations.WindowByteOrder : Prop :=
  (∀ (s : State) (win : Window) (o : Nat), o % 4 = 0 → o + 4 ≤ windowSize win →
    (∀ b0 b1 b2 b3 : Byte, memRead s.mem (windowBase win + o) = some b0 →
      memRead s.mem (windowBase win + o + 1) = some b1 → memRead s.mem (windowBase win + o + 2) = some b2 →
      memRead s.mem (windowBase win + o + 3) = some b3 →
      regRead s .w4 (windowBase win + o) = (b0 ++ b1 ++ b2 ++ b3, s)) ∧
    (s.seq = .idle → win ≠ .dec → ∀ v : Word, ∃ m,
      regWrite s .w4 (windowBase win + o) v = { s with mem := m } ∧
      memRead m (windowBase win + o) = some (v.extractLsb' 24 8) ∧
      memRead m (windowBase win + o + 1) = some (v.extractLsb' 16 8) ∧
      memRead m (windowBase win + o + 2) = some (v.extractLsb' 8 8) ∧
      memRead m (windowBase win + o + 3) = some (v.extractLsb' 0 8) ∧
      SameOutside s.mem m (windowBase win + o) 4)) ∧
  (∀ (s : State) (win : Window) (o : Nat), o < windowSize win →
    (∀ b : Byte, memRead s.mem (windowBase win + o) = some b →
      regRead s .w1 (windowBase win + o) = (b.setWidth 32, s)) ∧
    (s.seq = .idle → win ≠ .dec → ∀ v : Word, ∃ m,
      regWrite s .w1 (windowBase win + o) v = { s with mem := m } ∧
      memRead m (windowBase win + o) = some (v.setWidth 8) ∧ SameOutside s.mem m (windowBase win + o) 1)) ∧
  ∀ (s : State) (off : Nat) (r : Reg) (width : Width) (v : Word), regAt off = some r → width ≠ .w4 →
    regRead s width off = (0, { s with accErr := true }) ∧ regWrite s width off v = { s with accErr := true }

/-- Parameter registers (spec/10_state.md R26, R30 to R36): in IDLE a 4-byte write to IMG_W, IMG_H, BX, BY or
SRC_X0 to SRC_Y1 is read back whole, FORMAT keeps bits 7:0 and SRC_CFG bits 3:0; no other register, no byte and
no flag changes. -/
def Obligations.ParameterRegisterWrites : Prop :=
  ∀ (s : State) (v : Word), s.seq = .idle →
    regWrite s .w4 0x00C v = { s with format := v.extractLsb' 0 8 } ∧
    regWrite s .w4 0x010 v = { s with imgW := v } ∧ regWrite s .w4 0x014 v = { s with imgH := v } ∧
    regWrite s .w4 0x020 v = { s with blockX := v } ∧ regWrite s .w4 0x024 v = { s with blockY := v } ∧
    regWrite s .w4 0x028 v = { s with srcCfg := v.extractLsb' 0 4 } ∧
    regWrite s .w4 0x02C v = { s with srcX0 := v } ∧ regWrite s .w4 0x030 v = { s with srcY0 := v } ∧
    regWrite s .w4 0x034 v = { s with srcX1 := v } ∧ regWrite s .w4 0x038 v = { s with srcY1 := v } ∧
    (∀ off ∈ [0x010, 0x014, 0x020, 0x024, 0x02C, 0x030, 0x034, 0x038],
      (regRead (regWrite s .w4 off v) .w4 off).1 = v) ∧
    (regRead (regWrite s .w4 0x00C v) .w4 0x00C).1 = v &&& 0xFF ∧
    (regRead (regWrite s .w4 0x028 v) .w4 0x028).1 = v &&& 0xF

/-- The fields of STATUS and the halves of LOSS and ALOSS as the host reads them (spec/10_state.md R29, R37,
R38; the codes of R29 and of spec/60_exceptions.md R321). -/
def Obligations.StatusAndLossReads : Prop :=
  ∀ s : State,
    let w := (regRead s .w4 0x008).1
    (w.getLsbD 0 = true ↔ ∃ c, s.seq = .busy c) ∧ w.getLsbD 1 = s.done ∧ w.getLsbD 2 = s.accErr ∧
    w.getLsbD 3 = s.lvalid ∧
    (w.extractLsb' 4 4).toNat = (match s.err with
      | .none => 0 | .badArgument => 1 | .imageTooLarge => 2 | .notAContainer => 3 | .io => 4 | .badCommand => 5) ∧
    (w.extractLsb' 8 3).toNat = (match s.mode with
      | .none => 0 | .individual => 1 | .differential => 2 | .t => 3 | .h => 4 | .planar => 5 | .eac => 6) ∧
    w.extractLsb' 11 21 = 0 ∧
    (regRead s .w4 0x044).1 ++ (regRead s .w4 0x040).1 = s.loss ∧
    (regRead s .w4 0x04C).1 ++ (regRead s .w4 0x048).1 = s.aloss

/-- `WAIT` (spec/30_encoding.md R118, R119): two host turns at a WAIT bring the host back to it while BUSY is 1
and past it when BUSY is 0, and change nothing but the host's place, its names and the turns. -/
def Obligations.WaitPollsUntilIdle : Prop :=
  ∀ (s : State) (pos name : Nat) (ts : List Turn), s.hostPc = pos → s.turns = .host :: .host :: ts →
    s.hostProg[pos]? = (waitInstrs pos name)[0]? → s.hostProg[pos + 1]? = (waitInstrs pos name)[1]? →
    ∃ vars, Host.Core.run Sys2Proof.core 2 s = .next
      { s with hostPc := (if isBusy s then pos else pos + 2), hostVars := vars, turns := ts }

/-- ACCERR stays set until the host writes 1 to STATUS bit 2, or SRESET runs, or reset is asserted
(spec/60_exceptions.md R328): every step that clears it is one of these. -/
def Obligations.AccerrIsSticky : Prop :=
  ∀ s t : State, step s = .next t → s.accErr = true → t.accErr = false →
    (∃ ts, s.turns = .reset :: ts) ∨ s.seq = .busy 0x00000001 ∨
    ∃ v : Word, s.hostProg[s.hostPc]? = some (.write .w4 0x008 v) ∧ v.getLsbD 2 = true

/-! ## Rules over all commands -/

/-- Completion (spec/60_exceptions.md R325): a command that answers has completed, and an error completion is
precise: everything but ERR, LVALID, DONE and BUSY is as it was, except after IO in EXTRACT, where BLK is UNSPEC
(R326) and the source's answers are used. -/
def Obligations.ErrorCompletionsArePrecise : Prop :=
  ∀ (i : Instr) (s t : State), exec i s = .next t →
    t.seq = .idle ∧ t.done = true ∧
    (t.err ≠ .none →
      t = failedWith s t.err ∨
      (i = .extract ∧ t.err = .io ∧ ∃ m rest,
        t = { failedWith s .io with
              mem := m, srcPort := rest, unspecEra := s.unspecEra + 1, portEra := s.portEra + 1 } ∧
        (∀ a, 0x100 ≤ a ∧ a < 0x140 → memRead m a = none) ∧ SameOutside s.mem m 0x100 64))

/-- Which errors a command may end with (spec/60_exceptions.md R322 to R327): NOP and SRESET none, HDR_PARSE
NotAContainer only, ImageTooLarge only CFG and HDR_EMIT, IO only EXTRACT, and a command of the encoder, decoder
or metric BadArgument exactly when FORMAT does not select a format it allows. -/
def Obligations.ErrorKindsByCommand : Prop :=
  ∀ (i : Instr) (s t : State), WellFormed i = true → exec i s = .next t →
    t.err ≠ .badCommand ∧
    (t.err = .io → i = .extract) ∧ (t.err = .notAContainer → i = .hdrParse) ∧
    (t.err = .imageTooLarge → i = .cfg ∨ i = .hdrEmit) ∧
    (i = .nop ∨ i = .sreset → t.err = .none) ∧
    (i = .hdrParse → t.err = .none ∨ t.err = .notAContainer) ∧
    (isColourGenerator i = true ∨ i = .encode ∨ i = .decode ∨ i = .score ∨ i = .candEac8 ∨ (∃ ch, i = .candEac11 ch) →
      (t.err = .badArgument ↔ ∀ f, formatOfCode s.format = some f → allowedFormat i f = false))

/-- The result registers (spec/44_alpha_eac_driver.md R284): LVALID is 1 exactly after a successful ENCODE,
CAND_* or SCORE; every other command and every error leaves LOSS, ALOSS and MODE (SRESET clears them, DECODE sets
MODE); SCORE leaves MODE, and only ENCODE and SCORE in A8 formats and CAND_EAC8 write ALOSS. -/
def Obligations.ResultRegisterWriters : Prop :=
  ∀ (i : Instr) (s t : State), exec i s = .next t →
    let scores := isColourGenerator i = true ∨ i = .encode ∨ i = .score ∨ i = .candEac8 ∨ ∃ ch, i = .candEac11 ch
    (t.lvalid = true ↔ t.err = .none ∧ scores) ∧
    (i ≠ .sreset → (t.err ≠ .none ∨ ¬scores) → t.loss = s.loss ∧ t.aloss = s.aloss) ∧
    (i ≠ .sreset → i ≠ .decode → (t.err ≠ .none ∨ ¬scores ∨ i = .score) → t.mode = s.mode) ∧
    (t.aloss ≠ s.aloss → i = .sreset ∨ i = .candEac8 ∨
      ((i = .encode ∨ i = .score) ∧ ∃ f, formatOfCode s.format = some f ∧ isA8 f = true))

/-- Which command writes which buffer and which registers (spec/10_state.md R33, R39 to R42): CW only ENCODE and
CAND_*, HDR only HDR_EMIT, BLK only EXTRACT, DEC only DECODE; FORMAT, IMG_W and IMG_H only HDR_PARSE and SRESET,
PAD_W and PAD_H CFG too; the source registers and ACCERR only SRESET; the host's own state no command at all. -/
def Obligations.CommandsWriteOnlyTheirOutputs : Prop :=
  ∀ (i : Instr) (s t : State), exec i s = .next t →
    ((isColourGenerator i = false ∧ i ≠ .encode ∧ i ≠ .candEac8 ∧ ∀ ch, i ≠ .candEac11 ch) →
      ∀ a, windowAt a = some .cw → memRead t.mem a = memRead s.mem a) ∧
    (i ≠ .hdrEmit → ∀ a, windowAt a = some .hdr → memRead t.mem a = memRead s.mem a) ∧
    (i ≠ .extract → ∀ a, windowAt a = some .blk → memRead t.mem a = memRead s.mem a) ∧
    (i ≠ .decode → ∀ a, windowAt a = some .dec → memRead t.mem a = memRead s.mem a) ∧
    (i ≠ .hdrParse → i ≠ .sreset → t.format = s.format ∧ t.imgW = s.imgW ∧ t.imgH = s.imgH) ∧
    (i ≠ .hdrParse → i ≠ .sreset → i ≠ .cfg → t.padW = s.padW ∧ t.padH = s.padH) ∧
    (i ≠ .sreset → t.blockX = s.blockX ∧ t.blockY = s.blockY ∧ t.srcCfg = s.srcCfg ∧ t.srcX0 = s.srcX0 ∧
      t.srcY0 = s.srcY0 ∧ t.srcX1 = s.srcX1 ∧ t.srcY1 = s.srcY1 ∧ t.accErr = s.accErr) ∧
    t.hostProg = s.hostProg ∧ t.hostPc = s.hostPc ∧ t.hostVars = s.hostVars ∧ t.turns = s.turns

/-- A command whose inputs are set up as spec/70_reset_and_hazards.md R353 says runs to normal completion: the
format is one it allows and the bytes it reads are defined (which bytes: log 12). EXTRACT, CFG, HDR_EMIT and HDR_PARSE, which
check more, have statements of their own. -/
def Obligations.SetUpCommandsComplete : Prop :=
  ∀ (i : Instr) (s : State) (f : Format), WellFormed i = true →
    i ≠ .extract → i ≠ .cfg → i ≠ .hdrEmit → i ≠ .hdrParse →
    formatOfCode s.format = some f → allowedFormat i f = true → OperandsDefined i f s.mem →
    ∃ t, exec i s = .next t ∧ t.err = .none ∧ t.done = true ∧ t.seq = .idle

/-- A command that reads an UNSPEC byte has no result (spec/10_state.md R47): it stops with a fault that names an
UNSPEC byte among those it reads (which bytes: log 12). HDR_PARSE, in any format, reads check by check
(spec/45_control_container.md R307, spec/60_exceptions.md R325; log 25), so with an UNSPEC byte it faults on such a byte
or is NotAContainer: the latter where a check fails on bytes that are defined and so are those of the checks before it,
the former where a check of one byte, those before it passed, reads an UNSPEC one, and wherever the defined bytes could
belong to a header that is accepted. -/
def Obligations.UnspecOperandsFault : Prop :=
  (∀ (i : Instr) (s : State) (f : Format), WellFormed i = true → i ≠ .hdrParse → formatOfCode s.format = some f →
    allowedFormat i f = true → ¬OperandsDefined i f s.mem →
    ∃ a ∈ operandOffsets i f, memRead s.mem a = none ∧ exec i s = .fault (.unspecByte a)) ∧
  ∀ (s : State) (b : Nat → Byte),
    let hdr (j : Nat) : Option Byte := memRead s.mem (0x090 + j)
    let holds (j : Nat) : Prop := hdr j = some (b j)
    let be (j : Nat) : Nat := 256 * (b j).toNat + (b (j + 1)).toNat
    let first (n : Nat) : Prop :=
      (4 ≤ n → b 0 = 0x50 ∧ b 1 = 0x4B ∧ b 2 = 0x4D ∧ b 3 = 0x20) ∧ (5 ≤ n → b 4 = 0x31 ∨ b 4 = 0x32) ∧
      (6 ≤ n → b 5 = 0x30) ∧ (7 ≤ n → b 6 = 0x00) ∧
      (8 ≤ n → (formatOfCode (b 7)).isSome = true ∧ (b 4 = 0x31 ↔ b 7 = 0x00))
    let sized : Prop := be 12 ≠ 0 ∧ be 14 ≠ 0
    let padded : Prop := be 8 = 4 * ((be 12 + 3) / 4) ∧ be 10 = 4 * ((be 14 + 3) / 4)
    let refused : Prop := exec .hdrParse s = .next (failedWith s .notAContainer)
    let faults (j : Nat) : Prop := hdr j = none ∧ exec .hdrParse s = .fault (.unspecByte (0x090 + j))
    ((∃ j < 16, hdr j = none) → refused ∨ ∃ j < 16, faults j) ∧
    (∀ n ≤ 8, (∀ j < n, holds j) → ¬first n → refused) ∧
    ((∀ j < 8, holds j) → (∀ j < 16, 12 ≤ j → holds j) → ¬(first 8 ∧ sized) → refused) ∧
    (∀ n ∈ [4, 5, 6, 7], (∀ j < n, holds j) → first n → hdr n = none → faults n) ∧
    ((∃ j < 16, hdr j = none) → (∀ j < 16, holds j ∨ hdr j = none) → first 8 → sized → padded → ∃ j < 16, faults j)

/-- An accepted command runs, on its inputs as they stood at acceptance (spec/70_reset_and_hazards.md R354,
spec/20_memory.md R76): whatever host turns come first, after as many steps as turns are listed at most, the
core's step is the next, and until then nothing has changed but ACCERR and the host's own state. The bound by the
turns is the model's schedule (log 6). -/
def Obligations.AcceptedCommandRuns : Prop :=
  ∀ (s : State) (w : Word), s.seq = .busy w → .reset ∉ s.turns →
    ∃ k ≤ s.turns.length, ∃ accErr hostPc hostVars turns rest,
      let u := { s with accErr := accErr, hostPc := hostPc, hostVars := hostVars, turns := turns }
      Host.Core.run Sys2Proof.core k s = .next u ∧
      step u = coreTurn { u with turns := rest }

/-! ## Control commands -/

/-- NOP and SRESET (spec/45_control_container.md R301, R302): NOP clears LVALID, completes and changes nothing else;
SRESET gives the registers their reset values and keeps every byte and the host's own state. -/
def Obligations.NopAndSresetResults : Prop :=
  ∀ s : State,
    exec .nop s = .next { s with err := .none, done := true, seq := .idle, lvalid := false } ∧
    (s.accErr = false → ∀ t, exec .nop s = .next t → (regRead t .w4 0x008).1 &&& 0xFF = 0x02) ∧
    exec .sreset s = .next
      { State.reset with
        done := true, mem := s.mem, hostProg := s.hostProg, hostPc := s.hostPc, hostVars := s.hostVars,
        turns := s.turns, srcPort := s.srcPort, unspecEra := s.unspecEra, portEra := s.portEra }

/-- CFG (spec/45_control_container.md R303): with a valid format and sizes from 1 to 65532 it writes the sizes
rounded up to multiples of 4, clears LVALID and changes nothing else. -/
def Obligations.CfgResult : Prop :=
  ∀ (s : State) (f : Format), formatOfCode s.format = some f →
    1 ≤ s.imgW.toNat → s.imgW.toNat ≤ 65532 → 1 ≤ s.imgH.toNat → s.imgH.toNat ≤ 65532 →
    ∃ pw ph : Word, exec .cfg s = .next { ended s with lvalid := false, padW := pw, padH := ph } ∧
      s.imgW.toNat ≤ pw.toNat ∧ pw.toNat < s.imgW.toNat + 4 ∧ pw.toNat % 4 = 0 ∧
      s.imgH.toNat ≤ ph.toNat ∧ ph.toNat < s.imgH.toNat + 4 ∧ ph.toNat % 4 = 0

/-- `checkImage` (spec/45_control_container.md R304, spec/60_exceptions.md R323): CFG and HDR_EMIT raise
BadArgument on an invalid format or a size below 1 or of 65536 and more, read as signed, else ImageTooLarge on a
size above 65532; an error changes nothing else. -/
def Obligations.ImageCheckErrors : Prop :=
  ∀ (i : Instr) (s : State), i = .cfg ∨ i = .hdrEmit →
    let w := s.imgW.toInt
    let h := s.imgH.toInt
    (formatOfCode s.format = none ∨ w < 1 ∨ 65536 ≤ w ∨ h < 1 ∨ 65536 ≤ h →
      exec i s = .next (failedWith s .badArgument)) ∧
    ((formatOfCode s.format).isSome = true → 1 ≤ w → w < 65536 → 1 ≤ h → h < 65536 → (65532 < w ∨ 65532 < h) →
      exec i s = .next (failedWith s .imageTooLarge))

/-- HDR_EMIT (spec/45_control_container.md R305; spec/30_encoding.md R117): the sixteen header bytes, big-endian
sizes, and nothing else but LVALID. -/
def Obligations.HdrEmitResult : Prop :=
  ∀ (s : State) (f : Format), formatOfCode s.format = some f →
    1 ≤ s.imgW.toNat → s.imgW.toNat ≤ 65532 → 1 ≤ s.imgH.toNat → s.imgH.toNat ≤ 65532 →
    let w := s.imgW.toNat
    let h := s.imgH.toNat
    let pw := 4 * ((w + 3) / 4)
    let ph := 4 * ((h + 3) / 4)
    let version : Nat := if s.format = 0 then 0x31 else 0x32
    ∃ m, exec .hdrEmit s = .next { ended s with lvalid := false, mem := m } ∧
      (∀ j < 16, ∃ b, memRead m (0x090 + j) = some b ∧ some b.toNat =
        [0x50, 0x4B, 0x4D, 0x20, version, 0x30, 0x00, s.format.toNat, pw / 256, pw % 256, ph / 256, ph % 256,
         w / 256, w % 256, h / 256, h % 256][j]?) ∧
      SameOutside s.mem m 0x090 16

/-- HDR_PARSE and its checks (spec/45_control_container.md R306, R307; spec/60_exceptions.md R324): a header that
passes the eight checks loads FORMAT and the four sizes, which then lie from 1 to 65532; any other header is
NotAContainer and changes nothing else. -/
def Obligations.HdrParseResult : Prop :=
  ∀ (s : State) (b : Nat → Byte), (∀ j < 16, memRead s.mem (0x090 + j) = some (b j)) →
    let be (j : Nat) : Nat := 256 * (b j).toNat + (b (j + 1)).toNat
    let w := be 12
    let h := be 14
    let accepted :=
      b 0 = 0x50 ∧ b 1 = 0x4B ∧ b 2 = 0x4D ∧ b 3 = 0x20 ∧ (b 4 = 0x31 ∨ b 4 = 0x32) ∧ b 5 = 0x30 ∧ b 6 = 0x00 ∧
      (formatOfCode (b 7)).isSome = true ∧ (b 4 = 0x31 ↔ b 7 = 0x00) ∧ w ≠ 0 ∧ h ≠ 0 ∧
      be 8 = 4 * ((w + 3) / 4) ∧ be 10 = 4 * ((h + 3) / 4)
    (accepted → w ≤ 65532 ∧ h ≤ 65532 ∧ exec .hdrParse s = .next
      { ended s with
        lvalid := false, format := b 7, imgW := BitVec.ofNat 32 w, imgH := BitVec.ofNat 32 h,
        padW := BitVec.ofNat 32 (be 8), padH := BitVec.ofNat 32 (be 10) }) ∧
    (¬accepted → exec .hdrParse s = .next (failedWith s .notAContainer))

/-- A header that HDR_EMIT wrote parses, and gives back its FORMAT, IMG_W and IMG_H
(spec/45_control_container.md R306), with the padded sizes CFG computes from them, whatever FORMAT, IMG_W, IMG_H,
PAD_W and PAD_H hold by then. -/
def Obligations.HeaderRoundTrip : Prop :=
  ∀ (s t : State) (format : Byte) (imgW imgH padW padH : Word), exec .hdrEmit s = .next t → t.err = .none →
    ∃ u v, exec .hdrParse { t with format := format, imgW := imgW, imgH := imgH, padW := padW, padH := padH } = .next u ∧
      exec .cfg s = .next v ∧ u.err = .none ∧ u.format = s.format ∧ u.imgW = s.imgW ∧ u.imgH = s.imgH ∧
      u.padW = v.padW ∧ u.padH = v.padH

/-! ## EXTRACT -/

/-- EXTRACT's checks (spec/40_normalizer.md R142): an invalid format, no source, an unsupported depth, an empty
rectangle or a block origin outside it raise BadArgument, with no read and no byte written. -/
def Obligations.ExtractRefusals : Prop :=
  ∀ s : State,
    formatOfCode s.format = none ∨ s.srcCfg.getLsbD 0 = false ∨ 2 ≤ (s.srcCfg.extractLsb' 2 2).toNat ∨
    s.srcX1.toInt ≤ s.srcX0.toInt ∨ s.srcY1.toInt ≤ s.srcY0.toInt ∨
    s.blockX.toInt < s.srcX0.toInt ∨ s.srcX1.toInt - 1 < s.blockX.toInt ∨
    s.blockY.toInt < s.srcY0.toInt ∨ s.srcY1.toInt - 1 < s.blockY.toInt →
    exec .extract s = .next (failedWith s .badArgument)

/-- The reads of EXTRACT (spec/40_normalizer.md R143, R151; spec/20_memory.md R67): once the checks pass there are
sixteen, in raster order, at the clamped coordinates, and every one lies in the source rectangle. -/
def Obligations.ExtractReadsInRange : Prop :=
  ∀ s : State, extractRefused s = false →
    (extractReads s).map Prod.fst = List.range 16 ∧
    ∀ k x y, (k, x, y) ∈ extractReads s →
      x = min (s.srcX1.toInt - 1) (s.blockX.toInt + (k % 4 : Nat)) ∧
      y = min (s.srcY1.toInt - 1) (s.blockY.toInt + (k / 4 : Nat)) ∧
      s.srcX0.toInt ≤ x ∧ x < s.srcX1.toInt ∧ s.srcY0.toInt ≤ y ∧ y < s.srcY1.toInt

/-- EXTRACT in a colour format (spec/40_normalizer.md R141, R144 to R146): when the source answers sixteen pixels
in the range of its depth, each is widened, un-premultiplied where PREMUL is 1, and its high bytes are written;
nothing else changes but LVALID and the source's answers. That listed answers are used up, and how many, is the
model's choice (log 4). -/
def Obligations.ExtractColourResult : Prop :=
  ∀ (s : State) (f : Format) (px : Nat → Nat → Nat) (rest : List SrcAnswer),
    formatOfCode s.format = some f → isColour f = true → extractRefused s = false →
    (∀ k < 16, ∀ c < 4, px k c ≤ if s.srcCfg.extractLsb' 2 2 = 0 then 255 else 65535) →
    s.srcPort = ((List.range 16).map fun k => .pixel (px k 0) (px k 1) (px k 2) (px k 3)) ++ rest →
    let wide (k c : Nat) : Nat := if s.srcCfg.extractLsb' 2 2 = 0 then px k c * 257 else px k c
    let colour (k c : Nat) : Nat :=
      if s.srcCfg.getLsbD 1 = true ∧ 0 < wide k 3 ∧ wide k 3 < 65535 then min 65535 (wide k c * 65535 / wide k 3)
      else wide k c
    ∃ m, exec .extract s = .next
        { ended s with lvalid := false, mem := m, srcPort := rest, portEra := s.portEra + 1 } ∧
      (∀ k < 16, (∀ c < 3, memRead m (0x100 + 16 * (k / 4) + 4 * (k % 4) + c) =
          some (BitVec.ofNat 8 (colour k c / 256))) ∧
        memRead m (0x100 + 16 * (k / 4) + 4 * (k % 4) + 3) = some (BitVec.ofNat 8 (wide k 3 / 256))) ∧
      SameOutside s.mem m 0x100 64

/-- EXTRACT in an 11-bit format (spec/40_normalizer.md R147 to R149): the luma of each pixel, or its R and G
channels, as big-endian samples, and 0 in the second half of BLK in R11 formats. That listed answers are used up,
and how many, is the model's choice (log 4). -/
def Obligations.ExtractSampleResult : Prop :=
  ∀ (s : State) (f : Format) (px : Nat → Nat → Nat) (rest : List SrcAnswer),
    formatOfCode s.format = some f → isColour f = false → extractRefused s = false →
    (∀ k < 16, ∀ c < 4, px k c ≤ if s.srcCfg.extractLsb' 2 2 = 0 then 255 else 65535) →
    s.srcPort = ((List.range 16).map fun k => .pixel (px k 0) (px k 1) (px k 2) (px k 3)) ++ rest →
    let wide (k c : Nat) : Nat := if s.srcCfg.extractLsb' 2 2 = 0 then px k c * 257 else px k c
    let colour (k c : Nat) : Nat :=
      if s.srcCfg.getLsbD 1 = true ∧ 0 < wide k 3 ∧ wide k 3 < 65535 then min 65535 (wide k c * 65535 / wide k 3)
      else wide k c
    let sample (ch k : Nat) : Nat :=
      if formatClass f = .rg11 then colour k ch
      else if ch = 0 then
        (212656 * colour k 0 + 715158 * colour k 1 + 72186 * colour k 2 + 500000) / 1000000
      else 0
    ∃ m, exec .extract s = .next
        { ended s with lvalid := false, mem := m, srcPort := rest, portEra := s.portEra + 1 } ∧
      (∀ ch < 2, ∀ k < 16, sample ch k ≤ 65535 ∧
        memRead m (0x100 + 32 * ch + 8 * (k / 4) + 2 * (k % 4)) = some (BitVec.ofNat 8 (sample ch k / 256)) ∧
        memRead m (0x100 + 32 * ch + 8 * (k / 4) + 2 * (k % 4) + 1) = some (BitVec.ofNat 8 (sample ch k % 256))) ∧
      SameOutside s.mem m 0x100 64

/-- EXTRACT's other ends (spec/40_normalizer.md R150, spec/60_exceptions.md R326, spec/20_memory.md R66): at the
first answer that is no pixel of the declared depth, after `j` that are, IOERR raises IO and leaves BLK UNSPEC,
and a pixel outside the depth is a refused input. That the answers after the first IOERR stay listed is the model's
choice (log 4). -/
def Obligations.ExtractReadFailure : Prop :=
  ∀ (s : State) (f : Format) (j : Nat) (px : Nat → Nat → Nat) (bad : SrcAnswer) (rest : List SrcAnswer),
    formatOfCode s.format = some f → extractRefused s = false → j < 16 →
    (∀ k < j, ∀ c < 4, px k c ≤ if s.srcCfg.extractLsb' 2 2 = 0 then 255 else 65535) →
    s.srcPort = ((List.range j).map fun k => .pixel (px k 0) (px k 1) (px k 2) (px k 3)) ++ bad :: rest →
    (bad = .ioerr → ∃ m, exec .extract s = .next
        { failedWith s .io with
          mem := m, srcPort := rest, unspecEra := s.unspecEra + 1, portEra := s.portEra + 1 } ∧
      (∀ a, 0x100 ≤ a ∧ a < 0x140 → memRead m a = none) ∧ SameOutside s.mem m 0x100 64) ∧
    (∀ r g b a, bad = .pixel r g b a →
      (¬(r ≤ depthMax (srcDepth s.srcCfg) ∧ g ≤ depthMax (srcDepth s.srcCfg) ∧ b ≤ depthMax (srcDepth s.srcCfg) ∧
        a ≤ depthMax (srcDepth s.srcCfg))) →
      exec .extract s = .refused .sourceAnswerOutOfRange)

/-! ## DECODE -/

/-- DECODE in a colour format (spec/41_decoder.md R161, R176): MODE is the sub-mode of the colour codeword, DEC
holds the sixteen decoded pixels, in A8 formats with the alpha of the first codeword, and nothing else changes but
LVALID. -/
def Obligations.DecodeColourResult : Prop :=
  ∀ (s : State) (f : Format) (w a : DWord), formatOfCode s.format = some f → isColour f = true →
    HoldsCodeword s.mem (if isA8 f then 8 else 0) w → (isA8 f = true → HoldsCodeword s.mem 0 a) →
    let mode := selectMode w (isA1 f)
    let pixel (k : Nat) : Rgba := decodePixel w mode (isA1 f && !w.getLsbD 33) (k % 4) (k / 4)
    let alpha (k : Nat) : Nat := if isA8 f then (decodeEac8 a).getD k 0 else (pixel k).a
    ∃ m, exec .decode s = .next { ended s with lvalid := false, mode := mode, mem := m } ∧
      (∀ k < 16, (pixel k).rgb.r ≤ 255 ∧ (pixel k).rgb.g ≤ 255 ∧ (pixel k).rgb.b ≤ 255 ∧ alpha k ≤ 255 ∧
        memRead m (pixelByte .dec k 0) = some (BitVec.ofNat 8 (pixel k).rgb.r) ∧
        memRead m (pixelByte .dec k 1) = some (BitVec.ofNat 8 (pixel k).rgb.g) ∧
        memRead m (pixelByte .dec k 2) = some (BitVec.ofNat 8 (pixel k).rgb.b) ∧
        memRead m (pixelByte .dec k 3) = some (BitVec.ofNat 8 (alpha k))) ∧
      SameOutside s.mem m 0x140 64

/-- DECODE in an 11-bit format (spec/41_decoder.md R161, R176): MODE is EAC, DEC holds the samples of one or two
channels modulo 2^16, big-endian, and 0 in its second half in R11 formats. The projection is the default of an OPEN
parameter (log 9). -/
def Obligations.DecodeSampleResult : Prop :=
  ∀ (s : State) (f : Format) (r g : DWord), formatOfCode s.format = some f → isColour f = false →
    HoldsCodeword s.mem 0 r → (formatClass f = .rg11 → HoldsCodeword s.mem 8 g) →
    let value (ch k : Nat) : Int :=
      if ch = 0 then (decodeEac11 params (formatSigned f) r).getD k 0
      else if formatClass f = .rg11 then (decodeEac11 params (formatSigned f) g).getD k 0
      else 0
    ∃ m, exec .decode s = .next { ended s with lvalid := false, mode := .eac, mem := m } ∧
      (∀ ch < 2, ∀ k < 16, ∃ hi lo : Byte, memRead m (sampleByte .dec ch k) = some hi ∧
        memRead m (sampleByte .dec ch k + 1) = some lo ∧
        ((256 * hi.toNat + lo.toNat : Nat) : Int) = value ch k % 65536) ∧
      SameOutside s.mem m 0x140 64

/-- Colour mode selection (spec/30_encoding.md R98): by bit 33, taken as 1 in A1 formats, then by the first of red,
green and blue whose 5-bit base plus 3-bit signed delta leaves 0 to 31. -/
def Obligations.ModeSelectionRule : Prop :=
  ∀ (w : DWord) (a1 : Bool),
    let sum (lo : Nat) : Int := ((w.extractLsb' (lo + 3) 5).toNat : Int) + (w.extractLsb' lo 3).toInt
    let out (lo : Nat) : Prop := sum lo < 0 ∨ 31 < sum lo
    (a1 = false → w.getLsbD 33 = false → selectMode w a1 = .individual) ∧
    (a1 = true ∨ w.getLsbD 33 = true →
      (out 56 → selectMode w a1 = .t) ∧
      (¬out 56 → out 48 → selectMode w a1 = .h) ∧
      (¬out 56 → ¬out 48 → out 40 → selectMode w a1 = .planar) ∧
      (¬out 56 → ¬out 48 → ¬out 40 → selectMode w a1 = .differential))

/-- Individual and Differential pixels (spec/41_decoder.md R164, R167; spec/30_encoding.md R99, R100, R103): the base of
the pixel's half, plus the modifier of its index in the half's row of MOD_ETC, clamped to 0 to 255, with alpha 255. -/
def Obligations.HalvesPixelRule : Prop :=
  ∀ (w : DWord) (x y : Nat), x < 4 → y < 4 →
    let at' (lo n : Nat) : Nat := (w.extractLsb' lo n).toNat
    let second : Prop := if w.getLsbD 32 = true then 2 ≤ y else 2 ≤ x
    let table : Nat := if second then at' 34 3 else at' 37 3
    let v : Nat := 2 * (w.getLsbD (4 * x + y + 16)).toNat + (w.getLsbD (4 * x + y)).toNat
    let row : List Int := [[-8, -2, 2, 8], [-17, -5, 5, 17], [-29, -9, 9, 29], [-42, -13, 13, 42], [-60, -18, 18, 60],
      [-80, -24, 24, 80], [-106, -33, 33, 106], [-183, -47, 47, 183]].getD table []
    let m : Int := row.getD ([2, 3, 1, 0].getD v 0) 0
    let put (c : Nat) : Nat := (clampInt ((c : Int) + m) 0 255).toNat
    let individual (lo : Nat) : Nat := if second then ext4 (at' lo 4) else ext4 (at' (lo + 4) 4)
    let differential (lo : Nat) : Nat :=
      if second then ext5 ((at' (lo + 3) 5 : Int) + (w.extractLsb' lo 3).toInt).toNat else ext5 (at' (lo + 3) 5)
    decodePixel w .individual false x y = ⟨⟨put (individual 56), put (individual 48), put (individual 40)⟩, 255⟩ ∧
    (selectMode w true = .differential →
      decodePixel w .differential false x y =
        ⟨⟨put (differential 56), put (differential 48), put (differential 40)⟩, 255⟩)

/-- T and H pixels (spec/41_decoder.md R168; spec/30_encoding.md R101, R102, R103): the palette of the two 4-bit
colours and the distance, the index selecting the colour. -/
def Obligations.PalettePixelRule : Prop :=
  ∀ (w : DWord) (x y : Nat), x < 4 → y < 4 →
    let at' (lo n : Nat) : Nat := (w.extractLsb' lo n).toNat
    let v : Nat := 2 * (w.getLsbD (4 * x + y + 16)).toNat + (w.getLsbD (4 * x + y)).toNat
    let moved (c : Rgb) (d : Int) : Rgb := c.map fun n => (clampInt ((17 * n : Nat) + d) 0 255).toNat
    let paint : Rgb := ⟨4 * at' 59 2 + at' 56 2, at' 52 4, at' 48 4⟩
    let centre : Rgb := ⟨at' 44 4, at' 40 4, at' 36 4⟩
    let td : Int := [3, 6, 11, 16, 23, 32, 41, 64].getD (2 * at' 34 2 + at' 32 1) 0
    let c0 : Rgb := ⟨at' 59 4, 2 * at' 56 3 + at' 52 1, 8 * at' 51 1 + at' 47 3⟩
    let c1 : Rgb := ⟨at' 43 4, at' 39 4, at' 35 4⟩
    let order : Nat := if c1.r * 256 + c1.g * 16 + c1.b ≤ c0.r * 256 + c0.g * 16 + c0.b then 1 else 0
    let hd : Int := [3, 6, 11, 16, 23, 32, 41, 64].getD (4 * at' 34 1 + 2 * at' 32 1 + order) 0
    some (decodePixel w .t false x y) =
      ([moved paint 0, moved centre td, moved centre 0, moved centre (-td)].map (⟨·, 255⟩))[v]? ∧
    some (decodePixel w .h false x y) =
      ([moved c0 hd, moved c0 (-hd), moved c1 hd, moved c1 (-hd)].map (⟨·, 255⟩))[v]?

/-- Planar pixels (spec/41_decoder.md R169; spec/30_encoding.md R105): the interpolation of the three colours, each
of 6, 7 and 6 bits widened to 8, clamped, with alpha 255. -/
def Obligations.PlanarPixelRule : Prop :=
  ∀ (w : DWord) (punch : Bool) (x y : Nat), x < 4 → y < 4 →
    let at' (lo n : Nat) : Nat := (w.extractLsb' lo n).toNat
    let wide6 (v : Nat) : Nat := 4 * v + v / 16
    let wide7 (v : Nat) : Nat := 2 * v + v / 64
    let value (o h v : Nat) : Nat :=
      (clampInt (((x : Int) * ((h : Int) - o) + (y : Int) * ((v : Int) - o) + 4 * o + 2) / 4) 0 255).toNat
    decodePixel w .planar punch x y =
      ⟨⟨value (wide6 (at' 57 6)) (wide6 (2 * at' 34 5 + at' 32 1)) (wide6 (at' 13 6)),
        value (wide7 (64 * at' 56 1 + at' 49 6)) (wide7 (at' 25 7)) (wide7 (at' 6 7)),
        value (wide6 (32 * at' 48 1 + 8 * at' 43 2 + at' 39 3)) (wide6 (at' 19 6)) (wide6 (at' 0 6))⟩, 255⟩

/-- Punch-through (spec/41_decoder.md R174; spec/30_encoding.md R106): with opaque bit 0, index 2 is transparent
black in Differential, T and H; index 0 in Differential gives the base itself; indices 1 and 3, other T and H
indices and every Planar pixel are as with opaque bit 1. -/
def Obligations.PunchThroughRule : Prop :=
  ∀ (w : DWord) (x y : Nat), x < 4 → y < 4 →
    let v : Nat := 2 * (w.getLsbD (4 * x + y + 16)).toNat + (w.getLsbD (4 * x + y)).toNat
    let second : Prop := if w.getLsbD 32 = true then 2 ≤ y else 2 ≤ x
    (v = 2 → ∀ m ∈ [Mode.differential, .t, .h], decodePixel w m true x y = ⟨⟨0, 0, 0⟩, 0⟩) ∧
    (v = 0 → selectMode w true = .differential →
      decodePixel w .differential true x y = ⟨differentialBase w (if second then 1 else 0), 255⟩) ∧
    (v = 1 ∨ v = 3 → decodePixel w .differential true x y = decodePixel w .differential false x y) ∧
    (v ≠ 2 → ∀ m ∈ [Mode.t, .h], decodePixel w m true x y = decodePixel w m false x y) ∧
    decodePixel w .planar true x y = decodePixel w .planar false x y

/-- EAC reconstruction values (spec/41_decoder.md R166, R170 to R173; spec/30_encoding.md R111 to R113): 8-bit alpha,
and unsigned and signed 11-bit values with their widening to 16 bits, from the rows of EAC_MOD, a multiplier of 0 applied literally in the first and
left out in the others. The widening is the default of an OPEN parameter (log 9). -/
def Obligations.EacValueRules : Prop :=
  ∀ (w : DWord) (k : Nat), k < 16 →
    let at' (lo n : Nat) : Nat := (w.extractLsb' lo n).toNat
    let base := at' 56 8
    let mult := at' 52 4
    let row : List Int := [[-3, -6, -9, -15, 2, 5, 8, 14], [-3, -7, -10, -13, 2, 6, 9, 12],
      [-2, -5, -8, -13, 1, 4, 7, 12], [-2, -4, -6, -13, 1, 3, 5, 12], [-3, -6, -8, -12, 2, 5, 7, 11],
      [-3, -7, -9, -11, 2, 6, 8, 10], [-4, -7, -8, -11, 3, 6, 7, 10], [-3, -5, -8, -11, 2, 4, 7, 10],
      [-2, -6, -8, -10, 1, 5, 7, 9], [-2, -5, -8, -10, 1, 4, 7, 9], [-2, -4, -8, -10, 1, 3, 7, 9],
      [-2, -5, -7, -10, 1, 4, 6, 9], [-3, -4, -7, -10, 2, 3, 6, 9], [-1, -2, -3, -10, 0, 1, 2, 9],
      [-4, -6, -8, -9, 3, 5, 7, 8], [-3, -5, -7, -9, 2, 4, 6, 8]].getD (at' 48 4) []
    let m : Int := row.getD (at' (45 - 3 * (4 * (k % 4) + k / 4)) 3) 0
    let step : Int := if mult = 0 then m else m * mult * 8
    let signedByte : Int := if base = 128 then -127 else (w.extractLsb' 56 8).toInt
    let u : Nat := (clampInt (base * 8 + 4 + step) 0 2047).toNat
    let v : Int := clampInt (signedByte * 8 + step) (-1023) 1023
    let magnitude : Nat := 32 * v.natAbs + v.natAbs / 32
    (decodeEac8 w)[k]? = some (clampInt (base + m * mult) 0 255).toNat ∧
    (decodeEac11 params false w)[k]? = some ((32 * u + u / 64 : Nat) : Int) ∧ 32 * u + u / 64 ≤ 65535 ∧
    (decodeEac11 params true w)[k]? = some (if v < 0 then -(magnitude : Int) else magnitude) ∧ magnitude ≤ 32767

/-! ## SCORE -/

/-- SCORE in a colour format (spec/42_metric.md R202 to R204, R207): LOSS is the weighted sum of squared channel
differences over the pixels, a transparent source pixel of an A1 format adding 0, and in A8 formats ALOSS is the sum
of squared alpha differences; both are exact, and nothing else changes but LVALID. -/
def Obligations.ScoreColourResult : Prop :=
  ∀ (s : State) (f : Format) (src dec : Nat → Nat → Byte), formatOfCode s.format = some f →
    (∀ k < 16, ∀ c < 3, memRead s.mem (pixelByte .blk k c) = some (src k c) ∧
      memRead s.mem (pixelByte .dec k c) = some (dec k c)) →
    let sq (k c : Nat) : Int := ((src k c).toNat - (dec k c).toNat : Int) ^ 2
    let err (k : Nat) : Int := 299 * sq k 0 + 587 * sq k 1 + 114 * sq k 2
    let total (g : Nat → Int) : Int := ((List.range 16).map g).sum
    (formatClass f = .rgb → ∃ loss : DWord, (loss.toNat : Int) = total err ∧
      exec .score s = .next { ended s with lvalid := true, loss := loss }) ∧
    (formatClass f = .a1 → (∀ k < 16, memRead s.mem (pixelByte .blk k 3) = some (src k 3)) →
      ∃ loss : DWord, (loss.toNat : Int) = total (fun k => if (src k 3).toNat < 0x80 then 0 else err k) ∧
        exec .score s = .next { ended s with lvalid := true, loss := loss }) ∧
    (formatClass f = .a8 → (∀ k < 16, memRead s.mem (pixelByte .blk k 3) = some (src k 3) ∧
        memRead s.mem (pixelByte .dec k 3) = some (dec k 3)) →
      ∃ loss aloss : DWord, (loss.toNat : Int) = total err ∧ (aloss.toNat : Int) = total (fun k => sq k 3) ∧
        exec .score s = .next { ended s with lvalid := true, loss := loss, aloss := aloss })

/-- SCORE in an 11-bit format (spec/42_metric.md R201, R205, R206): the exact sum of squared differences between the
target of each sample and the decoded sample, over one channel or two; in signed formats the target is the sample
less 32768, at least −32767, the default of an OPEN parameter (log 9). -/
def Obligations.ScoreSampleResult : Prop :=
  ∀ (s : State) (f : Format) (srcHi srcLo decHi decLo : Nat → Nat → Byte), formatOfCode s.format = some f →
    isColour f = false →
    (∀ ch < (if formatClass f = .rg11 then 2 else 1), ∀ k < 16,
      memRead s.mem (sampleByte .blk ch k) = some (srcHi ch k) ∧
      memRead s.mem (sampleByte .blk ch k + 1) = some (srcLo ch k) ∧
      memRead s.mem (sampleByte .dec ch k) = some (decHi ch k) ∧
      memRead s.mem (sampleByte .dec ch k + 1) = some (decLo ch k)) →
    let target (ch k : Nat) : Int :=
      if formatSigned f then max ((srcHi ch k ++ srcLo ch k).toNat - 32768 : Int) (-32767)
      else (srcHi ch k ++ srcLo ch k).toNat
    let value (ch k : Nat) : Int :=
      if formatSigned f then (decHi ch k ++ decLo ch k).toInt else (decHi ch k ++ decLo ch k).toNat
    let channel (ch : Nat) : Int := ((List.range 16).map fun k => (target ch k - value ch k) ^ 2).sum
    ∃ loss : DWord,
      (loss.toNat : Int) = (if formatClass f = .rg11 then channel 0 + channel 1 else channel 0) ∧
      exec .score s = .next { ended s with lvalid := true, loss := loss }

/-! ## Colour generators -/

/-- The template of CAND_ID, CAND_ETC1S, CAND_PLANAR, CAND_T and CAND_H (spec/43_color_candidates.md R216): BadArgument
where FORMAT or TRANSP does not allow the command; else the generator's codeword in CW, at byte 8 in A8 formats, LOSS
the loss of its own decode, MODE its sub-mode, and nothing else changed. The generators run with the OPEN
parameters' defaults (log 9). -/
def Obligations.ColourCandidateResult : Prop :=
  ∀ (i : Instr) (s : State), isColourGenerator i = true → WellFormed i = true →
    ((∀ f, formatOfCode s.format = some f → allowedFormat i f = false) →
      exec i s = .next (failedWith s .badArgument)) ∧
    ∀ (f : Format) (px : List SrcPixel), formatOfCode s.format = some f → allowedFormat i f = true →
      readSource s.mem f = .ok px →
      let w := generatorWord f px i
      let o := if isA8 f then 8 else 0
      ∃ (m : List Host.Cell) (loss : DWord), exec i s = .next
          { ended s with lvalid := true, loss := loss, mode := selectMode w (isA1 f), mem := m } ∧
        loss.toNat = colourLoss px ((decodeColour w f).map Rgba.rgb) ∧
        HoldsCodeword m o w ∧ SameOutside s.mem m (0x080 + o) 8

/-- The source block the colour generators read (spec/30_encoding.md R114, spec/42_metric.md R204): the sixteen pixels in
raster order, transparent in an A1 format where alpha is below 0x80. -/
def Obligations.SourceBlockRead : Prop :=
  ∀ (m : List Host.Cell) (f : Format) (src : Nat → Nat → Byte),
    (∀ k < 16, ∀ c < 3, memRead m (pixelByte .blk k c) = some (src k c)) →
    (isA1 f = true → ∀ k < 16, memRead m (pixelByte .blk k 3) = some (src k 3)) →
    readSource m f = .ok ((List.range 16).map fun k =>
      ⟨⟨(src k 0).toNat, (src k 1).toNat, (src k 2).toNat⟩, isA1 f && decide ((src k 3).toNat < 0x80)⟩)

/-- The mode tags (spec/43_color_candidates.md R226, R231, R235, R253; spec/30_encoding.md R107): a successful CAND_T
leaves MODE T, CAND_H leaves H, CAND_PLANAR leaves PLANAR and CAND_ETC1S leaves DIFFERENTIAL, whatever the block.
Its clustering and its reductions run with the OPEN parameters' defaults (log 9). -/
def Obligations.CandidateModeTags : Prop :=
  ∀ (i : Instr) (s t : State), exec i s = .next t → t.err = .none →
    ((∃ transp intens, i = .candT transp intens) → t.mode = .t) ∧
    ((∃ transp intens, i = .candH transp intens) → t.mode = .h) ∧
    (i = .candPlanar → t.mode = .planar) ∧
    (i = .candEtc1s → t.mode = .differential)

/-- T packing (spec/30_encoding.md R101, R108): what `packT` writes reads back as it was, colours, distance, bit 33
and every index, and the red sum overflows, so the codeword is T wherever bit 33 is 1 or the format is A1. -/
def Obligations.PackTRoundTrip : Prop :=
  ∀ (p c : Rgb) (di : Nat) (op : Bool) (idx : Nat → Nat),
    p.r < 16 → p.g < 16 → p.b < 16 → c.r < 16 → c.g < 16 → c.b < 16 → di < 8 → (∀ k, idx k < 4) →
    let w := packT p c di op idx
    tColours w = (p, c) ∧ tDistance w = di ∧ w.getLsbD 33 = op ∧
    (∀ x < 4, ∀ y < 4, etcIndex w x y = idx (4 * y + x)) ∧
    selectMode w true = .t ∧ (op = true → selectMode w false = .t)

/-- H packing (spec/30_encoding.md R102, R109; spec/43_color_candidates.md R235): when the order of the bases is the
low bit of the distance index, what `packH` writes reads back as it was, and the codeword is H wherever bit 33 is 1
or the format is A1. `hOrder` gives such an order, of 4-bit colours (R233). -/
def Obligations.PackHRoundTrip : Prop :=
  (∀ (c0 c1 : Rgb) (di : Nat) (op : Bool) (idx : Nat → Nat),
    c0.r < 16 → c0.g < 16 → c0.b < 16 → c1.r < 16 → c1.g < 16 → c1.b < 16 → di < 8 → (∀ k, idx k < 4) →
    (packed12 c1 ≤ packed12 c0 ↔ di % 2 = 1) →
    let w := packH c0 c1 di op idx
    hColours w = (c0, c1) ∧ hDistance w = di ∧ w.getLsbD 33 = op ∧
    (∀ x < 4, ∀ y < 4, etcIndex w x y = idx (4 * y + x)) ∧
    selectMode w true = .h ∧ (op = true → selectMode w false = .h)) ∧
  ∀ (a b : Rgb) (di : Nat), a.r < 16 → a.g < 16 → a.b < 16 → b.r < 16 → b.g < 16 → b.b < 16 →
    let x := hOrder a b di
    (packed12 x.2 ≤ packed12 x.1 ↔ di % 2 = 1) ∧
    x.1.r < 16 ∧ x.1.g < 16 ∧ x.1.b < 16 ∧ x.2.r < 16 ∧ x.2.g < 16 ∧ x.2.b < 16

/-- Planar packing (spec/30_encoding.md R105, R110): what `packP` writes reads back as it was, and the codeword is
Planar in every format. -/
def Obligations.PackPlanarRoundTrip : Prop :=
  ∀ o h v : Rgb, o.r < 64 → o.g < 128 → o.b < 64 → h.r < 64 → h.g < 128 → h.b < 64 → v.r < 64 → v.g < 128 → v.b < 64 →
    planarQuantised (packP o h v) = ⟨o, h, v⟩ ∧
    selectMode (packP o h v) true = .planar ∧ selectMode (packP o h v) false = .planar

/-- Individual, Differential and EAC packing (spec/30_encoding.md R95, R99, R100, R103, R111, R112): what `packI`,
`packD` and `packE` write reads back as it was; an Individual codeword has bit 33 clear, and a Differential codeword
whose sums stay in range is Differential. -/
def Obligations.PackHalvesAndEacRoundTrip : Prop :=
  (∀ (b0 b1 : Rgb) (t0 t1 : Nat) (flip : Bool) (idx : Nat → Nat),
    b0.r < 16 → b0.g < 16 → b0.b < 16 → b1.r < 16 → b1.g < 16 → b1.b < 16 → t0 < 8 → t1 < 8 → (∀ k, idx k < 4) →
    let w := packI b0 b1 t0 t1 flip idx
    individualBase w 0 = b0.map ext4 ∧ individualBase w 1 = b1.map ext4 ∧ halfTable w 0 = t0 ∧ halfTable w 1 = t1 ∧
    flipBit w = flip ∧ (∀ x < 4, ∀ y < 4, etcIndex w x y = idx (4 * y + x)) ∧ selectMode w false = .individual) ∧
  (∀ (b : Rgb) (d : Triple Int) (t0 t1 : Nat) (flip op : Bool) (idx : Nat → Nat),
    b.r < 32 → b.g < 32 → b.b < 32 → t0 < 8 → t1 < 8 → (∀ k, idx k < 4) →
    -4 ≤ d.r ∧ d.r ≤ 3 ∧ -4 ≤ d.g ∧ d.g ≤ 3 ∧ -4 ≤ d.b ∧ d.b ≤ 3 →
    0 ≤ b.r + d.r ∧ b.r + d.r ≤ 31 ∧ 0 ≤ b.g + d.g ∧ b.g + d.g ≤ 31 ∧ 0 ≤ b.b + d.b ∧ b.b + d.b ≤ 31 →
    let w := packD b d t0 t1 flip op idx
    differentialBase w 0 = b.map ext5 ∧ differentialBase w 1 = (addDelta b d).map ext5 ∧
    halfTable w 0 = t0 ∧ halfTable w 1 = t1 ∧ flipBit w = flip ∧ w.getLsbD 33 = op ∧
    (∀ x < 4, ∀ y < 4, etcIndex w x y = idx (4 * y + x)) ∧
    selectMode w true = .differential ∧ (op = true → selectMode w false = .differential)) ∧
  ∀ (base mult table : Nat) (idx : Nat → Nat), base < 256 → mult < 16 → table < 16 → (∀ k, idx k < 8) →
    let w := packE base mult table idx
    (w.extractLsb' 56 8).toNat = base ∧ (w.extractLsb' 52 4).toNat = mult ∧ (w.extractLsb' 48 4).toNat = table ∧
    ∀ x < 4, ∀ y < 4, (w.extractLsb' (45 - 3 * (4 * x + y)) 3).toNat = idx (4 * y + x)

/-- The table and index search (spec/43_color_candidates.md R223): the table found is one of the eight, no table and no
choice of allowed indices has a smaller total error, and an earlier table has a greater one; each pixel's index is the first
of least error in the order 3, 2, 0, 1; in a punch-through search index 2 is kept for the transparent pixels and index 0 has
modifier 0. -/
def Obligations.TableSearchIsOptimal : Prop :=
  ∀ (punch : Bool) (base : Rgb) (l : List (Nat × SrcPixel)),
    let found := tableSearch punch base l
    let cost (t v : Nat) (p : SrcPixel) : Nat :=
      if punch && p.transparent then 0
      else pixelError p.rgb (addModifier base (if punch && v == 0 then 0 else modEtc t (unscramble v)))
    let allowed (v : Nat) (p : SrcPixel) : Prop :=
      v < 4 ∧ (punch = true → (v = 2 ↔ p.transparent = true))
    let total (t : Nat) (vs : List Nat) : Nat := (List.zipWith (fun v (q : Nat × SrcPixel) => cost t v q.2) vs l).sum
    found.1 < 8 ∧ found.2.map Prod.fst = l.map Prod.fst ∧
    (∀ q ∈ List.zip (found.2.map Prod.snd) l, allowed q.1 q.2.2 ∧
      ∀ v, allowed v q.2.2 → [3, 2, 0, 1].idxOf v < [3, 2, 0, 1].idxOf q.1 →
        cost found.1 q.1 q.2.2 < cost found.1 v q.2.2) ∧
    ∀ t < 8, ∀ vs : List Nat, vs.length = l.length → (∀ q ∈ List.zip vs l, allowed q.1 q.2.2) →
      total found.1 (found.2.map Prod.snd) ≤ total t vs ∧
      (t < found.1 → total found.1 (found.2.map Prod.snd) < total t vs)

/-! ## EAC generators -/

/-- CAND_EAC8 and CAND_EAC11 (spec/44_alpha_eac_driver.md R271, R274): BadArgument where FORMAT or CH does not allow the
command; else the searched codeword in CW, at byte 8 for the G channel, its loss in LOSS, and for CAND_EAC8 in ALOSS
too, MODE EAC, and nothing else changed. The searches run with the OPEN parameters' defaults (log 9). -/
def Obligations.EacCandidateResults : Prop :=
  ∀ s : State,
    ((∀ f, formatOfCode s.format = some f → isA8 f = false) → exec .candEac8 s = .next (failedWith s .badArgument)) ∧
    (∀ (f : Format) (alpha : List Nat), formatOfCode s.format = some f → isA8 f = true →
      readAlpha s.mem .blk = .ok alpha →
      ∃ (m : List Host.Cell) (loss : DWord), exec .candEac8 s = .next
          { ended s with lvalid := true, loss := loss, aloss := loss, mode := .eac, mem := m } ∧
        loss.toNat = alphaLoss alpha (decodeEac8 (alphaSearch alpha)) ∧
        HoldsCodeword m 0 (alphaSearch alpha) ∧ SameOutside s.mem m 0x080 8) ∧
    ∀ ch : Bool,
      ((∀ f, formatOfCode s.format = some f → allowedFormat (.candEac11 ch) f = false) →
        exec (.candEac11 ch) s = .next (failedWith s .badArgument)) ∧
      ∀ (f : Format) (samples : List Nat), formatOfCode s.format = some f → allowedFormat (.candEac11 ch) f = true →
        readSamples s.mem .blk ch.toNat = .ok samples →
        ∃ (m : List Host.Cell) (loss : DWord) (w : DWord), exec (.candEac11 ch) s = .next
            { ended s with lvalid := true, loss := loss, mode := .eac, mem := m } ∧
          w = (searchSamples params f samples).1 ∧
          loss.toNat = sampleLoss (sampleTargets params (formatSigned f) samples) (decodeEac11 params (formatSigned f) w) ∧
          HoldsCodeword m (8 * ch.toNat) w ∧ SameOutside s.mem m (0x080 + 8 * ch.toNat) 8

/-- The alpha search is exhaustive (spec/44_alpha_eac_driver.md R272): the loss a successful CAND_EAC8 leaves is at most
that of every 64-bit codeword, multiplier 0 included. It is the default of the OPEN parameter ALPHA_SEARCH that the
model runs with (log 9). -/
def Obligations.CandEac8IsOptimal : Prop :=
  ∀ (s t : State) (alpha : List Nat), exec .candEac8 s = .next t → t.err = .none → readAlpha s.mem .blk = .ok alpha →
    ∀ w : DWord, t.loss.toNat ≤ alphaLoss alpha (decodeEac8 w)

/-- The 11-bit search is exhaustive (spec/44_alpha_eac_driver.md R275): the loss a successful CAND_EAC11 leaves is at
most that of every 64-bit codeword, a signed base of −128 included. Targets and projection are OPEN parameters at
their defaults (log 9). -/
def Obligations.CandEac11IsOptimal : Prop :=
  ∀ (ch : Bool) (s t : State) (f : Format) (samples : List Nat), exec (.candEac11 ch) s = .next t → t.err = .none →
    formatOfCode s.format = some f → readSamples s.mem .blk ch.toNat = .ok samples →
    ∀ w : DWord,
      t.loss.toNat ≤ sampleLoss (sampleTargets params (formatSigned f) samples) (decodeEac11 params (formatSigned f) w)

/-! ## ENCODE -/

/-- ENCODE in a colour format (spec/44_alpha_eac_driver.md R277 to R281): the colour codeword it writes is one that a
command of its list builds, LOSS is the loss of that codeword's own decode, MODE its sub-mode; in A8 formats the
first codeword and ALOSS are those of CAND_EAC8; nothing else changes. The generators run with the OPEN parameters' defaults
(log 9). -/
def Obligations.EncodeColourResult : Prop :=
  ∀ (s : State) (f : Format) (px : List SrcPixel) (alpha : List Nat), formatOfCode s.format = some f →
    isColour f = true → readSource s.mem f = .ok px → (isA8 f = true → readAlpha s.mem .blk = .ok alpha) →
    let o := if isA8 f then 8 else 0
    let listed (i : Instr) : Prop := i ∈ triedCommands f px ∨
      (isA1 f = false ∧ f ≠ .etc1 ∧ i ∈ [.candT false 1, .candT false 2, .candH false 1, .candH false 2])
    ∃ (m : List Host.Cell) (w loss aloss : DWord) (i : Instr), exec .encode s = .next
        { ended s with lvalid := true, loss := loss, aloss := aloss, mode := selectMode w (isA1 f), mem := m } ∧
      listed i ∧ w = generatorWord f px i ∧ loss.toNat = colourLoss px ((decodeColour w f).map Rgba.rgb) ∧
      HoldsCodeword m o w ∧ SameOutside s.mem m 0x080 (o + 8) ∧
      (if isA8 f then HoldsCodeword m 0 (alphaSearch alpha) ∧
          aloss.toNat = alphaLoss alpha (decodeEac8 (alphaSearch alpha))
        else aloss = s.aloss)

/-- ENCODE in an 11-bit format (spec/44_alpha_eac_driver.md R277, R282): the codewords CAND_EAC11 finds for one channel
or for both, and LOSS the sum of their losses; nothing else changes but MODE. The search's OPEN parameters are at
their defaults (log 9). -/
def Obligations.EncodeSampleResult : Prop :=
  ∀ (s : State) (f : Format) (s0 s1 : List Nat), formatOfCode s.format = some f → isColour f = false →
    readSamples s.mem .blk 0 = .ok s0 → (formatClass f = .rg11 → readSamples s.mem .blk 1 = .ok s1) →
    let found (l : List Nat) := searchSamples params f l
    ∃ (m : List Host.Cell) (loss : DWord), exec .encode s = .next
        { ended s with lvalid := true, loss := loss, mode := .eac, mem := m } ∧
      HoldsCodeword m 0 (found s0).1 ∧
      (if formatClass f = .rg11 then
          loss.toNat = (found s0).2 + (found s1).2 ∧ HoldsCodeword m 8 (found s1).1 ∧ SameOutside s.mem m 0x080 16
        else loss.toNat = (found s0).2 ∧ SameOutside s.mem m 0x080 8)

/-- ENCODE keeps the best (spec/44_alpha_eac_driver.md R278 to R280, R283): its LOSS is at most the LOSS that each
command of its list leaves when run on the same state, and where T or H has won in an ETC2 RGB or A8 format, at most that of the
same mode at the other two intensities. All run with the OPEN parameters' defaults (log 9). -/
def Obligations.EncodeBestOfTried : Prop :=
  ∀ (s t : State) (f : Format) (px : List SrcPixel), formatOfCode s.format = some f → isColour f = true →
    readSource s.mem f = .ok px → exec .encode s = .next t →
    (∀ i ∈ triedCommands f px, ∃ u, exec i s = .next u ∧ t.loss.toNat ≤ u.loss.toNat) ∧
    (isA1 f = false → f ≠ .etc1 → ∀ n ∈ [(1 : BitVec 2), 2],
      (t.mode = .t → ∃ u, exec (.candT false n) s = .next u ∧ t.loss.toNat ≤ u.loss.toNat) ∧
      (t.mode = .h → ∃ u, exec (.candH false n) s = .next u ∧ t.loss.toNat ≤ u.loss.toNat))

/-- ENCODE is a function of FORMAT and BLK (spec/44_alpha_eac_driver.md R285): two states that agree on these complete
with the same CW bytes of the block's length, the same LOSS and MODE, and in A8 formats the same ALOSS, whatever else
they hold. -/
def Obligations.EncodeDeterminism : Prop :=
  ∀ (s1 s2 t1 : State) (f : Format), formatOfCode s1.format = some f → s2.format = s1.format →
    (∀ a, windowAt a = some .blk → memRead s1.mem a = memRead s2.mem a) → exec .encode s1 = .next t1 →
    ∃ t2, exec .encode s2 = .next t2 ∧ t2.loss = t1.loss ∧ t2.mode = t1.mode ∧ (isA8 f = true → t2.aloss = t1.aloss) ∧
      ∀ j < blockBytes f, memRead t2.mem (0x080 + j) = memRead t1.mem (0x080 + j) ∧
        (memRead t1.mem (0x080 + j)).isSome = true

/-! ## Invariants -/

/-- The state right after reset meets both invariants. -/
def Obligations.InvariantsAtReset : Prop := Inv State.reset ∧ LossInv State.reset

/-- Every step keeps the invariant of the handshake (spec/10_state.md R28, R29; spec/60_exceptions.md R325), of the padded
sizes (spec/10_state.md R33) and of the memory's canonical form (log 1). -/
def Obligations.InvariantKept : Prop := ∀ s t : State, Inv s → step s = .next t → Inv t

/-- Every step keeps LOSS and ALOSS within the bounds of spec/42_metric.md R208. The losses of the searches are those of the
OPEN parameters' defaults (log 9). -/
def Obligations.LossBoundsKept : Prop := ∀ s t : State, LossInv s → step s = .next t → LossInv t
end

