-- ==== Sys2Proof/Laws/Codeword.lean ====
section
/-! SUPPORT. Bit fields of codewords: what a field reads after each write, how a wide field splits into narrow
ones, and the index fields. -/

namespace Sys2Proof.Machine

/-! ## Reading -/

/-- A field is the number its bits spell. -/
theorem field_eq_extract (w : DWord) (hi lo : Nat) : field w hi lo = (w.extractLsb' lo (hi + 1 - lo)).toNat := by
  simp [field, Nat.shiftRight_eq_div_pow]

theorem field_bit (w : DWord) (i : Nat) : field w i i = (w.getLsbD i).toNat := by
  have h : i + 1 - i = 1 := by omega
  rw [field, h, BitVec.getLsbD, Nat.testBit_eq_decide_div_mod_eq, pow_one]
  have : w.toNat / 2 ^ i % 2 < 2 := Nat.mod_lt _ (by omega)
  interval_cases w.toNat / 2 ^ i % 2 <;> simp

theorem field_lt (w : DWord) (hi lo : Nat) : field w hi lo < 2 ^ (hi + 1 - lo) := Nat.mod_lt _ (by positivity)

theorem testBit_field (w : DWord) (hi lo i : Nat) :
    (field w hi lo).testBit i = (decide (i < hi + 1 - lo) && w.getLsbD (lo + i)) := by
  rw [field, Nat.testBit_mod_two_pow, Nat.testBit_div_two_pow, BitVec.getLsbD, Nat.add_comm i lo]

theorem field_zero (hi lo : Nat) : field 0 hi lo = 0 := by simp [field]

/-- The upper part of a field. -/
theorem field_upper (w : DWord) {hi lo mid : Nat} (h1 : lo ≤ mid) (h2 : mid ≤ hi + 1) :
    field w hi mid = field w hi lo / 2 ^ (mid - lo) := by
  apply Nat.eq_of_testBit_eq
  intro i
  rw [Nat.testBit_div_two_pow, testBit_field, testBit_field]
  have : lo + (i + (mid - lo)) = mid + i := by omega
  rw [this]
  congr 1
  simp only [decide_eq_decide]
  omega

/-- The lower part of a field. -/
theorem field_lower (w : DWord) {hi lo mid : Nat} (h1 : lo ≤ mid) (h2 : mid ≤ hi) :
    field w mid lo = field w hi lo % 2 ^ (mid + 1 - lo) := by
  apply Nat.eq_of_testBit_eq
  intro i
  rw [Nat.testBit_mod_two_pow, testBit_field, testBit_field, ← Bool.and_assoc]
  congr 1
  rw [← Bool.decide_and]
  simp only [decide_eq_decide]
  omega

/-- A field is its upper part followed by its lower part. -/
theorem field_split (w : DWord) {hi lo : Nat} (mid : Nat) (h1 : lo < mid) (h2 : mid ≤ hi) :
    field w hi lo = 2 ^ (mid - lo) * field w hi mid + field w (mid - 1) lo := by
  rw [field_upper w (hi := hi) (lo := lo) (mid := mid) (by omega) (by omega),
    field_lower w (hi := hi) (lo := lo) (mid := mid - 1) (by omega) (by omega)]
  have : mid - 1 + 1 - lo = mid - lo := by omega
  rw [this, Nat.div_add_mod]

theorem overflows_iff (base delta : Nat) :
    overflows base delta = true ↔ (base : Int) + sext3 delta < 0 ∨ 31 < (base : Int) + sext3 delta := by
  simp [overflows]

/-! ## Writing -/

theorem getLsbD_putField (w : DWord) (hi lo v i : Nat) (h : hi < 64) :
    (putField w hi lo v).getLsbD i = (w.getLsbD i || (decide (lo ≤ i ∧ i ≤ hi) && v.testBit (i - lo))) := by
  unfold putField
  rw [BitVec.getLsbD_or, BitVec.getLsbD_shiftLeft, BitVec.getLsbD_ofNat, Nat.testBit_mod_two_pow]
  by_cases h1 : lo ≤ i
  · by_cases h2 : i ≤ hi
    · have a1 : i < 64 := by omega
      have a2 : i - lo < 64 := by omega
      have a3 : i - lo < hi + 1 - lo := by omega
      have a4 : ¬i < lo := by omega
      simp [h1, h2, a1, a2, a3, a4]
    · have a3 : ¬i - lo < hi + 1 - lo := by omega
      simp [h2, a3]
  · have a4 : i < lo := by omega
    simp [h1, a4]

/-- A write leaves every field it does not overlap. -/
theorem field_putField_other (w : DWord) {hi lo hi' lo' : Nat} (v : Nat) (h : hi < 64) (hd : hi' < lo ∨ hi < lo') :
    field (putField w hi lo v) hi' lo' = field w hi' lo' := by
  apply Nat.eq_of_testBit_eq
  intro i
  rw [testBit_field, testBit_field, getLsbD_putField _ _ _ _ _ h]
  by_cases hi1 : i < hi' + 1 - lo'
  · have : ¬(lo ≤ lo' + i ∧ lo' + i ≤ hi) := by omega
    simp [hi1, this]
  · simp [hi1]

/-- A write to a field joins its bits, kept to the field's width, to what the field holds. -/
theorem field_putField_same (w : DWord) {hi lo : Nat} (v : Nat) (h : hi < 64) :
    field (putField w hi lo v) hi lo = field w hi lo ||| v % 2 ^ (hi + 1 - lo) := by
  apply Nat.eq_of_testBit_eq
  intro i
  rw [Nat.testBit_or, testBit_field, testBit_field, getLsbD_putField _ _ _ _ _ h, Nat.testBit_mod_two_pow]
  by_cases hi1 : i < hi + 1 - lo
  · have : lo ≤ lo + i ∧ lo + i ≤ hi := by omega
    simp [hi1, this]
  · simp [hi1]

/-! ## Index fields -/

/-- Writing the two bits of one index per listed pixel. -/
theorem getLsbD_foldIdx (idx : Nat → Nat) (i : Nat) (l : List Nat) (hl : ∀ k ∈ l, k < 16) (w : DWord) :
    (l.foldl (fun w k =>
      let s := indexShift (pixelX k) (pixelY k)
      putField (putField w (s + 16) (s + 16) (idx k / 2)) s s (idx k % 2)) w).getLsbD i =
    (w.getLsbD i || l.any fun k =>
      (decide (i = indexShift (pixelX k) (pixelY k) + 16) && (idx k / 2).testBit 0) ||
      (decide (i = indexShift (pixelX k) (pixelY k)) && (idx k).testBit 0)) := by
  induction l generalizing w with
  | nil => simp
  | cons k l ih =>
    have hk : indexShift (pixelX k) (pixelY k) < 16 := by
      have := hl k (by simp)
      simp only [indexShift, pixelX, pixelY]; omega
    rw [List.foldl_cons, ih (fun j hj => hl j (by simp [hj]))]
    simp only [List.any_cons]
    rw [getLsbD_putField _ _ _ _ _ (by omega), getLsbD_putField _ _ _ _ _ (by omega)]
    generalize indexShift (pixelX k) (pixelY k) = s at hk ⊢
    have e1 : (s + 16 ≤ i ∧ i ≤ s + 16) ↔ i = s + 16 := by omega
    have e2 : (s ≤ i ∧ i ≤ s) ↔ i = s := by omega
    simp only [e1, e2]
    by_cases h1 : i = s + 16
    · have : ¬(i = s) := by omega
      simp [h1, Bool.or_assoc]
    · by_cases h2 : i = s
      · simp [h2, Bool.or_assoc]
      · simp [h1, h2]

/-- The bits of a word after the indices are written: bit `s` takes the low bit of the index of the pixel that owns
it, bit `s + 16` the high one. -/
theorem getLsbD_putIdx (w : DWord) (idx : Nat → Nat) (i : Nat) :
    (putIdx w idx).getLsbD i = (w.getLsbD i ||
      (decide (i < 16) && (idx (4 * (i % 4) + i / 4)).testBit 0) ||
      (decide (16 ≤ i ∧ i < 32) && (idx (4 * ((i - 16) % 4) + (i - 16) / 4) / 2).testBit 0)) := by
  unfold putIdx
  rw [getLsbD_foldIdx idx i raster (by simp [raster])]
  rw [Bool.or_assoc]
  congr 1
  rw [Bool.eq_iff_iff]
  simp only [List.any_eq_true, Bool.or_eq_true, Bool.and_eq_true, decide_eq_true_eq, raster, List.mem_range,
    indexShift, pixelX, pixelY]
  constructor
  · rintro ⟨k, hk, ⟨h, hb⟩ | ⟨h, hb⟩⟩
    · right
      have h := of_decide_eq_true h
      refine ⟨by omega, ?_⟩
      have : 4 * ((i - 16) % 4) + (i - 16) / 4 = k := by omega
      rwa [this]
    · left
      have h := of_decide_eq_true h
      refine ⟨by omega, ?_⟩
      have : 4 * (i % 4) + i / 4 = k := by omega
      rwa [this]
  · rintro (⟨h, hb⟩ | ⟨h, hb⟩)
    · exact ⟨_, by omega, .inr ⟨decide_eq_true (by omega), hb⟩⟩
    · exact ⟨_, by omega, .inl ⟨decide_eq_true (by omega), hb⟩⟩

/-- The indices leave every field above bit 31. -/
theorem field_putIdx (w : DWord) (idx : Nat → Nat) {hi lo : Nat} (h : 32 ≤ lo) :
    field (putIdx w idx) hi lo = field w hi lo := by
  apply Nat.eq_of_testBit_eq
  intro i
  rw [testBit_field, testBit_field, getLsbD_putIdx]
  have h1 : ¬lo + i < 16 := by omega
  have h2 : ¬(16 ≤ lo + i ∧ lo + i < 32) := by omega
  simp [h1, h2]

/-- The index of each pixel reads back from a word whose index bits were 0. -/
theorem etcIndex_putIdx (w : DWord) (idx : Nat → Nat) (h0 : field w 31 0 = 0) {x y : Nat} (hx : x < 4) (hy : y < 4)
    (hi : idx (4 * y + x) < 4) : etcIndex (putIdx w idx) x y = idx (4 * y + x) := by
  have hz : ∀ i < 32, w.getLsbD i = false := by
    intro i hi
    have : (field w 31 0).testBit i = false := by rw [h0]; simp
    rw [testBit_field] at this
    simpa [hi] using this
  simp only [etcIndex, indexShift, field_bit, getLsbD_putIdx]
  have e1 : 4 * ((4 * x + y) % 4) + (4 * x + y) / 4 = 4 * y + x := by omega
  have e2 : 4 * x + y < 16 := by omega
  have e3 : ¬(16 ≤ 4 * x + y) := by omega
  have e4 : 4 * x + y + 16 - 16 = 4 * x + y := by omega
  have e5 : 16 ≤ 4 * x + y + 16 ∧ 4 * x + y + 16 < 32 := by omega
  rw [hz _ (by omega), hz _ (by omega), e4, e1]
  generalize idx (4 * y + x) = v at hi ⊢
  simp [e2, e3, e5]
  interval_cases v <;> simp

/-- Without overlap a write touches no index bit. -/
theorem lowField_putField (w : DWord) {hi lo : Nat} (v : Nat) (h : hi < 64) (hl : 32 ≤ lo) :
    field (putField w hi lo v) 31 0 = field w 31 0 := field_putField_other w v h (by omega)

/-- Writing the three bits of one EAC index per listed pixel. -/
theorem getLsbD_foldEac (idx : Nat → Nat) (i : Nat) (l : List Nat) (hl : ∀ k ∈ l, k < 16) (w : DWord) :
    (l.foldl (fun w k =>
      let s := eacShift (pixelX k) (pixelY k)
      putField w (s + 2) s (idx k)) w).getLsbD i =
    (w.getLsbD i || l.any fun k =>
      decide (eacShift (pixelX k) (pixelY k) ≤ i ∧ i ≤ eacShift (pixelX k) (pixelY k) + 2) &&
        (idx k).testBit (i - eacShift (pixelX k) (pixelY k))) := by
  induction l generalizing w with
  | nil => simp
  | cons k l ih =>
    have hk : eacShift (pixelX k) (pixelY k) < 46 := by simp only [eacShift]; omega
    rw [List.foldl_cons, ih (fun j hj => hl j (by simp [hj]))]
    simp only [List.any_cons]
    rw [getLsbD_putField _ _ _ _ _ (by omega), Bool.or_assoc]

/-- The EAC indices leave every field above bit 47. -/
theorem field_foldEac (idx : Nat → Nat) (w : DWord) {hi lo : Nat} (h : 48 ≤ lo) :
    field (raster.foldl (fun w k =>
      let s := eacShift (pixelX k) (pixelY k)
      putField w (s + 2) s (idx k)) w) hi lo = field w hi lo := by
  apply Nat.eq_of_testBit_eq
  intro i
  rw [testBit_field, testBit_field, getLsbD_foldEac idx _ raster (by simp [raster])]
  congr 1
  have : (raster.any fun k =>
      decide (eacShift (pixelX k) (pixelY k) ≤ lo + i ∧ lo + i ≤ eacShift (pixelX k) (pixelY k) + 2) &&
        (idx k).testBit (lo + i - eacShift (pixelX k) (pixelY k))) = false := by
    rw [List.any_eq_false]
    intro k _ hc
    have h1 := of_decide_eq_true (Bool.and_eq_true_iff.mp hc).1
    simp only [eacShift] at h1
    omega
  rw [this, Bool.or_false]

/-- The EAC index of each pixel reads back from a word whose index bits were 0. -/
theorem eacIndex_foldEac (idx : Nat → Nat) (w : DWord) (h0 : field w 47 0 = 0) {x y : Nat} (hx : x < 4) (hy : y < 4) :
    eacIndex (raster.foldl (fun w k =>
      let s := eacShift (pixelX k) (pixelY k)
      putField w (s + 2) s (idx k)) w) x y = idx (4 * y + x) % 8 := by
  have hz : ∀ i < 48, w.getLsbD i = false := by
    intro i hi
    have : (field w 47 0).testBit i = false := by rw [h0]; simp
    rw [testBit_field] at this
    simpa [hi] using this
  apply Nat.eq_of_testBit_eq
  intro i
  unfold eacIndex
  rw [testBit_field, getLsbD_foldEac idx _ raster (by simp [raster])]
  have e8 : (8 : Nat) = 2 ^ 3 := rfl
  rw [e8, Nat.testBit_mod_two_pow]
  have e0 : eacShift x y + 2 + 1 - eacShift x y = 3 := by omega
  rw [e0]
  by_cases hi : i < 3
  · have hs : eacShift x y + i < 48 := by simp only [eacShift]; omega
    rw [hz _ hs, Bool.false_or]
    simp only [hi, decide_true, Bool.true_and]
    rw [Bool.eq_iff_iff, List.any_eq_true]
    constructor
    · rintro ⟨k, hk, hc⟩
      have h1 := of_decide_eq_true (Bool.and_eq_true_iff.mp hc).1
      have h2 := (Bool.and_eq_true_iff.mp hc).2
      have hk16 : k < 16 := by simpa [raster] using hk
      have hkx : k = 4 * y + x := by simp only [eacShift, pixelX, pixelY] at h1; omega
      subst hkx
      have ex : pixelX (4 * y + x) = x := by simp only [pixelX]; omega
      have ey : pixelY (4 * y + x) = y := by simp only [pixelY]; omega
      rw [ex, ey, Nat.add_sub_cancel_left] at h2
      exact h2
    · intro h
      have ex : pixelX (4 * y + x) = x := by simp only [pixelX]; omega
      have ey : pixelY (4 * y + x) = y := by simp only [pixelY]; omega
      refine ⟨4 * y + x, by simp only [raster, List.mem_range]; omega, ?_⟩
      rw [ex, ey, Nat.add_sub_cancel_left, h, Bool.and_true]
      exact decide_eq_true (by omega)
  · simp [hi]

end Sys2Proof.Machine
end

