-- ==== Sys2Proof/Laws/State.lean ====
section
/-! SUPPORT. What each named update does to each field of State, once: every lemma is true by rfl. -/

namespace Sys2Proof.Machine

variable (s : State)

/-! ## acceptCommand -/

@[simp] theorem acceptCommand_seq (v : Word) : (acceptCommand s v).seq = .busy v := rfl
@[simp] theorem acceptCommand_done (v : Word) : (acceptCommand s v).done = false := rfl
@[simp] theorem acceptCommand_accErr (v : Word) : (acceptCommand s v).accErr = s.accErr := rfl
@[simp] theorem acceptCommand_lvalid (v : Word) : (acceptCommand s v).lvalid = s.lvalid := rfl
@[simp] theorem acceptCommand_err (v : Word) : (acceptCommand s v).err = .none := rfl
@[simp] theorem acceptCommand_mode (v : Word) : (acceptCommand s v).mode = s.mode := rfl
@[simp] theorem acceptCommand_format (v : Word) : (acceptCommand s v).format = s.format := rfl
@[simp] theorem acceptCommand_imgW (v : Word) : (acceptCommand s v).imgW = s.imgW := rfl
@[simp] theorem acceptCommand_imgH (v : Word) : (acceptCommand s v).imgH = s.imgH := rfl
@[simp] theorem acceptCommand_padW (v : Word) : (acceptCommand s v).padW = s.padW := rfl
@[simp] theorem acceptCommand_padH (v : Word) : (acceptCommand s v).padH = s.padH := rfl
@[simp] theorem acceptCommand_blockX (v : Word) : (acceptCommand s v).blockX = s.blockX := rfl
@[simp] theorem acceptCommand_blockY (v : Word) : (acceptCommand s v).blockY = s.blockY := rfl
@[simp] theorem acceptCommand_srcCfg (v : Word) : (acceptCommand s v).srcCfg = s.srcCfg := rfl
@[simp] theorem acceptCommand_srcX0 (v : Word) : (acceptCommand s v).srcX0 = s.srcX0 := rfl
@[simp] theorem acceptCommand_srcY0 (v : Word) : (acceptCommand s v).srcY0 = s.srcY0 := rfl
@[simp] theorem acceptCommand_srcX1 (v : Word) : (acceptCommand s v).srcX1 = s.srcX1 := rfl
@[simp] theorem acceptCommand_srcY1 (v : Word) : (acceptCommand s v).srcY1 = s.srcY1 := rfl
@[simp] theorem acceptCommand_loss (v : Word) : (acceptCommand s v).loss = s.loss := rfl
@[simp] theorem acceptCommand_aloss (v : Word) : (acceptCommand s v).aloss = s.aloss := rfl
@[simp] theorem acceptCommand_mem (v : Word) : (acceptCommand s v).mem = s.mem := rfl
@[simp] theorem acceptCommand_hostProg (v : Word) : (acceptCommand s v).hostProg = s.hostProg := rfl
@[simp] theorem acceptCommand_hostPc (v : Word) : (acceptCommand s v).hostPc = s.hostPc := rfl
@[simp] theorem acceptCommand_hostVars (v : Word) : (acceptCommand s v).hostVars = s.hostVars := rfl
@[simp] theorem acceptCommand_turns (v : Word) : (acceptCommand s v).turns = s.turns := rfl
@[simp] theorem acceptCommand_srcPort (v : Word) : (acceptCommand s v).srcPort = s.srcPort := rfl
@[simp] theorem acceptCommand_unspecEra (v : Word) : (acceptCommand s v).unspecEra = s.unspecEra := rfl
@[simp] theorem acceptCommand_portEra (v : Word) : (acceptCommand s v).portEra = s.portEra := rfl

/-! ## complete -/

@[simp] theorem complete_seq : (complete s).seq = .idle := rfl
@[simp] theorem complete_done : (complete s).done = true := rfl
@[simp] theorem complete_accErr : (complete s).accErr = s.accErr := rfl
@[simp] theorem complete_lvalid : (complete s).lvalid = s.lvalid := rfl
@[simp] theorem complete_err : (complete s).err = .none := rfl
@[simp] theorem complete_mode : (complete s).mode = s.mode := rfl
@[simp] theorem complete_format : (complete s).format = s.format := rfl
@[simp] theorem complete_imgW : (complete s).imgW = s.imgW := rfl
@[simp] theorem complete_imgH : (complete s).imgH = s.imgH := rfl
@[simp] theorem complete_padW : (complete s).padW = s.padW := rfl
@[simp] theorem complete_padH : (complete s).padH = s.padH := rfl
@[simp] theorem complete_blockX : (complete s).blockX = s.blockX := rfl
@[simp] theorem complete_blockY : (complete s).blockY = s.blockY := rfl
@[simp] theorem complete_srcCfg : (complete s).srcCfg = s.srcCfg := rfl
@[simp] theorem complete_srcX0 : (complete s).srcX0 = s.srcX0 := rfl
@[simp] theorem complete_srcY0 : (complete s).srcY0 = s.srcY0 := rfl
@[simp] theorem complete_srcX1 : (complete s).srcX1 = s.srcX1 := rfl
@[simp] theorem complete_srcY1 : (complete s).srcY1 = s.srcY1 := rfl
@[simp] theorem complete_loss : (complete s).loss = s.loss := rfl
@[simp] theorem complete_aloss : (complete s).aloss = s.aloss := rfl
@[simp] theorem complete_mem : (complete s).mem = s.mem := rfl
@[simp] theorem complete_hostProg : (complete s).hostProg = s.hostProg := rfl
@[simp] theorem complete_hostPc : (complete s).hostPc = s.hostPc := rfl
@[simp] theorem complete_hostVars : (complete s).hostVars = s.hostVars := rfl
@[simp] theorem complete_turns : (complete s).turns = s.turns := rfl
@[simp] theorem complete_srcPort : (complete s).srcPort = s.srcPort := rfl
@[simp] theorem complete_unspecEra : (complete s).unspecEra = s.unspecEra := rfl
@[simp] theorem complete_portEra : (complete s).portEra = s.portEra := rfl

/-! ## errorCompletion -/

@[simp] theorem errorCompletion_seq (e : CmdError) : (errorCompletion s e).seq = .idle := rfl
@[simp] theorem errorCompletion_done (e : CmdError) : (errorCompletion s e).done = true := rfl
@[simp] theorem errorCompletion_accErr (e : CmdError) : (errorCompletion s e).accErr = s.accErr := rfl
@[simp] theorem errorCompletion_lvalid (e : CmdError) : (errorCompletion s e).lvalid = false := rfl
@[simp] theorem errorCompletion_err (e : CmdError) : (errorCompletion s e).err = errKind e := rfl
@[simp] theorem errorCompletion_mode (e : CmdError) : (errorCompletion s e).mode = s.mode := rfl
@[simp] theorem errorCompletion_format (e : CmdError) : (errorCompletion s e).format = s.format := rfl
@[simp] theorem errorCompletion_imgW (e : CmdError) : (errorCompletion s e).imgW = s.imgW := rfl
@[simp] theorem errorCompletion_imgH (e : CmdError) : (errorCompletion s e).imgH = s.imgH := rfl
@[simp] theorem errorCompletion_padW (e : CmdError) : (errorCompletion s e).padW = s.padW := rfl
@[simp] theorem errorCompletion_padH (e : CmdError) : (errorCompletion s e).padH = s.padH := rfl
@[simp] theorem errorCompletion_blockX (e : CmdError) : (errorCompletion s e).blockX = s.blockX := rfl
@[simp] theorem errorCompletion_blockY (e : CmdError) : (errorCompletion s e).blockY = s.blockY := rfl
@[simp] theorem errorCompletion_srcCfg (e : CmdError) : (errorCompletion s e).srcCfg = s.srcCfg := rfl
@[simp] theorem errorCompletion_srcX0 (e : CmdError) : (errorCompletion s e).srcX0 = s.srcX0 := rfl
@[simp] theorem errorCompletion_srcY0 (e : CmdError) : (errorCompletion s e).srcY0 = s.srcY0 := rfl
@[simp] theorem errorCompletion_srcX1 (e : CmdError) : (errorCompletion s e).srcX1 = s.srcX1 := rfl
@[simp] theorem errorCompletion_srcY1 (e : CmdError) : (errorCompletion s e).srcY1 = s.srcY1 := rfl
@[simp] theorem errorCompletion_loss (e : CmdError) : (errorCompletion s e).loss = s.loss := rfl
@[simp] theorem errorCompletion_aloss (e : CmdError) : (errorCompletion s e).aloss = s.aloss := rfl
@[simp] theorem errorCompletion_mem (e : CmdError) : (errorCompletion s e).mem = s.mem := rfl
@[simp] theorem errorCompletion_hostProg (e : CmdError) : (errorCompletion s e).hostProg = s.hostProg := rfl
@[simp] theorem errorCompletion_hostPc (e : CmdError) : (errorCompletion s e).hostPc = s.hostPc := rfl
@[simp] theorem errorCompletion_hostVars (e : CmdError) : (errorCompletion s e).hostVars = s.hostVars := rfl
@[simp] theorem errorCompletion_turns (e : CmdError) : (errorCompletion s e).turns = s.turns := rfl
@[simp] theorem errorCompletion_srcPort (e : CmdError) : (errorCompletion s e).srcPort = s.srcPort := rfl
@[simp] theorem errorCompletion_unspecEra (e : CmdError) : (errorCompletion s e).unspecEra = s.unspecEra := rfl
@[simp] theorem errorCompletion_portEra (e : CmdError) : (errorCompletion s e).portEra = s.portEra := rfl

/-! ## clearLvalid -/

@[simp] theorem clearLvalid_seq : (clearLvalid s).seq = s.seq := rfl
@[simp] theorem clearLvalid_done : (clearLvalid s).done = s.done := rfl
@[simp] theorem clearLvalid_accErr : (clearLvalid s).accErr = s.accErr := rfl
@[simp] theorem clearLvalid_lvalid : (clearLvalid s).lvalid = false := rfl
@[simp] theorem clearLvalid_err : (clearLvalid s).err = s.err := rfl
@[simp] theorem clearLvalid_mode : (clearLvalid s).mode = s.mode := rfl
@[simp] theorem clearLvalid_format : (clearLvalid s).format = s.format := rfl
@[simp] theorem clearLvalid_imgW : (clearLvalid s).imgW = s.imgW := rfl
@[simp] theorem clearLvalid_imgH : (clearLvalid s).imgH = s.imgH := rfl
@[simp] theorem clearLvalid_padW : (clearLvalid s).padW = s.padW := rfl
@[simp] theorem clearLvalid_padH : (clearLvalid s).padH = s.padH := rfl
@[simp] theorem clearLvalid_blockX : (clearLvalid s).blockX = s.blockX := rfl
@[simp] theorem clearLvalid_blockY : (clearLvalid s).blockY = s.blockY := rfl
@[simp] theorem clearLvalid_srcCfg : (clearLvalid s).srcCfg = s.srcCfg := rfl
@[simp] theorem clearLvalid_srcX0 : (clearLvalid s).srcX0 = s.srcX0 := rfl
@[simp] theorem clearLvalid_srcY0 : (clearLvalid s).srcY0 = s.srcY0 := rfl
@[simp] theorem clearLvalid_srcX1 : (clearLvalid s).srcX1 = s.srcX1 := rfl
@[simp] theorem clearLvalid_srcY1 : (clearLvalid s).srcY1 = s.srcY1 := rfl
@[simp] theorem clearLvalid_loss : (clearLvalid s).loss = s.loss := rfl
@[simp] theorem clearLvalid_aloss : (clearLvalid s).aloss = s.aloss := rfl
@[simp] theorem clearLvalid_mem : (clearLvalid s).mem = s.mem := rfl
@[simp] theorem clearLvalid_hostProg : (clearLvalid s).hostProg = s.hostProg := rfl
@[simp] theorem clearLvalid_hostPc : (clearLvalid s).hostPc = s.hostPc := rfl
@[simp] theorem clearLvalid_hostVars : (clearLvalid s).hostVars = s.hostVars := rfl
@[simp] theorem clearLvalid_turns : (clearLvalid s).turns = s.turns := rfl
@[simp] theorem clearLvalid_srcPort : (clearLvalid s).srcPort = s.srcPort := rfl
@[simp] theorem clearLvalid_unspecEra : (clearLvalid s).unspecEra = s.unspecEra := rfl
@[simp] theorem clearLvalid_portEra : (clearLvalid s).portEra = s.portEra := rfl

/-! ## setLoss -/

@[simp] theorem setLoss_seq (l : Nat) : (setLoss s l).seq = s.seq := rfl
@[simp] theorem setLoss_done (l : Nat) : (setLoss s l).done = s.done := rfl
@[simp] theorem setLoss_accErr (l : Nat) : (setLoss s l).accErr = s.accErr := rfl
@[simp] theorem setLoss_lvalid (l : Nat) : (setLoss s l).lvalid = true := rfl
@[simp] theorem setLoss_err (l : Nat) : (setLoss s l).err = s.err := rfl
@[simp] theorem setLoss_mode (l : Nat) : (setLoss s l).mode = s.mode := rfl
@[simp] theorem setLoss_format (l : Nat) : (setLoss s l).format = s.format := rfl
@[simp] theorem setLoss_imgW (l : Nat) : (setLoss s l).imgW = s.imgW := rfl
@[simp] theorem setLoss_imgH (l : Nat) : (setLoss s l).imgH = s.imgH := rfl
@[simp] theorem setLoss_padW (l : Nat) : (setLoss s l).padW = s.padW := rfl
@[simp] theorem setLoss_padH (l : Nat) : (setLoss s l).padH = s.padH := rfl
@[simp] theorem setLoss_blockX (l : Nat) : (setLoss s l).blockX = s.blockX := rfl
@[simp] theorem setLoss_blockY (l : Nat) : (setLoss s l).blockY = s.blockY := rfl
@[simp] theorem setLoss_srcCfg (l : Nat) : (setLoss s l).srcCfg = s.srcCfg := rfl
@[simp] theorem setLoss_srcX0 (l : Nat) : (setLoss s l).srcX0 = s.srcX0 := rfl
@[simp] theorem setLoss_srcY0 (l : Nat) : (setLoss s l).srcY0 = s.srcY0 := rfl
@[simp] theorem setLoss_srcX1 (l : Nat) : (setLoss s l).srcX1 = s.srcX1 := rfl
@[simp] theorem setLoss_srcY1 (l : Nat) : (setLoss s l).srcY1 = s.srcY1 := rfl
@[simp] theorem setLoss_loss (l : Nat) : (setLoss s l).loss = BitVec.ofNat 64 l := rfl
@[simp] theorem setLoss_aloss (l : Nat) : (setLoss s l).aloss = s.aloss := rfl
@[simp] theorem setLoss_mem (l : Nat) : (setLoss s l).mem = s.mem := rfl
@[simp] theorem setLoss_hostProg (l : Nat) : (setLoss s l).hostProg = s.hostProg := rfl
@[simp] theorem setLoss_hostPc (l : Nat) : (setLoss s l).hostPc = s.hostPc := rfl
@[simp] theorem setLoss_hostVars (l : Nat) : (setLoss s l).hostVars = s.hostVars := rfl
@[simp] theorem setLoss_turns (l : Nat) : (setLoss s l).turns = s.turns := rfl
@[simp] theorem setLoss_srcPort (l : Nat) : (setLoss s l).srcPort = s.srcPort := rfl
@[simp] theorem setLoss_unspecEra (l : Nat) : (setLoss s l).unspecEra = s.unspecEra := rfl
@[simp] theorem setLoss_portEra (l : Nat) : (setLoss s l).portEra = s.portEra := rfl

/-! ## setAloss -/

@[simp] theorem setAloss_seq (l : Nat) : (setAloss s l).seq = s.seq := rfl
@[simp] theorem setAloss_done (l : Nat) : (setAloss s l).done = s.done := rfl
@[simp] theorem setAloss_accErr (l : Nat) : (setAloss s l).accErr = s.accErr := rfl
@[simp] theorem setAloss_lvalid (l : Nat) : (setAloss s l).lvalid = s.lvalid := rfl
@[simp] theorem setAloss_err (l : Nat) : (setAloss s l).err = s.err := rfl
@[simp] theorem setAloss_mode (l : Nat) : (setAloss s l).mode = s.mode := rfl
@[simp] theorem setAloss_format (l : Nat) : (setAloss s l).format = s.format := rfl
@[simp] theorem setAloss_imgW (l : Nat) : (setAloss s l).imgW = s.imgW := rfl
@[simp] theorem setAloss_imgH (l : Nat) : (setAloss s l).imgH = s.imgH := rfl
@[simp] theorem setAloss_padW (l : Nat) : (setAloss s l).padW = s.padW := rfl
@[simp] theorem setAloss_padH (l : Nat) : (setAloss s l).padH = s.padH := rfl
@[simp] theorem setAloss_blockX (l : Nat) : (setAloss s l).blockX = s.blockX := rfl
@[simp] theorem setAloss_blockY (l : Nat) : (setAloss s l).blockY = s.blockY := rfl
@[simp] theorem setAloss_srcCfg (l : Nat) : (setAloss s l).srcCfg = s.srcCfg := rfl
@[simp] theorem setAloss_srcX0 (l : Nat) : (setAloss s l).srcX0 = s.srcX0 := rfl
@[simp] theorem setAloss_srcY0 (l : Nat) : (setAloss s l).srcY0 = s.srcY0 := rfl
@[simp] theorem setAloss_srcX1 (l : Nat) : (setAloss s l).srcX1 = s.srcX1 := rfl
@[simp] theorem setAloss_srcY1 (l : Nat) : (setAloss s l).srcY1 = s.srcY1 := rfl
@[simp] theorem setAloss_loss (l : Nat) : (setAloss s l).loss = s.loss := rfl
@[simp] theorem setAloss_aloss (l : Nat) : (setAloss s l).aloss = BitVec.ofNat 64 l := rfl
@[simp] theorem setAloss_mem (l : Nat) : (setAloss s l).mem = s.mem := rfl
@[simp] theorem setAloss_hostProg (l : Nat) : (setAloss s l).hostProg = s.hostProg := rfl
@[simp] theorem setAloss_hostPc (l : Nat) : (setAloss s l).hostPc = s.hostPc := rfl
@[simp] theorem setAloss_hostVars (l : Nat) : (setAloss s l).hostVars = s.hostVars := rfl
@[simp] theorem setAloss_turns (l : Nat) : (setAloss s l).turns = s.turns := rfl
@[simp] theorem setAloss_srcPort (l : Nat) : (setAloss s l).srcPort = s.srcPort := rfl
@[simp] theorem setAloss_unspecEra (l : Nat) : (setAloss s l).unspecEra = s.unspecEra := rfl
@[simp] theorem setAloss_portEra (l : Nat) : (setAloss s l).portEra = s.portEra := rfl

/-! ## setMode -/

@[simp] theorem setMode_seq (m : Mode) : (setMode s m).seq = s.seq := rfl
@[simp] theorem setMode_done (m : Mode) : (setMode s m).done = s.done := rfl
@[simp] theorem setMode_accErr (m : Mode) : (setMode s m).accErr = s.accErr := rfl
@[simp] theorem setMode_lvalid (m : Mode) : (setMode s m).lvalid = s.lvalid := rfl
@[simp] theorem setMode_err (m : Mode) : (setMode s m).err = s.err := rfl
@[simp] theorem setMode_mode (m : Mode) : (setMode s m).mode = m := rfl
@[simp] theorem setMode_format (m : Mode) : (setMode s m).format = s.format := rfl
@[simp] theorem setMode_imgW (m : Mode) : (setMode s m).imgW = s.imgW := rfl
@[simp] theorem setMode_imgH (m : Mode) : (setMode s m).imgH = s.imgH := rfl
@[simp] theorem setMode_padW (m : Mode) : (setMode s m).padW = s.padW := rfl
@[simp] theorem setMode_padH (m : Mode) : (setMode s m).padH = s.padH := rfl
@[simp] theorem setMode_blockX (m : Mode) : (setMode s m).blockX = s.blockX := rfl
@[simp] theorem setMode_blockY (m : Mode) : (setMode s m).blockY = s.blockY := rfl
@[simp] theorem setMode_srcCfg (m : Mode) : (setMode s m).srcCfg = s.srcCfg := rfl
@[simp] theorem setMode_srcX0 (m : Mode) : (setMode s m).srcX0 = s.srcX0 := rfl
@[simp] theorem setMode_srcY0 (m : Mode) : (setMode s m).srcY0 = s.srcY0 := rfl
@[simp] theorem setMode_srcX1 (m : Mode) : (setMode s m).srcX1 = s.srcX1 := rfl
@[simp] theorem setMode_srcY1 (m : Mode) : (setMode s m).srcY1 = s.srcY1 := rfl
@[simp] theorem setMode_loss (m : Mode) : (setMode s m).loss = s.loss := rfl
@[simp] theorem setMode_aloss (m : Mode) : (setMode s m).aloss = s.aloss := rfl
@[simp] theorem setMode_mem (m : Mode) : (setMode s m).mem = s.mem := rfl
@[simp] theorem setMode_hostProg (m : Mode) : (setMode s m).hostProg = s.hostProg := rfl
@[simp] theorem setMode_hostPc (m : Mode) : (setMode s m).hostPc = s.hostPc := rfl
@[simp] theorem setMode_hostVars (m : Mode) : (setMode s m).hostVars = s.hostVars := rfl
@[simp] theorem setMode_turns (m : Mode) : (setMode s m).turns = s.turns := rfl
@[simp] theorem setMode_srcPort (m : Mode) : (setMode s m).srcPort = s.srcPort := rfl
@[simp] theorem setMode_unspecEra (m : Mode) : (setMode s m).unspecEra = s.unspecEra := rfl
@[simp] theorem setMode_portEra (m : Mode) : (setMode s m).portEra = s.portEra := rfl

/-! ## writeWindow -/

@[simp] theorem writeWindow_seq (w : Window) (o : Nat) (l : List Byte) : (writeWindow s w o l).seq = s.seq := rfl
@[simp] theorem writeWindow_done (w : Window) (o : Nat) (l : List Byte) : (writeWindow s w o l).done = s.done := rfl
@[simp] theorem writeWindow_accErr (w : Window) (o : Nat) (l : List Byte) : (writeWindow s w o l).accErr = s.accErr := rfl
@[simp] theorem writeWindow_lvalid (w : Window) (o : Nat) (l : List Byte) : (writeWindow s w o l).lvalid = s.lvalid := rfl
@[simp] theorem writeWindow_err (w : Window) (o : Nat) (l : List Byte) : (writeWindow s w o l).err = s.err := rfl
@[simp] theorem writeWindow_mode (w : Window) (o : Nat) (l : List Byte) : (writeWindow s w o l).mode = s.mode := rfl
@[simp] theorem writeWindow_format (w : Window) (o : Nat) (l : List Byte) : (writeWindow s w o l).format = s.format := rfl
@[simp] theorem writeWindow_imgW (w : Window) (o : Nat) (l : List Byte) : (writeWindow s w o l).imgW = s.imgW := rfl
@[simp] theorem writeWindow_imgH (w : Window) (o : Nat) (l : List Byte) : (writeWindow s w o l).imgH = s.imgH := rfl
@[simp] theorem writeWindow_padW (w : Window) (o : Nat) (l : List Byte) : (writeWindow s w o l).padW = s.padW := rfl
@[simp] theorem writeWindow_padH (w : Window) (o : Nat) (l : List Byte) : (writeWindow s w o l).padH = s.padH := rfl
@[simp] theorem writeWindow_blockX (w : Window) (o : Nat) (l : List Byte) : (writeWindow s w o l).blockX = s.blockX := rfl
@[simp] theorem writeWindow_blockY (w : Window) (o : Nat) (l : List Byte) : (writeWindow s w o l).blockY = s.blockY := rfl
@[simp] theorem writeWindow_srcCfg (w : Window) (o : Nat) (l : List Byte) : (writeWindow s w o l).srcCfg = s.srcCfg := rfl
@[simp] theorem writeWindow_srcX0 (w : Window) (o : Nat) (l : List Byte) : (writeWindow s w o l).srcX0 = s.srcX0 := rfl
@[simp] theorem writeWindow_srcY0 (w : Window) (o : Nat) (l : List Byte) : (writeWindow s w o l).srcY0 = s.srcY0 := rfl
@[simp] theorem writeWindow_srcX1 (w : Window) (o : Nat) (l : List Byte) : (writeWindow s w o l).srcX1 = s.srcX1 := rfl
@[simp] theorem writeWindow_srcY1 (w : Window) (o : Nat) (l : List Byte) : (writeWindow s w o l).srcY1 = s.srcY1 := rfl
@[simp] theorem writeWindow_loss (w : Window) (o : Nat) (l : List Byte) : (writeWindow s w o l).loss = s.loss := rfl
@[simp] theorem writeWindow_aloss (w : Window) (o : Nat) (l : List Byte) : (writeWindow s w o l).aloss = s.aloss := rfl
@[simp] theorem writeWindow_mem (w : Window) (o : Nat) (l : List Byte) : (writeWindow s w o l).mem = memWriteList s.mem (windowBase w + o) l := rfl
@[simp] theorem writeWindow_hostProg (w : Window) (o : Nat) (l : List Byte) : (writeWindow s w o l).hostProg = s.hostProg := rfl
@[simp] theorem writeWindow_hostPc (w : Window) (o : Nat) (l : List Byte) : (writeWindow s w o l).hostPc = s.hostPc := rfl
@[simp] theorem writeWindow_hostVars (w : Window) (o : Nat) (l : List Byte) : (writeWindow s w o l).hostVars = s.hostVars := rfl
@[simp] theorem writeWindow_turns (w : Window) (o : Nat) (l : List Byte) : (writeWindow s w o l).turns = s.turns := rfl
@[simp] theorem writeWindow_srcPort (w : Window) (o : Nat) (l : List Byte) : (writeWindow s w o l).srcPort = s.srcPort := rfl
@[simp] theorem writeWindow_unspecEra (w : Window) (o : Nat) (l : List Byte) : (writeWindow s w o l).unspecEra = s.unspecEra := rfl
@[simp] theorem writeWindow_portEra (w : Window) (o : Nat) (l : List Byte) : (writeWindow s w o l).portEra = s.portEra := rfl

/-! ## putCodeword -/

@[simp] theorem putCodeword_seq (o : Nat) (c : DWord) : (putCodeword s o c).seq = s.seq := rfl
@[simp] theorem putCodeword_done (o : Nat) (c : DWord) : (putCodeword s o c).done = s.done := rfl
@[simp] theorem putCodeword_accErr (o : Nat) (c : DWord) : (putCodeword s o c).accErr = s.accErr := rfl
@[simp] theorem putCodeword_lvalid (o : Nat) (c : DWord) : (putCodeword s o c).lvalid = s.lvalid := rfl
@[simp] theorem putCodeword_err (o : Nat) (c : DWord) : (putCodeword s o c).err = s.err := rfl
@[simp] theorem putCodeword_mode (o : Nat) (c : DWord) : (putCodeword s o c).mode = s.mode := rfl
@[simp] theorem putCodeword_format (o : Nat) (c : DWord) : (putCodeword s o c).format = s.format := rfl
@[simp] theorem putCodeword_imgW (o : Nat) (c : DWord) : (putCodeword s o c).imgW = s.imgW := rfl
@[simp] theorem putCodeword_imgH (o : Nat) (c : DWord) : (putCodeword s o c).imgH = s.imgH := rfl
@[simp] theorem putCodeword_padW (o : Nat) (c : DWord) : (putCodeword s o c).padW = s.padW := rfl
@[simp] theorem putCodeword_padH (o : Nat) (c : DWord) : (putCodeword s o c).padH = s.padH := rfl
@[simp] theorem putCodeword_blockX (o : Nat) (c : DWord) : (putCodeword s o c).blockX = s.blockX := rfl
@[simp] theorem putCodeword_blockY (o : Nat) (c : DWord) : (putCodeword s o c).blockY = s.blockY := rfl
@[simp] theorem putCodeword_srcCfg (o : Nat) (c : DWord) : (putCodeword s o c).srcCfg = s.srcCfg := rfl
@[simp] theorem putCodeword_srcX0 (o : Nat) (c : DWord) : (putCodeword s o c).srcX0 = s.srcX0 := rfl
@[simp] theorem putCodeword_srcY0 (o : Nat) (c : DWord) : (putCodeword s o c).srcY0 = s.srcY0 := rfl
@[simp] theorem putCodeword_srcX1 (o : Nat) (c : DWord) : (putCodeword s o c).srcX1 = s.srcX1 := rfl
@[simp] theorem putCodeword_srcY1 (o : Nat) (c : DWord) : (putCodeword s o c).srcY1 = s.srcY1 := rfl
@[simp] theorem putCodeword_loss (o : Nat) (c : DWord) : (putCodeword s o c).loss = s.loss := rfl
@[simp] theorem putCodeword_aloss (o : Nat) (c : DWord) : (putCodeword s o c).aloss = s.aloss := rfl
@[simp] theorem putCodeword_mem (o : Nat) (c : DWord) : (putCodeword s o c).mem = memWriteList s.mem (windowBase .cw + o) (bytesBE64 c) := rfl
@[simp] theorem putCodeword_hostProg (o : Nat) (c : DWord) : (putCodeword s o c).hostProg = s.hostProg := rfl
@[simp] theorem putCodeword_hostPc (o : Nat) (c : DWord) : (putCodeword s o c).hostPc = s.hostPc := rfl
@[simp] theorem putCodeword_hostVars (o : Nat) (c : DWord) : (putCodeword s o c).hostVars = s.hostVars := rfl
@[simp] theorem putCodeword_turns (o : Nat) (c : DWord) : (putCodeword s o c).turns = s.turns := rfl
@[simp] theorem putCodeword_srcPort (o : Nat) (c : DWord) : (putCodeword s o c).srcPort = s.srcPort := rfl
@[simp] theorem putCodeword_unspecEra (o : Nat) (c : DWord) : (putCodeword s o c).unspecEra = s.unspecEra := rfl
@[simp] theorem putCodeword_portEra (o : Nat) (c : DWord) : (putCodeword s o c).portEra = s.portEra := rfl

/-! ## softReset -/

@[simp] theorem softReset_seq : (softReset s).seq = s.seq := rfl
@[simp] theorem softReset_done : (softReset s).done = s.done := rfl
@[simp] theorem softReset_accErr : (softReset s).accErr = false := rfl
@[simp] theorem softReset_lvalid : (softReset s).lvalid = false := rfl
@[simp] theorem softReset_err : (softReset s).err = s.err := rfl
@[simp] theorem softReset_mode : (softReset s).mode = .none := rfl
@[simp] theorem softReset_format : (softReset s).format = 0 := rfl
@[simp] theorem softReset_imgW : (softReset s).imgW = 0 := rfl
@[simp] theorem softReset_imgH : (softReset s).imgH = 0 := rfl
@[simp] theorem softReset_padW : (softReset s).padW = 0 := rfl
@[simp] theorem softReset_padH : (softReset s).padH = 0 := rfl
@[simp] theorem softReset_blockX : (softReset s).blockX = 0 := rfl
@[simp] theorem softReset_blockY : (softReset s).blockY = 0 := rfl
@[simp] theorem softReset_srcCfg : (softReset s).srcCfg = 0x2 := rfl
@[simp] theorem softReset_srcX0 : (softReset s).srcX0 = 0 := rfl
@[simp] theorem softReset_srcY0 : (softReset s).srcY0 = 0 := rfl
@[simp] theorem softReset_srcX1 : (softReset s).srcX1 = 0 := rfl
@[simp] theorem softReset_srcY1 : (softReset s).srcY1 = 0 := rfl
@[simp] theorem softReset_loss : (softReset s).loss = 0 := rfl
@[simp] theorem softReset_aloss : (softReset s).aloss = 0 := rfl
@[simp] theorem softReset_mem : (softReset s).mem = s.mem := rfl
@[simp] theorem softReset_hostProg : (softReset s).hostProg = s.hostProg := rfl
@[simp] theorem softReset_hostPc : (softReset s).hostPc = s.hostPc := rfl
@[simp] theorem softReset_hostVars : (softReset s).hostVars = s.hostVars := rfl
@[simp] theorem softReset_turns : (softReset s).turns = s.turns := rfl
@[simp] theorem softReset_srcPort : (softReset s).srcPort = s.srcPort := rfl
@[simp] theorem softReset_unspecEra : (softReset s).unspecEra = s.unspecEra := rfl
@[simp] theorem softReset_portEra : (softReset s).portEra = s.portEra := rfl

/-! ## hardwareReset -/

@[simp] theorem hardwareReset_seq : (hardwareReset s).seq = .idle := rfl
@[simp] theorem hardwareReset_done : (hardwareReset s).done = false := rfl
@[simp] theorem hardwareReset_accErr : (hardwareReset s).accErr = false := rfl
@[simp] theorem hardwareReset_lvalid : (hardwareReset s).lvalid = false := rfl
@[simp] theorem hardwareReset_err : (hardwareReset s).err = .none := rfl
@[simp] theorem hardwareReset_mode : (hardwareReset s).mode = .none := rfl
@[simp] theorem hardwareReset_format : (hardwareReset s).format = 0 := rfl
@[simp] theorem hardwareReset_imgW : (hardwareReset s).imgW = 0 := rfl
@[simp] theorem hardwareReset_imgH : (hardwareReset s).imgH = 0 := rfl
@[simp] theorem hardwareReset_padW : (hardwareReset s).padW = 0 := rfl
@[simp] theorem hardwareReset_padH : (hardwareReset s).padH = 0 := rfl
@[simp] theorem hardwareReset_blockX : (hardwareReset s).blockX = 0 := rfl
@[simp] theorem hardwareReset_blockY : (hardwareReset s).blockY = 0 := rfl
@[simp] theorem hardwareReset_srcCfg : (hardwareReset s).srcCfg = 0x2 := rfl
@[simp] theorem hardwareReset_srcX0 : (hardwareReset s).srcX0 = 0 := rfl
@[simp] theorem hardwareReset_srcY0 : (hardwareReset s).srcY0 = 0 := rfl
@[simp] theorem hardwareReset_srcX1 : (hardwareReset s).srcX1 = 0 := rfl
@[simp] theorem hardwareReset_srcY1 : (hardwareReset s).srcY1 = 0 := rfl
@[simp] theorem hardwareReset_loss : (hardwareReset s).loss = 0 := rfl
@[simp] theorem hardwareReset_aloss : (hardwareReset s).aloss = 0 := rfl
@[simp] theorem hardwareReset_mem : (hardwareReset s).mem = [] := rfl
@[simp] theorem hardwareReset_hostProg : (hardwareReset s).hostProg = s.hostProg := rfl
@[simp] theorem hardwareReset_hostPc : (hardwareReset s).hostPc = s.hostPc := rfl
@[simp] theorem hardwareReset_hostVars : (hardwareReset s).hostVars = s.hostVars := rfl
@[simp] theorem hardwareReset_turns : (hardwareReset s).turns = s.turns := rfl
@[simp] theorem hardwareReset_srcPort : (hardwareReset s).srcPort = s.srcPort := rfl
@[simp] theorem hardwareReset_unspecEra : (hardwareReset s).unspecEra = s.unspecEra + 1 := rfl
@[simp] theorem hardwareReset_portEra : (hardwareReset s).portEra = s.portEra := rfl

/-! ## accessError -/

@[simp] theorem accessError_seq : (accessError s).seq = s.seq := rfl
@[simp] theorem accessError_done : (accessError s).done = s.done := rfl
@[simp] theorem accessError_accErr : (accessError s).accErr = true := rfl
@[simp] theorem accessError_lvalid : (accessError s).lvalid = s.lvalid := rfl
@[simp] theorem accessError_err : (accessError s).err = s.err := rfl
@[simp] theorem accessError_mode : (accessError s).mode = s.mode := rfl
@[simp] theorem accessError_format : (accessError s).format = s.format := rfl
@[simp] theorem accessError_imgW : (accessError s).imgW = s.imgW := rfl
@[simp] theorem accessError_imgH : (accessError s).imgH = s.imgH := rfl
@[simp] theorem accessError_padW : (accessError s).padW = s.padW := rfl
@[simp] theorem accessError_padH : (accessError s).padH = s.padH := rfl
@[simp] theorem accessError_blockX : (accessError s).blockX = s.blockX := rfl
@[simp] theorem accessError_blockY : (accessError s).blockY = s.blockY := rfl
@[simp] theorem accessError_srcCfg : (accessError s).srcCfg = s.srcCfg := rfl
@[simp] theorem accessError_srcX0 : (accessError s).srcX0 = s.srcX0 := rfl
@[simp] theorem accessError_srcY0 : (accessError s).srcY0 = s.srcY0 := rfl
@[simp] theorem accessError_srcX1 : (accessError s).srcX1 = s.srcX1 := rfl
@[simp] theorem accessError_srcY1 : (accessError s).srcY1 = s.srcY1 := rfl
@[simp] theorem accessError_loss : (accessError s).loss = s.loss := rfl
@[simp] theorem accessError_aloss : (accessError s).aloss = s.aloss := rfl
@[simp] theorem accessError_mem : (accessError s).mem = s.mem := rfl
@[simp] theorem accessError_hostProg : (accessError s).hostProg = s.hostProg := rfl
@[simp] theorem accessError_hostPc : (accessError s).hostPc = s.hostPc := rfl
@[simp] theorem accessError_hostVars : (accessError s).hostVars = s.hostVars := rfl
@[simp] theorem accessError_turns : (accessError s).turns = s.turns := rfl
@[simp] theorem accessError_srcPort : (accessError s).srcPort = s.srcPort := rfl
@[simp] theorem accessError_unspecEra : (accessError s).unspecEra = s.unspecEra := rfl
@[simp] theorem accessError_portEra : (accessError s).portEra = s.portEra := rfl

/-! ## afterReads -/

@[simp] theorem afterReads_seq (r : List SrcAnswer) : (afterReads s r).seq = s.seq := rfl
@[simp] theorem afterReads_done (r : List SrcAnswer) : (afterReads s r).done = s.done := rfl
@[simp] theorem afterReads_accErr (r : List SrcAnswer) : (afterReads s r).accErr = s.accErr := rfl
@[simp] theorem afterReads_lvalid (r : List SrcAnswer) : (afterReads s r).lvalid = s.lvalid := rfl
@[simp] theorem afterReads_err (r : List SrcAnswer) : (afterReads s r).err = s.err := rfl
@[simp] theorem afterReads_mode (r : List SrcAnswer) : (afterReads s r).mode = s.mode := rfl
@[simp] theorem afterReads_format (r : List SrcAnswer) : (afterReads s r).format = s.format := rfl
@[simp] theorem afterReads_imgW (r : List SrcAnswer) : (afterReads s r).imgW = s.imgW := rfl
@[simp] theorem afterReads_imgH (r : List SrcAnswer) : (afterReads s r).imgH = s.imgH := rfl
@[simp] theorem afterReads_padW (r : List SrcAnswer) : (afterReads s r).padW = s.padW := rfl
@[simp] theorem afterReads_padH (r : List SrcAnswer) : (afterReads s r).padH = s.padH := rfl
@[simp] theorem afterReads_blockX (r : List SrcAnswer) : (afterReads s r).blockX = s.blockX := rfl
@[simp] theorem afterReads_blockY (r : List SrcAnswer) : (afterReads s r).blockY = s.blockY := rfl
@[simp] theorem afterReads_srcCfg (r : List SrcAnswer) : (afterReads s r).srcCfg = s.srcCfg := rfl
@[simp] theorem afterReads_srcX0 (r : List SrcAnswer) : (afterReads s r).srcX0 = s.srcX0 := rfl
@[simp] theorem afterReads_srcY0 (r : List SrcAnswer) : (afterReads s r).srcY0 = s.srcY0 := rfl
@[simp] theorem afterReads_srcX1 (r : List SrcAnswer) : (afterReads s r).srcX1 = s.srcX1 := rfl
@[simp] theorem afterReads_srcY1 (r : List SrcAnswer) : (afterReads s r).srcY1 = s.srcY1 := rfl
@[simp] theorem afterReads_loss (r : List SrcAnswer) : (afterReads s r).loss = s.loss := rfl
@[simp] theorem afterReads_aloss (r : List SrcAnswer) : (afterReads s r).aloss = s.aloss := rfl
@[simp] theorem afterReads_mem (r : List SrcAnswer) : (afterReads s r).mem = s.mem := rfl
@[simp] theorem afterReads_hostProg (r : List SrcAnswer) : (afterReads s r).hostProg = s.hostProg := rfl
@[simp] theorem afterReads_hostPc (r : List SrcAnswer) : (afterReads s r).hostPc = s.hostPc := rfl
@[simp] theorem afterReads_hostVars (r : List SrcAnswer) : (afterReads s r).hostVars = s.hostVars := rfl
@[simp] theorem afterReads_turns (r : List SrcAnswer) : (afterReads s r).turns = s.turns := rfl
@[simp] theorem afterReads_srcPort (r : List SrcAnswer) : (afterReads s r).srcPort = r := rfl
@[simp] theorem afterReads_unspecEra (r : List SrcAnswer) : (afterReads s r).unspecEra = s.unspecEra := rfl
@[simp] theorem afterReads_portEra (r : List SrcAnswer) : (afterReads s r).portEra = s.portEra + 1 := rfl

/-! ## forgetBlock -/

@[simp] theorem forgetBlock_seq : (forgetBlock s).seq = s.seq := rfl
@[simp] theorem forgetBlock_done : (forgetBlock s).done = s.done := rfl
@[simp] theorem forgetBlock_accErr : (forgetBlock s).accErr = s.accErr := rfl
@[simp] theorem forgetBlock_lvalid : (forgetBlock s).lvalid = s.lvalid := rfl
@[simp] theorem forgetBlock_err : (forgetBlock s).err = s.err := rfl
@[simp] theorem forgetBlock_mode : (forgetBlock s).mode = s.mode := rfl
@[simp] theorem forgetBlock_format : (forgetBlock s).format = s.format := rfl
@[simp] theorem forgetBlock_imgW : (forgetBlock s).imgW = s.imgW := rfl
@[simp] theorem forgetBlock_imgH : (forgetBlock s).imgH = s.imgH := rfl
@[simp] theorem forgetBlock_padW : (forgetBlock s).padW = s.padW := rfl
@[simp] theorem forgetBlock_padH : (forgetBlock s).padH = s.padH := rfl
@[simp] theorem forgetBlock_blockX : (forgetBlock s).blockX = s.blockX := rfl
@[simp] theorem forgetBlock_blockY : (forgetBlock s).blockY = s.blockY := rfl
@[simp] theorem forgetBlock_srcCfg : (forgetBlock s).srcCfg = s.srcCfg := rfl
@[simp] theorem forgetBlock_srcX0 : (forgetBlock s).srcX0 = s.srcX0 := rfl
@[simp] theorem forgetBlock_srcY0 : (forgetBlock s).srcY0 = s.srcY0 := rfl
@[simp] theorem forgetBlock_srcX1 : (forgetBlock s).srcX1 = s.srcX1 := rfl
@[simp] theorem forgetBlock_srcY1 : (forgetBlock s).srcY1 = s.srcY1 := rfl
@[simp] theorem forgetBlock_loss : (forgetBlock s).loss = s.loss := rfl
@[simp] theorem forgetBlock_aloss : (forgetBlock s).aloss = s.aloss := rfl
@[simp] theorem forgetBlock_mem : (forgetBlock s).mem = memForget s.mem 0x100 64 := rfl
@[simp] theorem forgetBlock_hostProg : (forgetBlock s).hostProg = s.hostProg := rfl
@[simp] theorem forgetBlock_hostPc : (forgetBlock s).hostPc = s.hostPc := rfl
@[simp] theorem forgetBlock_hostVars : (forgetBlock s).hostVars = s.hostVars := rfl
@[simp] theorem forgetBlock_turns : (forgetBlock s).turns = s.turns := rfl
@[simp] theorem forgetBlock_srcPort : (forgetBlock s).srcPort = s.srcPort := rfl
@[simp] theorem forgetBlock_unspecEra : (forgetBlock s).unspecEra = s.unspecEra + 1 := rfl
@[simp] theorem forgetBlock_portEra : (forgetBlock s).portEra = s.portEra := rfl

/-! ## loadHeader -/

@[simp] theorem loadHeader_seq (l : List Nat) : (loadHeader s l).seq = s.seq := rfl
@[simp] theorem loadHeader_done (l : List Nat) : (loadHeader s l).done = s.done := rfl
@[simp] theorem loadHeader_accErr (l : List Nat) : (loadHeader s l).accErr = s.accErr := rfl
@[simp] theorem loadHeader_lvalid (l : List Nat) : (loadHeader s l).lvalid = s.lvalid := rfl
@[simp] theorem loadHeader_err (l : List Nat) : (loadHeader s l).err = s.err := rfl
@[simp] theorem loadHeader_mode (l : List Nat) : (loadHeader s l).mode = s.mode := rfl
@[simp] theorem loadHeader_format (l : List Nat) : (loadHeader s l).format = BitVec.ofNat 8 (l.getD 7 0) := rfl
@[simp] theorem loadHeader_imgW (l : List Nat) : (loadHeader s l).imgW = BitVec.ofNat 32 (headerField l 12) := rfl
@[simp] theorem loadHeader_imgH (l : List Nat) : (loadHeader s l).imgH = BitVec.ofNat 32 (headerField l 14) := rfl
@[simp] theorem loadHeader_padW (l : List Nat) : (loadHeader s l).padW = BitVec.ofNat 32 (headerField l 8) := rfl
@[simp] theorem loadHeader_padH (l : List Nat) : (loadHeader s l).padH = BitVec.ofNat 32 (headerField l 10) := rfl
@[simp] theorem loadHeader_blockX (l : List Nat) : (loadHeader s l).blockX = s.blockX := rfl
@[simp] theorem loadHeader_blockY (l : List Nat) : (loadHeader s l).blockY = s.blockY := rfl
@[simp] theorem loadHeader_srcCfg (l : List Nat) : (loadHeader s l).srcCfg = s.srcCfg := rfl
@[simp] theorem loadHeader_srcX0 (l : List Nat) : (loadHeader s l).srcX0 = s.srcX0 := rfl
@[simp] theorem loadHeader_srcY0 (l : List Nat) : (loadHeader s l).srcY0 = s.srcY0 := rfl
@[simp] theorem loadHeader_srcX1 (l : List Nat) : (loadHeader s l).srcX1 = s.srcX1 := rfl
@[simp] theorem loadHeader_srcY1 (l : List Nat) : (loadHeader s l).srcY1 = s.srcY1 := rfl
@[simp] theorem loadHeader_loss (l : List Nat) : (loadHeader s l).loss = s.loss := rfl
@[simp] theorem loadHeader_aloss (l : List Nat) : (loadHeader s l).aloss = s.aloss := rfl
@[simp] theorem loadHeader_mem (l : List Nat) : (loadHeader s l).mem = s.mem := rfl
@[simp] theorem loadHeader_hostProg (l : List Nat) : (loadHeader s l).hostProg = s.hostProg := rfl
@[simp] theorem loadHeader_hostPc (l : List Nat) : (loadHeader s l).hostPc = s.hostPc := rfl
@[simp] theorem loadHeader_hostVars (l : List Nat) : (loadHeader s l).hostVars = s.hostVars := rfl
@[simp] theorem loadHeader_turns (l : List Nat) : (loadHeader s l).turns = s.turns := rfl
@[simp] theorem loadHeader_srcPort (l : List Nat) : (loadHeader s l).srcPort = s.srcPort := rfl
@[simp] theorem loadHeader_unspecEra (l : List Nat) : (loadHeader s l).unspecEra = s.unspecEra := rfl
@[simp] theorem loadHeader_portEra (l : List Nat) : (loadHeader s l).portEra = s.portEra := rfl

/-! ## hostJump -/

@[simp] theorem hostJump_seq (p : Nat) : (hostJump s p).seq = s.seq := rfl
@[simp] theorem hostJump_done (p : Nat) : (hostJump s p).done = s.done := rfl
@[simp] theorem hostJump_accErr (p : Nat) : (hostJump s p).accErr = s.accErr := rfl
@[simp] theorem hostJump_lvalid (p : Nat) : (hostJump s p).lvalid = s.lvalid := rfl
@[simp] theorem hostJump_err (p : Nat) : (hostJump s p).err = s.err := rfl
@[simp] theorem hostJump_mode (p : Nat) : (hostJump s p).mode = s.mode := rfl
@[simp] theorem hostJump_format (p : Nat) : (hostJump s p).format = s.format := rfl
@[simp] theorem hostJump_imgW (p : Nat) : (hostJump s p).imgW = s.imgW := rfl
@[simp] theorem hostJump_imgH (p : Nat) : (hostJump s p).imgH = s.imgH := rfl
@[simp] theorem hostJump_padW (p : Nat) : (hostJump s p).padW = s.padW := rfl
@[simp] theorem hostJump_padH (p : Nat) : (hostJump s p).padH = s.padH := rfl
@[simp] theorem hostJump_blockX (p : Nat) : (hostJump s p).blockX = s.blockX := rfl
@[simp] theorem hostJump_blockY (p : Nat) : (hostJump s p).blockY = s.blockY := rfl
@[simp] theorem hostJump_srcCfg (p : Nat) : (hostJump s p).srcCfg = s.srcCfg := rfl
@[simp] theorem hostJump_srcX0 (p : Nat) : (hostJump s p).srcX0 = s.srcX0 := rfl
@[simp] theorem hostJump_srcY0 (p : Nat) : (hostJump s p).srcY0 = s.srcY0 := rfl
@[simp] theorem hostJump_srcX1 (p : Nat) : (hostJump s p).srcX1 = s.srcX1 := rfl
@[simp] theorem hostJump_srcY1 (p : Nat) : (hostJump s p).srcY1 = s.srcY1 := rfl
@[simp] theorem hostJump_loss (p : Nat) : (hostJump s p).loss = s.loss := rfl
@[simp] theorem hostJump_aloss (p : Nat) : (hostJump s p).aloss = s.aloss := rfl
@[simp] theorem hostJump_mem (p : Nat) : (hostJump s p).mem = s.mem := rfl
@[simp] theorem hostJump_hostProg (p : Nat) : (hostJump s p).hostProg = s.hostProg := rfl
@[simp] theorem hostJump_hostPc (p : Nat) : (hostJump s p).hostPc = p := rfl
@[simp] theorem hostJump_hostVars (p : Nat) : (hostJump s p).hostVars = s.hostVars := rfl
@[simp] theorem hostJump_turns (p : Nat) : (hostJump s p).turns = s.turns := rfl
@[simp] theorem hostJump_srcPort (p : Nat) : (hostJump s p).srcPort = s.srcPort := rfl
@[simp] theorem hostJump_unspecEra (p : Nat) : (hostJump s p).unspecEra = s.unspecEra := rfl
@[simp] theorem hostJump_portEra (p : Nat) : (hostJump s p).portEra = s.portEra := rfl

/-! ## placeCommand -/

@[simp] theorem placeCommand_seq (v : Word) : (placeCommand s v).seq = .busy v := rfl
@[simp] theorem placeCommand_done (v : Word) : (placeCommand s v).done = false := rfl
@[simp] theorem placeCommand_accErr (v : Word) : (placeCommand s v).accErr = s.accErr := rfl
@[simp] theorem placeCommand_lvalid (v : Word) : (placeCommand s v).lvalid = s.lvalid := rfl
@[simp] theorem placeCommand_err (v : Word) : (placeCommand s v).err = .none := rfl
@[simp] theorem placeCommand_mode (v : Word) : (placeCommand s v).mode = s.mode := rfl
@[simp] theorem placeCommand_format (v : Word) : (placeCommand s v).format = s.format := rfl
@[simp] theorem placeCommand_imgW (v : Word) : (placeCommand s v).imgW = s.imgW := rfl
@[simp] theorem placeCommand_imgH (v : Word) : (placeCommand s v).imgH = s.imgH := rfl
@[simp] theorem placeCommand_padW (v : Word) : (placeCommand s v).padW = s.padW := rfl
@[simp] theorem placeCommand_padH (v : Word) : (placeCommand s v).padH = s.padH := rfl
@[simp] theorem placeCommand_blockX (v : Word) : (placeCommand s v).blockX = s.blockX := rfl
@[simp] theorem placeCommand_blockY (v : Word) : (placeCommand s v).blockY = s.blockY := rfl
@[simp] theorem placeCommand_srcCfg (v : Word) : (placeCommand s v).srcCfg = s.srcCfg := rfl
@[simp] theorem placeCommand_srcX0 (v : Word) : (placeCommand s v).srcX0 = s.srcX0 := rfl
@[simp] theorem placeCommand_srcY0 (v : Word) : (placeCommand s v).srcY0 = s.srcY0 := rfl
@[simp] theorem placeCommand_srcX1 (v : Word) : (placeCommand s v).srcX1 = s.srcX1 := rfl
@[simp] theorem placeCommand_srcY1 (v : Word) : (placeCommand s v).srcY1 = s.srcY1 := rfl
@[simp] theorem placeCommand_loss (v : Word) : (placeCommand s v).loss = s.loss := rfl
@[simp] theorem placeCommand_aloss (v : Word) : (placeCommand s v).aloss = s.aloss := rfl
@[simp] theorem placeCommand_mem (v : Word) : (placeCommand s v).mem = s.mem := rfl
@[simp] theorem placeCommand_hostProg (v : Word) : (placeCommand s v).hostProg = s.hostProg := rfl
@[simp] theorem placeCommand_hostPc (v : Word) : (placeCommand s v).hostPc = s.hostPc := rfl
@[simp] theorem placeCommand_hostVars (v : Word) : (placeCommand s v).hostVars = s.hostVars := rfl
@[simp] theorem placeCommand_turns (v : Word) : (placeCommand s v).turns = [] := rfl
@[simp] theorem placeCommand_srcPort (v : Word) : (placeCommand s v).srcPort = s.srcPort := rfl
@[simp] theorem placeCommand_unspecEra (v : Word) : (placeCommand s v).unspecEra = s.unspecEra := rfl
@[simp] theorem placeCommand_portEra (v : Word) : (placeCommand s v).portEra = s.portEra := rfl

end Sys2Proof.Machine
end

