-- ==== Sys2Proof/Laws/Memory.lean ====
section
/-! SUPPORT. The byte windows' memory: what a read gives after each operation, and that every operation
keeps the canonical form. -/

namespace Sys2Proof.Machine

/-! ## Reads after writes -/

theorem memRead_memWrite (m : List Host.Cell) (a b : Nat) (v : Byte) :
    memRead (memWrite m a v) b = if b = a then some v else memRead m b := by
  induction m with
  | nil => simp [memWrite, memRead]
  | cons c m ih =>
    obtain ⟨k, u⟩ := c
    simp only [memWrite]
    split
    · simp [memRead]
    · split
      · subst_vars
        by_cases h : b = k <;> simp [memRead, h]
      · by_cases h : b = k
        · subst h
          have hne : b ≠ a := by omega
          simp [memRead, hne]
        · simp [memRead, h, ih]

@[simp] theorem memRead_memWrite_same (m : List Host.Cell) (a : Nat) (v : Byte) :
    memRead (memWrite m a v) a = some v := by simp [memRead_memWrite]

theorem memRead_memWrite_other (m : List Host.Cell) {a b : Nat} (v : Byte) (h : b ≠ a) :
    memRead (memWrite m a v) b = memRead m b := by simp [memRead_memWrite, h]

theorem memRead_memWriteList (m : List Host.Cell) (a b : Nat) (l : List Byte) :
    memRead (memWriteList m a l) b = if a ≤ b ∧ b < a + l.length then l[b - a]? else memRead m b := by
  induction l generalizing m a with
  | nil =>
    simp only [memWriteList, List.length_nil]
    rw [if_neg (by omega)]
  | cons v vs ih =>
    rw [memWriteList, ih, memRead_memWrite]
    simp only [List.length_cons]
    by_cases h1 : b = a
    · subst h1
      simp
    · by_cases h2 : a + 1 ≤ b ∧ b < a + 1 + vs.length
      · have h3 : a ≤ b ∧ b < a + (vs.length + 1) := by omega
        have h4 : b - a = (b - (a + 1)) + 1 := by omega
        rw [if_pos h2, if_pos h3, h4, List.getElem?_cons_succ]
      · have h3 : ¬(a ≤ b ∧ b < a + (vs.length + 1)) := by omega
        rw [if_neg h2, if_neg h3, if_neg h1]

theorem memRead_memWriteList_outside (m : List Host.Cell) (a b : Nat) (l : List Byte)
    (h : b < a ∨ a + l.length ≤ b) : memRead (memWriteList m a l) b = memRead m b := by
  rw [memRead_memWriteList, if_neg (by omega)]

theorem memRead_memForget (m : List Host.Cell) (a n b : Nat) :
    memRead (memForget m a n) b = if a ≤ b ∧ b < a + n then none else memRead m b := by
  induction m with
  | nil => simp [memForget, memRead]
  | cons c m ih =>
    obtain ⟨k, u⟩ := c
    simp only [memForget, List.filter_cons] at ih ⊢
    by_cases hk : a ≤ k ∧ k < a + n
    · have hf : (!(decide (a ≤ k) && decide (k < a + n))) = false := by simp [hk.1, hk.2]
      simp only [hf, Bool.false_eq_true, if_false]
      rw [ih]
      by_cases hb : a ≤ b ∧ b < a + n
      · simp [hb]
      · have hne : b ≠ k := by rintro rfl; exact hb hk
        simp [hb, memRead, hne]
    · have hf : (!(decide (a ≤ k) && decide (k < a + n))) = true := by
        simp only [Bool.not_eq_true', Bool.and_eq_false_iff, decide_eq_false_iff_not]; omega
      simp only [hf, if_true, memRead]
      rw [ih]
      by_cases hbk : b = k
      · subst hbk; simp [hk]
      · simp [hbk]

/-! ## The canonical form -/

/-- The canonical form of a non-empty memory. -/
theorem memWf_cons (a : Nat) (v : Byte) (m : List Host.Cell) :
    memWf ((a, v) :: m) = true ↔ (windowAt a).isSome ∧ (∀ c ∈ m.head?, a < c.1) ∧ memWf m = true := by
  cases m with
  | nil => simp [memWf]
  | cons c m => simp [memWf, and_assoc]

theorem memWrite_head (m : List Host.Cell) (a : Nat) (v : Byte) :
    ∀ c ∈ (memWrite m a v).head?, c.1 = a ∨ c ∈ m.head? := by
  intro c hc
  cases m with
  | nil => simp [memWrite] at hc; left; simp [← hc]
  | cons d m =>
    obtain ⟨k, u⟩ := d
    simp only [memWrite] at hc
    split at hc
    · simp at hc; left; simp [← hc]
    · split at hc
      · simp at hc; left; simp [← hc]
      · simp at hc; right; simp [← hc]

theorem memWf_memWrite (m : List Host.Cell) (a : Nat) (v : Byte) (hm : memWf m = true)
    (ha : (windowAt a).isSome) : memWf (memWrite m a v) = true := by
  induction m with
  | nil => simp [memWrite, memWf, ha]
  | cons d m ih =>
    obtain ⟨k, u⟩ := d
    have hd := (memWf_cons k u m).mp hm
    simp only [memWrite]
    split
    · rw [memWf_cons]
      exact ⟨ha, by simpa using ‹a < k›, hm⟩
    · split
      · subst_vars
        exact (memWf_cons _ _ _).mpr ⟨ha, hd.2.1, hd.2.2⟩
      · rw [memWf_cons]
        refine ⟨hd.1, ?_, ih hd.2.2⟩
        intro c hc
        rcases memWrite_head m a v c hc with h | h
        · omega
        · exact hd.2.1 c h

theorem memWf_memWriteList (m : List Host.Cell) (a : Nat) (l : List Byte) (hm : memWf m = true)
    (ha : ∀ i < l.length, (windowAt (a + i)).isSome) : memWf (memWriteList m a l) = true := by
  induction l generalizing m a with
  | nil => simpa [memWriteList] using hm
  | cons v vs ih =>
    rw [memWriteList]
    refine ih _ _ (memWf_memWrite m a v hm (by simpa using ha 0 (by simp))) fun i hi => ?_
    have := ha (i + 1) (by simpa using hi)
    simpa [Nat.add_comm, Nat.add_left_comm, Nat.add_assoc] using this

/-- The offsets of a canonical memory's tail lie above its head. -/
theorem memWf_tail_above (a : Nat) (v : Byte) (m : List Host.Cell) (h : memWf ((a, v) :: m) = true) :
    ∀ c ∈ m, a < c.1 := by
  induction m generalizing a v with
  | nil => simp
  | cons d m ih =>
    obtain ⟨k, u⟩ := d
    have h1 := (memWf_cons _ _ _).mp h
    have hak : a < k := by simpa using h1.2.1
    intro c hc
    rcases List.mem_cons.mp hc with rfl | hc
    · exact hak
    · exact lt_trans hak (ih k u h1.2.2 c hc)

theorem memWf_filter (m : List Host.Cell) (p : Host.Cell → Bool) (h : memWf m = true) :
    memWf (m.filter p) = true := by
  induction m with
  | nil => simpa using h
  | cons d m ih =>
    obtain ⟨k, u⟩ := d
    have h1 := (memWf_cons _ _ _).mp h
    rw [List.filter_cons]
    split
    · rw [memWf_cons]
      refine ⟨h1.1, ?_, ih h1.2.2⟩
      intro c hc
      have : c ∈ m.filter p := List.mem_of_mem_head? hc
      exact memWf_tail_above k u m h c (List.mem_filter.mp this).1
    · exact ih h1.2.2

theorem memWf_memForget (m : List Host.Cell) (a n : Nat) (h : memWf m = true) :
    memWf (memForget m a n) = true := memWf_filter m _ h

/-- Every byte of a window lies in that window. -/
theorem windowAt_of_lt (w : Window) (i : Nat) (h : i < windowSize w) : windowAt (windowBase w + i) = some w := by
  have hc : windowBase .cw = 0x080 := rfl
  have hh : windowBase .hdr = 0x090 := rfl
  have hb : windowBase .blk = 0x100 := rfl
  have hd : windowBase .dec = 0x140 := rfl
  unfold windowAt
  cases w <;> simp only [windowSize] at h
  · rw [if_pos (by omega)]
  · rw [if_neg (by omega), if_pos (by omega)]
  · rw [if_neg (by omega), if_neg (by omega), if_pos (by omega)]
  · rw [if_neg (by omega), if_neg (by omega), if_neg (by omega), if_pos (by omega)]

/-- An offset in a window is the window's base plus a byte number. -/
theorem windowAt_eq_some (a : Nat) (w : Window) (h : windowAt a = some w) :
    windowBase w ≤ a ∧ a < windowBase w + windowSize w := by
  simp only [windowAt] at h
  split at h
  · cases h; simp only [windowBase, windowSize]; omega
  · split at h
    · cases h; simp only [windowBase, windowSize]; omega
    · split at h
      · cases h; simp only [windowBase, windowSize]; omega
      · split at h
        · cases h; simp only [windowBase, windowSize]; omega
        · cases h

/-- Writing bytes that fit in a window keeps the canonical form. -/
theorem memWf_writeWindow (s : State) (w : Window) (o : Nat) (l : List Byte) (hm : memWf s.mem = true)
    (h : o + l.length ≤ windowSize w) : memWf (writeWindow s w o l).mem = true := by
  rw [writeWindow_mem]
  refine memWf_memWriteList _ _ _ hm fun i hi => ?_
  rw [Nat.add_assoc, windowAt_of_lt w (o + i) (by omega)]
  rfl

@[simp] theorem bytesBE64_length (w : DWord) : (bytesBE64 w).length = 8 := rfl

@[simp] theorem bytesBE16_length (v : Nat) : (bytesBE16 v).length = 2 := rfl

theorem memWf_putCodeword (s : State) (o : Nat) (w : DWord) (hm : memWf s.mem = true) (h : o ≤ 8) :
    memWf (putCodeword s o w).mem = true :=
  memWf_writeWindow s .cw o _ hm (by simp only [bytesBE64_length, windowSize]; omega)

theorem memRead_reset (a : Nat) : memRead State.reset.mem a = none := rfl

end Sys2Proof.Machine
end

