-- ==== Sys2Proof/Laws/Operands.lean ====
section
/-! SUPPORT. What a read of operands from the byte windows gives: the value its bytes spell, or the fault of an
UNSPEC byte among those it reads. -/

namespace Sys2Proof.Machine

/-! ## Lists of bytes -/

theorem readBytes_eq_ok (m : List Host.Cell) (l : List Nat) (g : Nat → Byte)
    (h : ∀ a ∈ l, memRead m a = some (g a)) : readBytes m l = .ok (l.map fun a => (g a).toNat) := by
  induction l with
  | nil => rfl
  | cons a as ih =>
    simp [readBytes, h a (by simp), ih fun b hb => h b (by simp [hb])]

theorem readBytes_congr (m m' : List Host.Cell) (l : List Nat) (h : ∀ a ∈ l, memRead m a = memRead m' a) :
    readBytes m l = readBytes m' l := by
  induction l with
  | nil => rfl
  | cons a as ih => simp [readBytes, h a (by simp), ih fun b hb => h b (by simp [hb])]

/-- What a read that answered has read: one byte value for each offset. -/
theorem readBytes_ok {m : List Host.Cell} {l vs : List Nat} (h : readBytes m l = .ok vs) :
    vs.length = l.length ∧ (∀ a ∈ l, (memRead m a).isSome = true) ∧ ∀ v ∈ vs, v < 256 := by
  induction l generalizing vs with
  | nil => cases h; simp
  | cons a as ih =>
    simp only [readBytes] at h
    split at h
    · cases h
    · rename_i v hv
      split at h
      · rename_i ws hw
        cases h
        obtain ⟨h1, h2, h3⟩ := ih hw
        refine ⟨by simp [h1], ?_, ?_⟩
        · simp [hv]; exact h2
        · simp; exact ⟨v.isLt, h3⟩
      · cases h

/-! ## The two outcomes of an operand read -/

/-- A read of the offsets `l` of `m`: it answers when they are all defined, else it is the fault of an UNSPEC
one. -/
def ReadsOffsets {α : Type} (m : List Host.Cell) (r : Except Fault α) (l : List Nat) : Prop :=
  ((∃ v, r = .ok v) ∧ ∀ a ∈ l, Defined m a) ∨ ∃ a ∈ l, memRead m a = none ∧ r = .error (.unspecByte a)

theorem readsOffsets_readBytes (m : List Host.Cell) (l : List Nat) : ReadsOffsets m (readBytes m l) l := by
  induction l with
  | nil => left; exact ⟨⟨[], rfl⟩, by simp⟩
  | cons a as ih =>
    cases ha : memRead m a with
    | none => right; exact ⟨a, by simp, ha, by simp [readBytes, ha]⟩
    | some v =>
      rcases ih with ⟨⟨vs, hvs⟩, hd⟩ | ⟨b, hb, hn, he⟩
      · left
        refine ⟨⟨v.toNat :: vs, by simp [readBytes, ha, hvs]⟩, ?_⟩
        simp [Defined, ha]; exact hd
      · right; exact ⟨b, by simp [hb], hn, by simp [readBytes, ha, he]⟩

theorem readsOffsets_readWith {α : Type} (m : List Host.Cell) (l : List Nat) (k : List Nat → α) :
    ReadsOffsets m (readWith m l k) l := by
  rcases readsOffsets_readBytes m l with ⟨⟨vs, hvs⟩, hd⟩ | ⟨b, hb, hn, he⟩
  · left; exact ⟨⟨k vs, by simp [readWith, hvs]⟩, hd⟩
  · right; exact ⟨b, hb, hn, by simp [readWith, he]⟩

theorem readsOffsets_readBoth {α β : Type} {m : List Host.Cell} {x : Except Fault α} {y : Except Fault β}
    {l l' : List Nat} (hx : ReadsOffsets m x l) (hy : ReadsOffsets m y l') :
    ReadsOffsets m (readBoth x y) (l ++ l') := by
  rcases hx with ⟨⟨v, hv⟩, hd⟩ | ⟨b, hb, hn, he⟩
  · rcases hy with ⟨⟨w, hw⟩, hd'⟩ | ⟨b, hb, hn, he⟩
    · left
      refine ⟨⟨(v, w), by simp [readBoth, hv, hw]⟩, fun a ha => ?_⟩
      rcases List.mem_append.mp ha with h | h
      · exact hd a h
      · exact hd' a h
    · right; exact ⟨b, by simp [hb], hn, by simp [readBoth, hv, he]⟩
  · right; exact ⟨b, by simp [hb], hn, by simp [readBoth, he]⟩

/-- A value computed from what another read answers, and from nothing else, reads the same offsets. -/
theorem readsOffsets_image {α β : Type} {m : List Host.Cell} {x : Except Fault α} {y : Except Fault β} {l : List Nat}
    (hx : ReadsOffsets m x l) (hok : ∀ v, x = .ok v → ∃ w, y = .ok w) (herr : ∀ e, x = .error e → y = .error e) :
    ReadsOffsets m y l := by
  rcases hx with ⟨⟨v, hv⟩, hd⟩ | ⟨b, hb, hn, he⟩
  · exact .inl ⟨hok v hv, hd⟩
  · exact .inr ⟨b, hb, hn, herr _ he⟩

/-! ## The offsets of each operand -/

theorem raster_eq : raster = List.range 16 := rfl

theorem readRgb_offsets (w : Window) :
    (raster.flatMap fun k => [0, 1, 2].map fun c => windowBase w + channelOffset k c) = rgbOffsets w := by
  cases w <;> rfl

theorem readAlpha_offsets (w : Window) :
    (raster.map fun k => windowBase w + channelOffset k 3) = alphaOffsets w := by
  cases w <;> rfl

theorem readSamples_offsets (w : Window) (ch : Nat) :
    (raster.flatMap fun k => [windowBase w + 0x20 * ch + 8 * pixelY k + 2 * pixelX k,
      windowBase w + 0x20 * ch + 8 * pixelY k + 2 * pixelX k + 1]) = sampleOffsets w ch := rfl

theorem windowRange_eq (w : Window) (n : Nat) : windowRange w 0 n = leadingOffsets w n := by
  simp [windowRange, leadingOffsets]

theorem readsOffsets_readRgb (m : List Host.Cell) (w : Window) : ReadsOffsets m (readRgb m w) (rgbOffsets w) := by
  rw [← readRgb_offsets]; exact readsOffsets_readWith _ _ _

theorem readsOffsets_readAlpha (m : List Host.Cell) (w : Window) :
    ReadsOffsets m (readAlpha m w) (alphaOffsets w) := by
  rw [← readAlpha_offsets]; exact readsOffsets_readBytes _ _

theorem readsOffsets_readSamples (m : List Host.Cell) (w : Window) (ch : Nat) :
    ReadsOffsets m (readSamples m w ch) (sampleOffsets w ch) := by
  rw [← readSamples_offsets]; exact readsOffsets_readWith _ _ _

theorem readsOffsets_readHeader (m : List Host.Cell) :
    ReadsOffsets m (readHeader m) (leadingOffsets .hdr 16) := by
  rw [← windowRange_eq]; exact readsOffsets_readBytes _ _

/-- What a header that was read whole gives for any of its bytes. -/
theorem readBytes_of_readHeader {m : List Host.Cell} {l os : List Nat} (h : readHeader m = .ok l) (ho : ∀ o ∈ os, o < 16) :
    readBytes m (os.map (windowBase .hdr + ·)) = .ok (os.map fun o => l.getD o 0) := by
  have hg : ∀ a ∈ windowRange .hdr 0 16, memRead m a = some ((memRead m a).getD 0) := by
    intro a ha
    obtain ⟨v, hv⟩ := Option.isSome_iff_exists.1 ((readBytes_ok h).2.1 a ha)
    simp [hv]
  have hl := readBytes_eq_ok m _ (fun a => (memRead m a).getD 0) hg
  rw [show readBytes m (windowRange .hdr 0 16) = .ok l from h] at hl
  rw [readBytes_eq_ok m _ (fun a => (memRead m a).getD 0), Except.ok.inj hl]
  · congr 1
    rw [List.map_map]
    refine List.map_congr_left fun o hm => ?_
    simp [windowRange, ho o hm]
  · intro a ha
    obtain ⟨o, hm, rfl⟩ := List.mem_map.1 ha
    exact hg _ (List.mem_map.2 ⟨o, List.mem_range.2 (ho o hm), by simp⟩)

/-! ## The header checks -/

/-- The bytes a check reads are defined, and it passes (spec/45_control_container.md R307). -/
def HeaderPasses (m : List Host.Cell) (c : HeaderCheck) : Prop :=
  ∃ l, readBytes m (c.reads.map (windowBase .hdr + ·)) = .ok l ∧ c.passes l = true

/-- Everything the header checks can answer: they all pass, or the first that does not decides, by its failure or by an
UNSPEC byte it reads, whatever the checks after it would say. -/
theorem checkHeader_cases (m : List Host.Cell) (cs : List HeaderCheck) :
    (checkHeader m cs = .ok true ∧ ∀ c ∈ cs, HeaderPasses m c) ∨
    ∃ before c after, cs = before ++ c :: after ∧ (∀ d ∈ before, HeaderPasses m d) ∧
      ((∃ l, readBytes m (c.reads.map (windowBase .hdr + ·)) = .ok l ∧ c.passes l = false ∧
          checkHeader m cs = .ok false) ∨
        ∃ o ∈ c.reads, memRead m (windowBase .hdr + o) = none ∧
          checkHeader m cs = .error (.unspecByte (windowBase .hdr + o))) := by
  induction cs with
  | nil => exact .inl ⟨rfl, by simp⟩
  | cons c cs ih =>
    rcases readsOffsets_readBytes m (c.reads.map (windowBase .hdr + ·)) with ⟨⟨l, hl⟩, _⟩ | ⟨a, ha, hn, he⟩
    · cases hp : c.passes l
      · exact .inr ⟨[], c, cs, rfl, by simp, .inl ⟨l, hl, hp, by simp [checkHeader, hl, hp]⟩⟩
      · have hc : checkHeader m (c :: cs) = checkHeader m cs := by simp [checkHeader, hl, hp]
        rw [hc]
        rcases ih with ⟨h, hall⟩ | ⟨before, d, after, rfl, hb, hd⟩
        · refine .inl ⟨h, fun d hd => ?_⟩
          rcases List.mem_cons.1 hd with rfl | hd
          · exact ⟨l, hl, hp⟩
          · exact hall d hd
        · refine .inr ⟨c :: before, d, after, rfl, fun e he => ?_, hd⟩
          rcases List.mem_cons.1 he with rfl | he
          · exact ⟨l, hl, hp⟩
          · exact hb e he
    · obtain ⟨o, ho, rfl⟩ := List.mem_map.1 ha
      exact .inr ⟨[], c, cs, rfl, by simp, .inr ⟨o, ho, hn, by simp [checkHeader, he]⟩⟩

/-- The eight checks on the sixteen bytes of a header. -/
def headerValid (l : List Nat) : Bool := headerChecks.all fun c => c.passes (c.reads.map fun o => l.getD o 0)

/-- R307 in one expression. -/
theorem headerValid_eq (l : List Nat) : headerValid l =
    ([l.getD 0 0, l.getD 1 0, l.getD 2 0, l.getD 3 0] == headerMagic &&
      ((l.getD 4 0 == 0x31 || l.getD 4 0 == 0x32) && (l.getD 5 0 == 0x30 && (l.getD 6 0 == 0x00 &&
      ((formatOfCode (BitVec.ofNat 8 (l.getD 7 0))).isSome && (l.getD 4 0 == versionByte (l.getD 7 0) &&
      ((headerField l 12 != 0 && headerField l 14 != 0) &&
      ((decide ((headerField l 8 : Int) = round4 (headerField l 12)) &&
        decide ((headerField l 10 : Int) = round4 (headerField l 14))) && true)))))))) := rfl

theorem headerChecks_reads : ∀ c ∈ headerChecks, ∀ o ∈ c.reads, o < 16 := by
  simp [headerChecks]

theorem headerChecks_read_all : ∀ o < 16, ∃ c ∈ headerChecks, o ∈ c.reads := by
  simp only [headerChecks, List.exists_mem_cons_iff]
  decide

/-- On a header whose bytes are all defined the checks answer whether it is valid. -/
theorem checkHeader_of_readHeader {m : List Host.Cell} {l : List Nat} (h : readHeader m = .ok l) :
    checkHeader m headerChecks = .ok (headerValid l) := by
  have hall : ∀ cs : List HeaderCheck, (∀ c ∈ cs, ∀ o ∈ c.reads, o < 16) →
      checkHeader m cs = .ok (cs.all fun c => c.passes (c.reads.map fun o => l.getD o 0)) := by
    intro cs hcs
    induction cs with
    | nil => rfl
    | cons c cs ih =>
      simp only [checkHeader, readBytes_of_readHeader h (hcs c (by simp)), ih fun d hd => hcs d (by simp [hd]),
        List.all_cons]
      cases c.passes (c.reads.map fun o => l.getD o 0) <;> rfl
  exact hall _ headerChecks_reads

/-- Checks that all pass have read the sixteen bytes. -/
theorem readHeader_of_checkHeader {m : List Host.Cell} (h : checkHeader m headerChecks = .ok true) :
    ∃ l, readHeader m = .ok l ∧ headerValid l = true := by
  rcases readsOffsets_readHeader m with ⟨⟨l, hl⟩, _⟩ | ⟨a, ha, hn, _⟩
  · rw [checkHeader_of_readHeader hl] at h
    exact ⟨l, hl, Except.ok.inj h⟩
  · exfalso
    obtain ⟨o, ho, rfl⟩ := List.mem_map.1 ha
    obtain ⟨c, hc, hm⟩ := headerChecks_read_all o (List.mem_range.1 ho)
    rcases checkHeader_cases m headerChecks with ⟨_, hall⟩ | ⟨_, _, _, _, _, ⟨_, _, _, e⟩ | ⟨_, _, _, e⟩⟩
    · obtain ⟨v, hv, _⟩ := hall c hc
      have := (readBytes_ok hv).2.1 _ (List.mem_map.2 ⟨o, hm, rfl⟩)
      rw [hn] at this; cases this
    · rw [e] at h; cases h
    · rw [e] at h; cases h

theorem readsOffsets_readCodeword (m : List Host.Cell) (o : Nat) :
    ReadsOffsets m (readCodeword m o) (windowRange .cw o 8) := readsOffsets_readWith _ _ _

theorem readsOffsets_readCodeword_first (m : List Host.Cell) :
    ReadsOffsets m (readCodeword m 0) (leadingOffsets .cw 8) := by
  rw [← windowRange_eq]; exact readsOffsets_readWith _ _ _

theorem readsOffsets_readBothCodewords (m : List Host.Cell) :
    ReadsOffsets m (readBoth (readCodeword m 0) (readCodeword m 8)) (leadingOffsets .cw 16) := by
  have h : leadingOffsets .cw 16 = windowRange .cw 0 8 ++ windowRange .cw 8 8 := by rfl
  rw [h]
  exact readsOffsets_readBoth (readsOffsets_readCodeword m 0) (readsOffsets_readCodeword m 8)

theorem readsOffsets_readSource (m : List Host.Cell) (f : Format) :
    ReadsOffsets m (readSource m f) (sourceOffsets f) := by
  unfold readSource sourceOffsets
  split
  · refine readsOffsets_image (readsOffsets_readBoth (readsOffsets_readRgb m .blk) (readsOffsets_readAlpha m .blk)) ?_ ?_
    · rintro ⟨px, al⟩ h; rw [h]; exact ⟨_, rfl⟩
    · intro e h; rw [h]
  · refine readsOffsets_image (readsOffsets_readRgb m .blk) ?_ ?_
    · intro px h; rw [h]; exact ⟨_, rfl⟩
    · intro e h; rw [h]

theorem readsOffsets_readSamplePair (s : State) (ch : Nat) :
    ReadsOffsets s.mem (readSamplePair s ch) (sampleOffsets .blk ch ++ sampleOffsets .dec ch) :=
  readsOffsets_readBoth (readsOffsets_readSamples _ _ _) (readsOffsets_readSamples _ _ _)

/-! ## The values of each operand -/

theorem readRgb_eq_ok (m : List Host.Cell) (w : Window) (g : Nat → Nat → Byte)
    (h : ∀ k < 16, ∀ c < 3, memRead m (pixelByte w k c) = some (g k c)) :
    readRgb m w = .ok ((List.range 16).map fun k => ⟨(g k 0).toNat, (g k 1).toNat, (g k 2).toNat⟩) := by
  have hr : readBytes m (rgbOffsets w) = .ok ((rgbOffsets w).map fun a =>
      (g ((a - windowBase w) / 4) ((a - windowBase w) % 4)).toNat) := by
    refine readBytes_eq_ok m _ _ fun a ha => ?_
    simp only [rgbOffsets, List.mem_flatMap, List.mem_range, List.mem_map] at ha
    obtain ⟨k, hk, c, hc, rfl⟩ := ha
    have hc3 : c < 3 := by simp at hc; omega
    rw [h k hk c hc3]
    have h1 : (pixelByte w k c - windowBase w) / 4 = k := by simp only [pixelByte]; omega
    have h2 : (pixelByte w k c - windowBase w) % 4 = c := by simp only [pixelByte]; omega
    rw [h1, h2]
  unfold readRgb readWith
  rw [readRgb_offsets, hr]
  cases w <;> rfl

theorem readAlpha_eq_ok (m : List Host.Cell) (w : Window) (g : Nat → Nat → Byte)
    (h : ∀ k < 16, memRead m (pixelByte w k 3) = some (g k 3)) :
    readAlpha m w = .ok ((List.range 16).map fun k => (g k 3).toNat) := by
  unfold readAlpha
  rw [readAlpha_offsets]
  have hr : readBytes m (alphaOffsets w) = .ok ((alphaOffsets w).map fun a =>
      (g ((a - windowBase w) / 4) 3).toNat) := by
    refine readBytes_eq_ok m _ _ fun a ha => ?_
    simp only [alphaOffsets, List.mem_range, List.mem_map] at ha
    obtain ⟨k, hk, rfl⟩ := ha
    rw [h k hk]
    have h1 : (pixelByte w k 3 - windowBase w) / 4 = k := by simp only [pixelByte]; omega
    rw [h1]
  rw [hr]
  cases w <;> rfl

theorem readSamples_eq_ok (m : List Host.Cell) (w : Window) (ch : Nat) (hi lo : Nat → Byte)
    (h : ∀ k < 16, memRead m (sampleByte w ch k) = some (hi k) ∧ memRead m (sampleByte w ch k + 1) = some (lo k)) :
    readSamples m w ch = .ok ((List.range 16).map fun k => 256 * (hi k).toNat + (lo k).toNat) := by
  let g (a : Nat) : Byte :=
    let d := a - windowBase w - 32 * ch
    if d % 2 = 0 then hi (d / 2) else lo (d / 2)
  have hr : readBytes m (sampleOffsets w ch) = .ok ((sampleOffsets w ch).map fun a => (g a).toNat) := by
    refine readBytes_eq_ok m _ _ fun a ha => ?_
    simp only [sampleOffsets, List.mem_flatMap, List.mem_range, List.mem_cons, List.not_mem_nil, or_false] at ha
    obtain ⟨k, hk, rfl | rfl⟩ := ha
    · have h1 : sampleByte w ch k - windowBase w - 32 * ch = 2 * k := by simp only [sampleByte]; omega
      rw [(h k hk).1]
      simp only [g, h1]
      rw [if_pos (by omega)]
      congr 1; congr 1; omega
    · have h1 : sampleByte w ch k + 1 - windowBase w - 32 * ch = 2 * k + 1 := by simp only [sampleByte]; omega
      rw [(h k hk).2]
      simp only [g, h1]
      rw [if_neg (by omega)]
      congr 1; congr 1; omega
  have hg : ∀ k, k < 16 → g (sampleByte w ch k) = hi k ∧ g (sampleByte w ch k + 1) = lo k := by
    intro k hk
    have h1 : sampleByte w ch k - windowBase w - 32 * ch = 2 * k := by simp only [sampleByte]; omega
    have h2 : sampleByte w ch k + 1 - windowBase w - 32 * ch = 2 * k + 1 := by simp only [sampleByte]; omega
    constructor
    · simp only [g, h1]; rw [if_pos (by omega)]; congr 1; omega
    · simp only [g, h2]; rw [if_neg (by omega)]; congr 1; omega
  unfold readSamples readWith
  simp only [readSamples_offsets, hr]
  simp only [sampleOffsets, raster_eq]
  congr 1
  apply List.map_congr_left
  intro k hk
  simp only [List.mem_range] at hk
  obtain ⟨e1, e2⟩ := hg k hk
  rw [← e1, ← e2]
  interval_cases k <;> rfl

/-- The bytes of a codeword spell it (spec/20_memory.md R63). -/
theorem natOfBytes_codeword (w : DWord) :
    BitVec.ofNat 64 (natOfBytes ((List.range 8).map fun i => (codewordByte w i).toNat)) = w := by
  have h : ∀ i < 8, (codewordByte w i).toNat = w.toNat / 2 ^ (56 - 8 * i) % 256 := by
    intro i _
    simp [codewordByte, Nat.shiftRight_eq_div_pow]
  have hl : (List.range 8).map (fun i => (codewordByte w i).toNat) =
      (List.range 8).map fun i => w.toNat / 2 ^ (56 - 8 * i) % 256 :=
    List.map_congr_left fun i hi => h i (List.mem_range.mp hi)
  rw [hl]
  apply BitVec.eq_of_toNat_eq
  simp only [natOfBytes, List.range, List.range.loop, List.map, List.foldl, BitVec.toNat_ofNat]
  have := w.isLt
  omega

theorem readCodeword_eq_ok (m : List Host.Cell) (o : Nat) (w : DWord) (h : HoldsCodeword m o w) :
    readCodeword m o = .ok w := by
  have hr : readBytes m (windowRange .cw o 8) = .ok ((windowRange .cw o 8).map fun a =>
      (codewordByte w (a - (windowBase .cw + o))).toNat) := by
    refine readBytes_eq_ok m _ _ fun a ha => ?_
    simp only [windowRange, List.mem_map, List.mem_range] at ha
    obtain ⟨i, hi, rfl⟩ := ha
    rw [h i hi]
    congr 2; omega
  unfold readCodeword readWith
  rw [hr]
  simp only [windowRange, List.map_map, Function.comp_def, Nat.add_sub_cancel_left]
  rw [natOfBytes_codeword]

/-! ## What a write leaves -/

theorem sameOutside_writeWindow (s : State) (win : Window) (o : Nat) (l : List Byte) :
    SameOutside s.mem (writeWindow s win o l).mem (windowBase win + o) l.length := by
  intro b hb
  rw [writeWindow_mem, memRead_memWriteList, if_neg hb]

/-- A byte of a window write, by its place in the list. -/
theorem memRead_writeWindow (s : State) (win : Window) (o : Nat) (l : List Byte) (i : Nat) (h : i < l.length) :
    memRead (writeWindow s win o l).mem (windowBase win + o + i) = l[i]? := by
  rw [writeWindow_mem, memRead_memWriteList, if_pos (by omega)]
  congr 1; omega

/-- A codeword's byte list is its bytes in stream order. -/
theorem bytesBE64_getElem? (w : DWord) (i : Nat) (h : i < 8) : (bytesBE64 w)[i]? = some (codewordByte w i) := by
  interval_cases i <;> rfl

theorem holdsCodeword_putCodeword (s : State) (o : Nat) (w : DWord) : HoldsCodeword (putCodeword s o w).mem o w := by
  intro i hi
  rw [putCodeword, memRead_writeWindow _ _ _ _ _ (by simpa using hi), bytesBE64_getElem? w i hi]

theorem sameOutside_putCodeword (s : State) (o : Nat) (w : DWord) :
    SameOutside s.mem (putCodeword s o w).mem (0x080 + o) 8 := sameOutside_writeWindow s .cw o _

/-- Two memories that agree outside a codeword's bytes hold the same codeword elsewhere. -/
theorem HoldsCodeword.of_sameOutside {m m' : List Host.Cell} {o o' : Nat} {w : DWord} (h : HoldsCodeword m o w)
    (hs : SameOutside m m' (0x080 + o') 8) (hd : o + 8 ≤ o' ∨ o' + 8 ≤ o) : HoldsCodeword m' o w := by
  intro i hi
  have hb : windowBase .cw = 0x080 := rfl
  rw [hs _ (by omega), h i hi]

theorem SameOutside.trans {m m' m'' : List Host.Cell} {a n b k c j : Nat} (h : SameOutside m m' a n)
    (h' : SameOutside m' m'' b k) (h1 : c ≤ a ∧ a + n ≤ c + j) (h2 : c ≤ b ∧ b + k ≤ c + j) :
    SameOutside m m'' c j := by
  intro x hx
  rw [h' x (by omega), h x (by omega)]

theorem sameOutside_memForget (m : List Host.Cell) (a n : Nat) : SameOutside m (memForget m a n) a n := by
  intro b hb
  rw [memRead_memForget, if_neg hb]

end Sys2Proof.Machine
end

