-- ==== Sys2Proof/Laws/Commands.lean ====
section
/-! SUPPORT. What each shared operation and each command can do, said once: if it answers a next state, then which
one. Proofs about commands cite these lemmas and unfold no meaning. -/

namespace Sys2Proof.Machine

variable {s t : State}

/-! ## Ends of commands -/

@[simp] theorem succeed_next : succeed s = .next t ↔ t = complete s := by
  simp [succeed, eq_comm]

@[simp] theorem raise_next (e : CmdError) : raise s e = .next t ↔ t = errorCompletion s e := by
  simp [raise, eq_comm]

theorem complete_eq_ended (u : State) : complete u = ended u := rfl

theorem errorCompletion_eq_failedWith (u : State) (e : CmdError) : errorCompletion u e = failedWith u (errKind e) := rfl

/-! ## Operands -/

@[simp] theorem withOperand_ok {α : Type} (a : α) (k : α → Answer) : withOperand (.ok a) k = k a := rfl

@[simp] theorem withOperand_error {α : Type} (e : Fault) (k : α → Answer) : withOperand (.error e) k = .fault e := rfl

/-- A command that read an operand and answered has read a value. -/
theorem withOperand_next {α : Type} {r : Except Fault α} {k : α → Answer} (h : withOperand r k = .next t) :
    ∃ a, r = .ok a ∧ k a = .next t := by
  cases r with
  | ok a => exact ⟨a, rfl, h⟩
  | error e => cases h

theorem withFormat_some {f : Format} (k : Format → Answer) (h : formatOfCode s.format = some f) :
    withFormat s k = k f := by simp [withFormat, h]

theorem withFormat_none (k : Format → Answer) (h : formatOfCode s.format = none) :
    withFormat s k = .next (errorCompletion s .badArgument) := by simp [withFormat, h, raise]

/-- A command that checks the format raises BadArgument or goes on with a valid one. -/
theorem withFormat_next {k : Format → Answer} (h : withFormat s k = .next t) :
    (formatOfCode s.format = none ∧ t = errorCompletion s .badArgument) ∨
    ∃ f, formatOfCode s.format = some f ∧ k f = .next t := by
  cases hf : formatOfCode s.format with
  | none => left; rw [withFormat_none k hf] at h; cases h; exact ⟨rfl, rfl⟩
  | some f => right; rw [withFormat_some k hf] at h; exact ⟨f, rfl, h⟩

/-! ## The image checks -/

theorem imageError_eq_none {w h : Int} :
    imageError w h = none ↔ 1 ≤ w ∧ w ≤ 65532 ∧ 1 ≤ h ∧ h ≤ 65532 := by
  unfold imageError dimensionInvalid Config.maxDim
  split
  · rename_i hc; simp at hc ⊢; omega
  · rename_i hc
    simp at hc
    split
    · rename_i hd; simp; omega
    · simp; omega

theorem imageError_cases (w h : Int) :
    imageError w h = none ∨ imageError w h = some .badArgument ∨ imageError w h = some .imageTooLarge := by
  unfold imageError
  split
  · simp
  · split <;> simp

/-- A command that checks the image raises one of two errors or goes on with a valid format and two sizes. -/
theorem withImage_next {k : Format → Int → Int → Answer} (h : withImage s k = .next t) :
    t = errorCompletion s .badArgument ∨ t = errorCompletion s .imageTooLarge ∨
    ∃ f, formatOfCode s.format = some f ∧ imageError (signedReg s.imgW) (signedReg s.imgH) = none ∧
      k f (signedReg s.imgW) (signedReg s.imgH) = .next t := by
  rcases withFormat_next h with ⟨_, rfl⟩ | ⟨f, hf, h⟩
  · exact .inl rfl
  · rcases imageError_cases (signedReg s.imgW) (signedReg s.imgH) with he | he | he
    · simp only [he] at h; exact .inr (.inr ⟨f, hf, he, h⟩)
    · simp only [he, raise_next] at h; exact .inl h
    · simp only [he, raise_next] at h; exact .inr (.inl h)

theorem withImage_ok {f : Format} (k : Format → Int → Int → Answer) (hf : formatOfCode s.format = some f)
    (hi : imageError (signedReg s.imgW) (signedReg s.imgH) = none) :
    withImage s k = k f (signedReg s.imgW) (signedReg s.imgH) := by
  simp [withImage, withFormat, hf, hi]

/-! ## The commands, one by one -/

theorem execNop_next (h : execNop s = .next t) : t = complete (clearLvalid s) := by simpa [execNop] using h

theorem execSreset_next (h : execSreset s = .next t) : t = complete (softReset s) := by
  simpa [execSreset] using h

/-- The state CFG leaves for the sizes `w` and `h`. -/
def cfgState (s : State) (w h : Int) : State :=
  complete (clearLvalid { s with padW := BitVec.ofInt 32 (round4 w), padH := BitVec.ofInt 32 (round4 h) })

theorem execCfg_next (h : execCfg s = .next t) :
    t = errorCompletion s .badArgument ∨ t = errorCompletion s .imageTooLarge ∨
    imageError (signedReg s.imgW) (signedReg s.imgH) = none ∧ (formatOfCode s.format).isSome = true ∧
      t = cfgState s (signedReg s.imgW) (signedReg s.imgH) := by
  rcases withImage_next h with h | h | ⟨f, hf, hi, h⟩
  · exact .inl h
  · exact .inr (.inl h)
  · exact .inr (.inr ⟨hi, by simp [hf], by simpa [cfgState] using h⟩)

theorem execHdrEmit_next (h : execHdrEmit s = .next t) :
    t = errorCompletion s .badArgument ∨ t = errorCompletion s .imageTooLarge ∨
    imageError (signedReg s.imgW) (signedReg s.imgH) = none ∧ (formatOfCode s.format).isSome = true ∧
      t = complete (clearLvalid (writeWindow s .hdr 0
        (headerBytes s.format (signedReg s.imgW) (signedReg s.imgH)))) := by
  rcases withImage_next h with h | h | ⟨f, hf, hi, h⟩
  · exact .inl h
  · exact .inr (.inl h)
  · exact .inr (.inr ⟨hi, by simp [hf], by simpa using h⟩)

theorem execHdrParse_next (h : execHdrParse s = .next t) :
    (checkHeader s.mem headerChecks = .ok false ∧ t = errorCompletion s .notAContainer) ∨
    ∃ l, readHeader s.mem = .ok l ∧ headerValid l = true ∧ t = complete (clearLvalid (loadHeader s l)) := by
  obtain ⟨accepted, ha, h⟩ := withOperand_next h
  cases accepted
  · exact .inl ⟨ha, by simpa using h⟩
  · obtain ⟨l, hl, hv⟩ := readHeader_of_checkHeader ha
    simp only [hl, withOperand_ok, succeed_next, if_true] at h
    exact .inr ⟨l, hl, hv, h⟩

/-- HDR_PARSE on a header whose bytes are all defined. -/
theorem execHdrParse_of_readHeader {l : List Nat} (h : readHeader s.mem = .ok l) :
    execHdrParse s = if headerValid l then .next (complete (clearLvalid (loadHeader s l)))
      else .next (errorCompletion s .notAContainer) := by
  simp [execHdrParse, checkHeader_of_readHeader h, h, succeed, raise]

/-- EXTRACT's end, from how its reads end. -/
theorem finishExtract_next {f : Format} {r : ReadResult} (h : finishExtract s f r = .next t) :
    (∃ l rest, r = .pixels l rest ∧
      t = complete (clearLvalid (writeWindow (afterReads s rest) .blk 0 (blockContents f l)))) ∨
    ∃ i rest, r = .failed i rest ∧ t = errorCompletion (forgetBlock (afterReads s rest)) (.io i) := by
  cases r with
  | pixels l rest => left; exact ⟨l, rest, rfl, by simpa [finishExtract] using h⟩
  | failed i rest => right; exact ⟨i, rest, rfl, by simpa [finishExtract] using h⟩
  | outOfRange => simp [finishExtract] at h

theorem execExtract_next (h : execExtract s = .next t) :
    t = errorCompletion s .badArgument ∨
    ∃ f, formatOfCode s.format = some f ∧ extractRefused s = false ∧
      ((∃ l rest, readPixels s.portEra (srcDepth s.srcCfg) (srcPremul s.srcCfg) (extractReads s) s.srcPort =
            .pixels l rest ∧
          t = complete (clearLvalid (writeWindow (afterReads s rest) .blk 0 (blockContents f l)))) ∨
       ∃ i rest, t = errorCompletion (forgetBlock (afterReads s rest)) (.io i)) := by
  rcases withFormat_next h with ⟨_, rfl⟩ | ⟨f, hf, h⟩
  · exact .inl rfl
  · cases hr : extractRefused s <;> simp only [hr, Bool.false_eq_true, if_false, if_true] at h
    · rcases finishExtract_next h with ⟨l, rest, hp, ht⟩ | ⟨i, rest, _, ht⟩
      · exact .inr ⟨f, hf, rfl, .inl ⟨l, rest, hp, ht⟩⟩
      · exact .inr ⟨f, hf, rfl, .inr ⟨i, rest, ht⟩⟩
    · exact .inl (by simpa using h)

/-- The state DECODE leaves: DEC whole, the sub-mode, LVALID cleared. -/
def decodedState (s : State) (bytes : List Byte) (m : Mode) : State :=
  complete (clearLvalid (setMode (writeWindow s .dec 0 bytes) m))

@[simp] theorem colourBytes_length (l : List Rgba) : (colourBytes l).length = 4 * l.length := by
  induction l with
  | nil => rfl
  | cons p l ih => simp only [colourBytes, List.flatMap_cons, List.length_append] at ih ⊢; simp [ih]; omega

@[simp] theorem sampleBytes_length (l : List Int) : (sampleBytes l).length = 2 * l.length := by
  induction l with
  | nil => rfl
  | cons p l ih => simp only [sampleBytes, List.flatMap_cons, List.length_append] at ih ⊢; simp [ih]; omega

@[simp] theorem decodeColour_length (w : DWord) (f : Format) : (decodeColour w f).length = 16 := rfl
@[simp] theorem decodeEac8_length (w : DWord) : (decodeEac8 w).length = 16 := rfl
@[simp] theorem decodeEac11_length (p : Params) (sg : Bool) (w : DWord) : (decodeEac11 p sg w).length = 16 := rfl
@[simp] theorem withAlpha_length (px : List Rgba) (al : List Nat) :
    (withAlpha px al).length = min px.length al.length := by simp [withAlpha]

/-- DECODE writes 64 bytes, whatever the class. -/
theorem decodeBlock_next {p : Params} {f : Format} (h : decodeBlock p s f = .next t) :
    ∃ bytes m, bytes.length = 64 ∧ t = decodedState s bytes m := by
  unfold decodeBlock at h
  split at h
  all_goals
    obtain ⟨x, _, h⟩ := withOperand_next h
    simp only [finishDecode, succeed_next] at h
    exact ⟨_, _, by simp, h⟩

theorem execDecode_next (h : execDecode s = .next t) :
    (formatOfCode s.format = none ∧ t = errorCompletion s .badArgument) ∨
    ∃ f bytes m, formatOfCode s.format = some f ∧ bytes.length = 64 ∧ t = decodedState s bytes m := by
  rcases withFormat_next h with h | ⟨f, hf, h⟩
  · exact .inl h
  · obtain ⟨b, m, hl, ht⟩ := decodeBlock_next h
    exact .inr ⟨f, b, m, hf, hl, ht⟩

/-- SCORE writes LOSS, and ALOSS in A8 formats. -/
theorem scoreBlock_next {p : Params} {f : Format} (h : scoreBlock p s f = .next t) :
    ∃ loss, t = complete (setLoss s loss) ∨ isA8 f = true ∧ ∃ al, t = complete (setAloss (setLoss s loss) al) := by
  cases hc : formatClass f <;> simp only [scoreBlock, hc] at h <;> obtain ⟨x, _, h⟩ := withOperand_next h <;>
    simp only [succeed_next] at h
  case a8 => exact ⟨_, .inr ⟨by simp [isA8, hc], _, h⟩⟩
  all_goals exact ⟨_, .inl h⟩

theorem execScore_next (h : execScore s = .next t) :
    (formatOfCode s.format = none ∧ t = errorCompletion s .badArgument) ∨
    ∃ f loss, formatOfCode s.format = some f ∧
      (t = complete (setLoss s loss) ∨ isA8 f = true ∧ ∃ al, t = complete (setAloss (setLoss s loss) al)) := by
  rcases withFormat_next h with h | ⟨f, hf, h⟩
  · exact .inl h
  · obtain ⟨l, hl⟩ := scoreBlock_next h
    exact .inr ⟨f, l, hf, hl⟩

/-- A colour generator command writes one codeword and the result registers, or raises BadArgument. -/
theorem colourCandidate_next {allowed : Format → Bool} {transp : Bool} {gen : Format → List SrcPixel → DWord}
    (h : colourCandidate s allowed transp gen = .next t) :
    (t = errorCompletion s .badArgument ∧
      ∀ f, formatOfCode s.format = some f → (allowed f && (!transp || isA1 f)) = false) ∨
    ∃ f px, formatOfCode s.format = some f ∧ allowed f = true ∧ (transp = true → isA1 f = true) ∧
      readSource s.mem f = .ok px ∧ t = complete (colourResult s f px (gen f px)) := by
  rcases withFormat_next h with ⟨hf, rfl⟩ | ⟨f, hf, h⟩
  · exact .inl ⟨rfl, by simp [hf]⟩
  · by_cases hc : (!allowed f || (transp && !isA1 f)) = true
    · rw [if_pos hc, raise_next] at h
      refine .inl ⟨h, fun g hg => ?_⟩
      rw [hf] at hg; cases hg
      revert hc
      cases allowed f <;> cases transp <;> cases isA1 f <;> simp
    · rw [if_neg hc] at h
      obtain ⟨px, hpx, h⟩ := withOperand_next h
      refine .inr ⟨f, px, hf, ?_, ?_, hpx, by simpa using h⟩
      · revert hc; cases allowed f <;> simp
      · revert hc; cases allowed f <;> cases transp <;> cases isA1 f <;> simp

/-- A colour generator command on an allowed format. -/
theorem colourCandidate_ok {allowed : Format → Bool} {transp : Bool} {f : Format}
    (gen : Format → List SrcPixel → DWord) (hf : formatOfCode s.format = some f)
    (ha : (allowed f && (!transp || isA1 f)) = true) :
    colourCandidate s allowed transp gen =
      withOperand (readSource s.mem f) fun px => .next (complete (colourResult s f px (gen f px))) := by
  unfold colourCandidate
  rw [withFormat_some _ hf, if_neg]
  · rfl
  · revert ha; cases allowed f <;> cases transp <;> cases isA1 f <;> simp

/-- A colour generator command on a format it does not allow. -/
theorem colourCandidate_refused {allowed : Format → Bool} {transp : Bool} (gen : Format → List SrcPixel → DWord)
    (ha : ∀ f, formatOfCode s.format = some f → (allowed f && (!transp || isA1 f)) = false) :
    colourCandidate s allowed transp gen = .next (errorCompletion s .badArgument) := by
  unfold colourCandidate
  cases hf : formatOfCode s.format with
  | none => rw [withFormat_none _ hf]
  | some f =>
    rw [withFormat_some _ hf, if_pos]
    · rfl
    · have := ha f hf
      revert this; cases allowed f <;> cases transp <;> cases isA1 f <;> simp

theorem intensityCandidate_next {transp : Bool} {intens : BitVec 2} {gen : Format → List SrcPixel → DWord}
    (h : intensityCandidate s transp intens gen = .next t) :
    (intensityLegal intens = false ∧ t = errorCompletion s .badCommand) ∨
    (intensityLegal intens = true ∧ colourCandidate s isEtc2Colour transp gen = .next t) := by
  unfold intensityCandidate at h
  split at h
  · rename_i hc; exact .inr ⟨hc, h⟩
  · rename_i hc; exact .inl ⟨by simpa using hc, by simpa using h⟩

/-- Every colour generator command is the template of R216 over its own generator. -/
theorem exec_colourGenerator {i : Instr} (h : isColourGenerator i = true) (hw : WellFormed i = true) :
    ∃ allowed transp, (∀ f, allowedFormat i f = (allowed f && (!transp || isA1 f))) ∧
      exec i s = colourCandidate s allowed transp fun f px => generatorWord f px i := by
  cases i <;> first | (cases h; done) | skip
  case candId red flip transp => exact ⟨isColour, transp, fun _ => rfl, rfl⟩
  case candEtc1s => exact ⟨isColour, false, fun _ => by simp [allowedFormat], rfl⟩
  case candPlanar => exact ⟨isEtc2Colour, false, fun _ => by simp [allowedFormat], rfl⟩
  case candT transp intens =>
    exact ⟨isEtc2Colour, transp, fun _ => rfl, by simp only [WellFormed] at hw; simp [exec, execCandT, intensityCandidate, hw, generatorWord]⟩
  case candH transp intens =>
    exact ⟨isEtc2Colour, transp, fun _ => rfl, by simp only [WellFormed] at hw; simp [exec, execCandH, intensityCandidate, hw, generatorWord]⟩

/-- CAND_EAC8's end. -/
theorem candEac8_next {p : Params} (h : candEac8 p s = .next t) :
    (t = errorCompletion s .badArgument ∧ ∀ f, formatOfCode s.format = some f → isA8 f = false) ∨
    ∃ f alpha, formatOfCode s.format = some f ∧ isA8 f = true ∧ readAlpha s.mem .blk = .ok alpha ∧
      t = complete (setMode (setAloss (setLoss (putCodeword s 0 (searchAlpha p alpha).1) (searchAlpha p alpha).2)
        (searchAlpha p alpha).2) .eac) := by
  rcases withFormat_next h with ⟨hf, rfl⟩ | ⟨f, hf, h⟩
  · exact .inl ⟨rfl, by simp [hf]⟩
  · cases ha : isA8 f <;> simp only [ha, Bool.not_true, Bool.not_false, Bool.false_eq_true, if_false, if_true] at h
    · exact .inl ⟨by simpa using h, fun g hg => by rw [hf] at hg; cases hg; exact ha⟩
    · obtain ⟨al, hal, h⟩ := withOperand_next h
      exact .inr ⟨f, al, hf, ha, hal, by simpa using h⟩

/-- CAND_EAC11's end. -/
theorem candEac11_next {p : Params} {ch : Bool} (h : candEac11 p ch s = .next t) :
    (t = errorCompletion s .badArgument ∧
      ∀ f, formatOfCode s.format = some f → allowedFormat (.candEac11 ch) f = false) ∨
    ∃ f samples, formatOfCode s.format = some f ∧ allowedFormat (.candEac11 ch) f = true ∧
      readSamples s.mem .blk ch.toNat = .ok samples ∧
      t = complete (setMode (setLoss (putCodeword s (8 * ch.toNat) (searchSamples p f samples).1)
        (searchSamples p f samples).2) .eac) := by
  rcases withFormat_next h with ⟨hf, rfl⟩ | ⟨f, hf, h⟩
  · exact .inl ⟨rfl, by simp [hf]⟩
  · have hb : (!isEac11 f || (ch && formatClass f != .rg11)) = !allowedFormat (.candEac11 ch) f := by
      simp only [allowedFormat]
      cases isEac11 f <;> cases ch <;> simp [bne]
    simp only [hb] at h
    cases ha : allowedFormat (.candEac11 ch) f <;>
      simp only [ha, Bool.not_true, Bool.not_false, Bool.false_eq_true, if_false, if_true] at h
    · exact .inl ⟨by simpa using h, fun g hg => by rw [hf] at hg; cases hg; exact ha⟩
    · obtain ⟨al, hal, h⟩ := withOperand_next h
      exact .inr ⟨f, al, hf, ha, hal, by simpa using h⟩

/-- ENCODE's end: codewords in CW, and the result registers. -/
theorem encodeBlock_next {p : Params} {f : Format} (h : encodeBlock p s f = .next t) :
    (isA8 f = false ∧ ∃ w loss m, t = complete (setMode (setLoss (putCodeword s 0 w) loss) m)) ∨
    (formatClass f = .rg11 ∧
      ∃ w v loss, t = complete (setMode (setLoss (putCodeword (putCodeword s 0 w) 8 v) loss) .eac)) ∨
    isA8 f = true ∧ ∃ w v loss m al,
      t = complete (setAloss (setMode (setLoss (putCodeword (putCodeword s 0 w) 8 v) loss) m) al) := by
  cases hc : formatClass f <;> simp only [encodeBlock, hc] at h <;> obtain ⟨x, _, h⟩ := withOperand_next h <;>
    simp only [succeed_next, setScratch] at h
  case a8 => exact .inr (.inr ⟨by simp [isA8, hc], _, _, _, _, _, h⟩)
  case rg11 => exact .inr (.inl ⟨rfl, _, _, _, h⟩)
  all_goals exact .inl ⟨by simp [isA8, hc], _, _, _, h⟩

theorem execEncode_next (h : execEncode s = .next t) :
    (formatOfCode s.format = none ∧ t = errorCompletion s .badArgument) ∨
    ∃ f, formatOfCode s.format = some f ∧ encodeBlock params s f = .next t := withFormat_next h

/-! ## All commands at once -/

/-- A command of the encoder, the decoder or the metric: its only error is BadArgument, on a format it does not
allow (spec/60_exceptions.md R322). -/
def checksFormatOnly (i : Instr) : Prop :=
  isColourGenerator i = true ∨ i = .encode ∨ i = .decode ∨ i = .score ∨ i = .candEac8 ∨ ∃ ch, i = .candEac11 ch

/-- The errors a command may raise before it has written anything. -/
inductive Raises (s : State) (i : Instr) : CmdError → Prop
  | extract (h : i = .extract) : Raises s i .badArgument
  | image (h : i = .cfg ∨ i = .hdrEmit) (e : CmdError) (he : e = .badArgument ∨ e = .imageTooLarge) : Raises s i e
  | header (h : i = .hdrParse) : Raises s i .notAContainer
  | intensity (h : WellFormed i = false) : Raises s i .badCommand
  | format (h : checksFormatOnly i) (hf : ∀ f, formatOfCode s.format = some f → allowedFormat i f = false) :
      Raises s i .badArgument

/-- Every way a command can end in a next state. -/
inductive Ends (s : State) : Instr → State → Prop
  | failed (i : Instr) (e : CmdError) (h : Raises s i e) : Ends s i (errorCompletion s e)
  | nop : Ends s .nop (complete (clearLvalid s))
  | sreset : Ends s .sreset (complete (softReset s))
  | cfg (hi : imageError (signedReg s.imgW) (signedReg s.imgH) = none) (hf : (formatOfCode s.format).isSome = true) :
      Ends s .cfg (cfgState s (signedReg s.imgW) (signedReg s.imgH))
  | hdrEmit (hi : imageError (signedReg s.imgW) (signedReg s.imgH) = none) (hf : (formatOfCode s.format).isSome = true) :
      Ends s .hdrEmit (complete (clearLvalid (writeWindow s .hdr 0
        (headerBytes s.format (signedReg s.imgW) (signedReg s.imgH)))))
  | hdrParse (l : List Nat) (hl : readHeader s.mem = .ok l) (hv : headerValid l = true) :
      Ends s .hdrParse (complete (clearLvalid (loadHeader s l)))
  | extract (f : Format) (l : List Rgba) (rest : List SrcAnswer) (hf : formatOfCode s.format = some f)
      (hr : extractRefused s = false)
      (hp : readPixels s.portEra (srcDepth s.srcCfg) (srcPremul s.srcCfg) (extractReads s) s.srcPort = .pixels l rest) :
      Ends s .extract (complete (clearLvalid (writeWindow (afterReads s rest) .blk 0 (blockContents f l))))
  | extractIo (k : Nat) (rest : List SrcAnswer) :
      Ends s .extract (errorCompletion (forgetBlock (afterReads s rest)) (.io k))
  | decode (f : Format) (bytes : List Byte) (m : Mode) (hf : formatOfCode s.format = some f)
      (hl : bytes.length = 64) : Ends s .decode (decodedState s bytes m)
  | score (f : Format) (loss : Nat) (hf : formatOfCode s.format = some f) : Ends s .score (complete (setLoss s loss))
  | scoreAlpha (f : Format) (loss al : Nat) (hf : formatOfCode s.format = some f) (ha : isA8 f = true) :
      Ends s .score (complete (setAloss (setLoss s loss) al))
  | candidate (i : Instr) (f : Format) (px : List SrcPixel) (hg : isColourGenerator i = true)
      (hw : WellFormed i = true) (hf : formatOfCode s.format = some f) (ha : allowedFormat i f = true)
      (hr : readSource s.mem f = .ok px) : Ends s i (complete (colourResult s f px (generatorWord f px i)))
  | candEac8 (f : Format) (alpha : List Nat) (hf : formatOfCode s.format = some f) (ha : isA8 f = true)
      (hr : readAlpha s.mem .blk = .ok alpha) :
      Ends s .candEac8 (complete (setMode (setAloss (setLoss (putCodeword s 0 (searchAlpha params alpha).1)
        (searchAlpha params alpha).2) (searchAlpha params alpha).2) .eac))
  | candEac11 (ch : Bool) (f : Format) (samples : List Nat) (hf : formatOfCode s.format = some f)
      (ha : allowedFormat (.candEac11 ch) f = true) (hr : readSamples s.mem .blk ch.toNat = .ok samples) :
      Ends s (.candEac11 ch) (complete (setMode (setLoss (putCodeword s (8 * ch.toNat)
        (searchSamples params f samples).1) (searchSamples params f samples).2) .eac))
  | encode (f : Format) (w : DWord) (loss : Nat) (m : Mode) (hf : formatOfCode s.format = some f)
      (ha : isA8 f = false) : Ends s .encode (complete (setMode (setLoss (putCodeword s 0 w) loss) m))
  | encodeTwo (f : Format) (w v : DWord) (loss : Nat) (hf : formatOfCode s.format = some f)
      (hc : formatClass f = .rg11) :
      Ends s .encode (complete (setMode (setLoss (putCodeword (putCodeword s 0 w) 8 v) loss) .eac))
  | encodeAlpha (f : Format) (w v : DWord) (loss : Nat) (m : Mode) (al : Nat) (hf : formatOfCode s.format = some f)
      (ha : isA8 f = true) :
      Ends s .encode (complete (setAloss (setMode (setLoss (putCodeword (putCodeword s 0 w) 8 v) loss) m) al))

theorem ends_colourCandidate {i : Instr} (hg : isColourGenerator i = true) (hw : WellFormed i = true)
    (h : exec i s = .next t) : Ends s i t := by
  obtain ⟨allowed, transp, ha, he⟩ := exec_colourGenerator (s := s) hg hw
  rw [he] at h
  rcases colourCandidate_next h with ⟨rfl, hf⟩ | ⟨f, px, hf, h1, h2, hr, rfl⟩
  · exact .failed _ _ (.format (.inl hg) fun f hf' => by rw [ha f]; exact hf f hf')
  · refine .candidate i f px hg hw hf ?_ hr
    rw [ha f, h1]
    cases transp <;> simp_all

theorem wellFormed_of_colourCandidate {i : Instr} (hg : isColourGenerator i = true) (h : exec i s = .next t) :
    Ends s i t := by
  cases hw : WellFormed i
  · have he : exec i s = .next (errorCompletion s .badCommand) := by
      cases i <;> simp only [WellFormed, Bool.true_eq_false] at hw <;>
        simp [exec, execCandT, execCandH, intensityCandidate, hw, raise]
    rw [he] at h
    cases h
    exact .failed _ _ (.intensity hw)
  · exact ends_colourCandidate hg hw h

/-- What a command can do: the inversion every proof about all commands starts from. -/
theorem exec_ends {i : Instr} (h : exec i s = .next t) : Ends s i t := by
  cases i
  case candId => exact wellFormed_of_colourCandidate rfl h
  case candEtc1s => exact wellFormed_of_colourCandidate rfl h
  case candPlanar => exact wellFormed_of_colourCandidate rfl h
  case candT => exact wellFormed_of_colourCandidate rfl h
  case candH => exact wellFormed_of_colourCandidate rfl h
  all_goals simp only [exec] at h
  case nop => rw [execNop_next h]; exact .nop
  case sreset => rw [execSreset_next h]; exact .sreset
  case cfg =>
    rcases execCfg_next h with rfl | rfl | ⟨h1, h2, rfl⟩
    · exact .failed _ _ (.image (.inl rfl) _ (.inl rfl))
    · exact .failed _ _ (.image (.inl rfl) _ (.inr rfl))
    · exact .cfg h1 h2
  case extract =>
    rcases execExtract_next h with rfl | ⟨f, hf, hr, ⟨l, rest, hp, rfl⟩ | ⟨i, rest, rfl⟩⟩
    · exact .failed _ _ (.extract rfl)
    · exact .extract f l rest hf hr hp
    · exact .extractIo i rest
  case encode =>
    rcases execEncode_next h with ⟨hf, rfl⟩ | ⟨f, hf, h⟩
    · exact .failed _ _ (.format (by simp [checksFormatOnly]) (by simp [hf]))
    · rcases encodeBlock_next h with ⟨ha, w, l, m, rfl⟩ | ⟨hc, w, v, l, rfl⟩ | ⟨ha, w, v, l, m, al, rfl⟩
      · exact .encode f w l m hf ha
      · exact .encodeTwo f w v l hf hc
      · exact .encodeAlpha f w v l m al hf ha
  case decode =>
    rcases execDecode_next h with ⟨hf, rfl⟩ | ⟨f, b, m, hf, hl, rfl⟩
    · exact .failed _ _ (.format (by simp [checksFormatOnly]) (by simp [hf]))
    · exact .decode f b m hf hl
  case score =>
    rcases execScore_next h with ⟨hf, rfl⟩ | ⟨f, l, hf, rfl | ⟨ha, al, rfl⟩⟩
    · exact .failed _ _ (.format (by simp [checksFormatOnly]) (by simp [hf]))
    · exact .score f l hf
    · exact .scoreAlpha f l al hf ha
  case hdrEmit =>
    rcases execHdrEmit_next h with rfl | rfl | ⟨h1, h2, rfl⟩
    · exact .failed _ _ (.image (.inr rfl) _ (.inl rfl))
    · exact .failed _ _ (.image (.inr rfl) _ (.inr rfl))
    · exact .hdrEmit h1 h2
  case hdrParse =>
    rcases execHdrParse_next h with ⟨_, rfl⟩ | ⟨l, hl, hv, rfl⟩
    · exact .failed _ _ (.header rfl)
    · exact .hdrParse l hl hv
  case candEac8 =>
    rcases candEac8_next h with ⟨rfl, hf⟩ | ⟨f, al, hf, ha, hr, rfl⟩
    · exact .failed _ _ (.format (by simp [checksFormatOnly]) hf)
    · exact .candEac8 f al hf ha hr
  case candEac11 ch =>
    rcases candEac11_next h with ⟨rfl, hf⟩ | ⟨f, al, hf, ha, hr, rfl⟩
    · exact .failed _ _ (.format (by simp [checksFormatOnly]) hf)
    · exact .candEac11 ch f al hf ha hr

end Sys2Proof.Machine
end

