-- ==== Sys2Proof/Laws/Encoding.lean ====
section
/-! SUPPORT. The command word: reading back a field of an encoded word, and a word from its fields. -/

namespace Sys2Proof

open Sys2Proof.Machine

/-- Every bit of a command word (spec/30_encoding.md R92). -/
theorem getLsbD_commandWord (op : Byte) (red flip transp : Bool) (intens : BitVec 2) (ch : Bool) (i : Nat) :
    (commandWord op red flip transp intens ch).getLsbD i =
      if i < 8 then op.getLsbD i else if i = 8 then red else if i = 9 then flip else if i = 10 then transp
      else if i < 13 then intens.getLsbD (i - 11) else if i = 13 then ch else false := by
  simp only [commandWord, BitVec.getLsbD_append, BitVec.getLsbD_ofBool]
  by_cases h1 : i < 8
  · simp [h1]
  by_cases h2 : i = 8
  · subst h2; simp
  by_cases h3 : i = 9
  · subst h3; simp
  by_cases h4 : i = 10
  · subst h4; simp
  by_cases h5 : i < 13
  · simp [h1, h2, h3, h4, h5, show ¬i - 8 < 1 by omega,
      show i - 11 < 2 by omega, show i - 8 - 1 - 1 - 1 = i - 11 by omega, show ¬i - 8 - 1 < 1 by omega,
      show ¬i - 8 - 1 - 1 < 1 by omega]
  by_cases h6 : i = 13
  · subst h6; simp
  · simp [h1, h2, h3, h4, h5, h6, show ¬i - 8 < 1 by omega, show ¬i - 8 - 1 < 1 by omega,
      show ¬i - 8 - 1 - 1 < 1 by omega, show ¬i - 8 - 1 - 1 - 1 < 2 by omega, show ¬i - 8 - 1 - 1 - 1 - 2 < 1 by omega]

/-- A word with clear reserved bits is the word of its fields (R92). -/
theorem commandWord_fields (w : Word) (h : reservedField w = 0) :
    commandWord (w.extractLsb' 0 8) (commandFields w).red (commandFields w).flip (commandFields w).transp
      (commandFields w).intens (commandFields w).ch = w := by
  apply BitVec.eq_of_getLsbD_eq
  intro i hi
  rw [getLsbD_commandWord]
  simp only [commandFields, BitVec.getLsbD_extractLsb']
  by_cases h1 : i < 8
  · simp [h1]
  by_cases h2 : i = 8
  · subst h2; simp
  by_cases h3 : i = 9
  · subst h3; simp
  by_cases h4 : i = 10
  · subst h4; simp
  by_cases h5 : i < 13
  · simp [h1, h2, h3, h4, h5, show i - 11 < 2 by omega, show 11 + (i - 11) = i by omega]
  by_cases h6 : i = 13
  · subst h6; simp
  · have hr := congrArg (fun v => v.getLsbD (i - 14)) h
    simp only [reservedField, BitVec.getLsbD_extractLsb', show i - 14 < 18 by omega, decide_true, Bool.true_and,
      show 14 + (i - 14) = i by omega] at hr
    have h0 : (0 : BitVec 18).getLsbD (i - 14) = false := BitVec.getLsbD_zero
    simp only [h1, h2, h3, h4, h5, h6, if_false]
    rw [hr]; exact h0.symm

/-- The opcode of a command word. -/
theorem extract_op_commandWord (op : Byte) (red flip transp : Bool) (intens : BitVec 2) (ch : Bool) :
    (commandWord op red flip transp intens ch).extractLsb' 0 8 = op := by
  apply BitVec.eq_of_getLsbD_eq
  intro i hi
  simp [getLsbD_commandWord, hi]

/-- The reserved bits of a command word are clear. -/
theorem reservedField_commandWord (op : Byte) (red flip transp : Bool) (intens : BitVec 2) (ch : Bool) :
    reservedField (commandWord op red flip transp intens ch) = 0 := by
  apply BitVec.eq_of_getLsbD_eq
  intro i hi
  simp only [reservedField, BitVec.getLsbD_extractLsb', getLsbD_commandWord, hi, decide_true, Bool.true_and]
  simp [show ¬14 + i < 8 by omega, show ¬14 + i = 8 by omega, show ¬14 + i = 9 by omega,
    show ¬14 + i = 10 by omega, show ¬14 + i < 13 by omega, show ¬14 + i = 13 by omega]

/-- The option fields of a command word. -/
theorem commandFields_commandWord (op : Byte) (red flip transp : Bool) (intens : BitVec 2) (ch : Bool) :
    commandFields (commandWord op red flip transp intens ch) = ⟨red, flip, transp, intens, ch⟩ := by
  simp only [commandFields, getLsbD_commandWord]
  simp only [CommandFields.mk.injEq]
  refine ⟨by simp, by simp, by simp, ?_, by simp⟩
  apply BitVec.eq_of_getLsbD_eq
  intro i hi
  simp only [BitVec.getLsbD_extractLsb', getLsbD_commandWord, hi, decide_true, Bool.true_and]
  simp [show ¬11 + i < 8 by omega, show ¬11 + i = 8 by omega, show ¬11 + i = 9 by omega,
    show ¬11 + i = 10 by omega, show 11 + i < 13 by omega, show 11 + i - 11 = i by omega]

end Sys2Proof
end

