-- ==== Sys2Proof/Laws/HostPort.lean ====
section
/-! SUPPORT. What a host access, a host instruction and a turn can do, each said once. -/

namespace Sys2Proof.Machine

variable {s t : State}

/-! ## Access targets -/

theorem regRead_of_none {width : Width} {off : Nat} (h : accessTarget width off = none) :
    regRead s width off = (0, accessError s) := by simp [regRead, h]

theorem regRead_of_some {width : Width} {off : Nat} {tg : Target} (h : accessTarget width off = some tg) :
    regRead s width off = (readTarget s off tg, s) := by simp [regRead, h]

theorem regWrite_of_none {width : Width} {off : Nat} (v : Word) (h : accessTarget width off = none) :
    regWrite s width off v = accessError s := by simp [regWrite, h]

theorem regWrite_of_some {width : Width} {off : Nat} {tg : Target} (v : Word) (h : accessTarget width off = some tg) :
    regWrite s width off v =
      if isBusy s && tg != .reg .status then accessError s else writeTarget s off v tg := by simp [regWrite, h]

/-- A register is reached at its offset only, by a 4-byte access (spec/10_state.md R25, spec/20_memory.md R69). -/
theorem accessTarget_reg {width : Width} {off : Nat} {r : Reg} (h : accessTarget width off = some (.reg r)) :
    width = .w4 ∧ regAt off = some r := by
  unfold accessTarget at h
  cases width
  case w4 =>
    simp only at h
    split at h
    · split at h
      · cases h
      · simpa using h
    · cases h
  all_goals simp at h

/-- A window is reached inside its bytes only. -/
theorem accessTarget_byte {width : Width} {off : Nat} {win : Window} (h : accessTarget width off = some (.byte win)) :
    width = .w1 ∧ windowAt off = some win := by
  unfold accessTarget at h
  cases width
  case w1 => simpa using h
  case w4 =>
    simp only at h
    split at h
    · split at h
      · cases h
      · simp at h
    · cases h
  all_goals simp at h

theorem accessTarget_quad {width : Width} {off : Nat} {win : Window} (h : accessTarget width off = some (.quad win)) :
    width = .w4 ∧ off % 4 = 0 ∧ windowAt off = some win := by
  unfold accessTarget at h
  cases width
  case w4 =>
    simp only at h
    split at h
    · split at h
      · cases h; exact ⟨rfl, ‹_›, ‹_›⟩
      · simp at h
    · cases h
  all_goals simp at h

/-- STATUS has offset 8. -/
theorem regAt_status {off : Nat} (h : regAt off = some .status) : off = 0x008 := by
  unfold regAt at h
  split at h <;> first | rfl | cases h

/-- No register and no window lies in the reserved ranges (spec/10_state.md R43). -/
theorem accessTarget_reserved (width : Width) {off : Nat} (h : (0x03C ≤ off ∧ off < 0x040) ∨ (0x050 ≤ off ∧ off < 0x080) ∨
    (0x0A0 ≤ off ∧ off < 0x100) ∨ (0x180 ≤ off ∧ off < 0x200)) : accessTarget width off = none := by
  have hw : windowAt off = none := by
    unfold windowAt
    rw [if_neg (by omega), if_neg (by omega), if_neg (by omega), if_neg (by omega)]
  have hr : regAt off = none := by
    have hall : ∀ n < 512, (0x03C ≤ n ∧ n < 0x040) ∨ (0x050 ≤ n ∧ n < 0x080) ∨ (0x0A0 ≤ n ∧ n < 0x100) ∨
        (0x180 ≤ n ∧ n < 0x200) → regAt n = none := by decide +kernel
    exact hall off (by omega) h
  cases width <;> simp [accessTarget, hw, hr]

/-- The four bytes of an aligned quad lie in its window. -/
theorem windowAt_quad {off : Nat} {win : Window} (h4 : off % 4 = 0) (h : windowAt off = some win) :
    ∀ i < 4, windowAt (off + i) = some win := by
  intro i hi
  have hb := windowAt_eq_some off win h
  have ho : off + i = windowBase win + (off - windowBase win + i) := by omega
  rw [ho]
  refine windowAt_of_lt win _ ?_
  cases win <;> simp only [windowBase, windowSize] at hb ⊢ <;> omega

/-! ## Writes -/

/-- Everything a host write can do. -/
inductive Writes (s : State) : State → Prop
  | error : Writes s (accessError s)
  | status (v : Word) : Writes s (writeStatus s v)
  | accept (h : s.seq = .idle) (v : Word) : Writes s (acceptCommand s v)
  | param (h : s.seq = .idle) (f : Byte) (w hh bx by' : Word) (cfg : BitVec 4) (x0 y0 x1 y1 : Word) :
      Writes s { s with format := f, imgW := w, imgH := hh, blockX := bx, blockY := by', srcCfg := cfg,
                        srcX0 := x0, srcY0 := y0, srcX1 := x1, srcY1 := y1 }
  | bytes (h : s.seq = .idle) (off : Nat) (l : List Byte) (hl : ∀ i < l.length, ∃ win ≠ .dec, windowAt (off + i) = some win) :
      Writes s { s with mem := memWriteList s.mem off l }

theorem writes_regWrite (s : State) (width : Width) (off : Nat) (v : Word) : Writes s (regWrite s width off v) := by
  cases ht : accessTarget width off with
  | none => rw [regWrite_of_none v ht]; exact .error
  | some tg =>
    rw [regWrite_of_some v ht]
    split
    · exact .error
    · rename_i hb
      by_cases hst : tg = .reg .status
      · subst hst; exact .status v
      · have hidle : s.seq = .idle := by
          cases hq : s.seq with
          | idle => rfl
          | busy c => simp [isBusy, hq, hst] at hb
        cases tg with
        | reg r =>
          cases r
          case cmd => exact .accept hidle v
          case status => exact absurd rfl hst
          case format => exact .param hidle _ s.imgW s.imgH s.blockX s.blockY s.srcCfg s.srcX0 s.srcY0 s.srcX1 s.srcY1
          case imgW => exact .param hidle s.format v s.imgH s.blockX s.blockY s.srcCfg s.srcX0 s.srcY0 s.srcX1 s.srcY1
          case imgH => exact .param hidle s.format s.imgW v s.blockX s.blockY s.srcCfg s.srcX0 s.srcY0 s.srcX1 s.srcY1
          case bx => exact .param hidle s.format s.imgW s.imgH v s.blockY s.srcCfg s.srcX0 s.srcY0 s.srcX1 s.srcY1
          case by' => exact .param hidle s.format s.imgW s.imgH s.blockX v s.srcCfg s.srcX0 s.srcY0 s.srcX1 s.srcY1
          case srcCfg => exact .param hidle s.format s.imgW s.imgH s.blockX s.blockY _ s.srcX0 s.srcY0 s.srcX1 s.srcY1
          case srcX0 => exact .param hidle s.format s.imgW s.imgH s.blockX s.blockY s.srcCfg v s.srcY0 s.srcX1 s.srcY1
          case srcY0 => exact .param hidle s.format s.imgW s.imgH s.blockX s.blockY s.srcCfg s.srcX0 v s.srcX1 s.srcY1
          case srcX1 => exact .param hidle s.format s.imgW s.imgH s.blockX s.blockY s.srcCfg s.srcX0 s.srcY0 v s.srcY1
          case srcY1 => exact .param hidle s.format s.imgW s.imgH s.blockX s.blockY s.srcCfg s.srcX0 s.srcY0 s.srcX1 v
          all_goals exact .error
        | byte win =>
          simp only [writeTarget, writeBytesTo]
          split
          · exact .error
          · rename_i hd
            refine .bytes hidle off _ fun i hi => ⟨win, hd, ?_⟩
            have hi0 : i = 0 := by simpa using hi
            rw [hi0]; exact (accessTarget_byte ht).2
        | quad win =>
          simp only [writeTarget, writeBytesTo]
          split
          · exact .error
          · rename_i hd
            have hq := accessTarget_quad ht
            exact .bytes hidle off _ fun i hi => ⟨win, hd, windowAt_quad hq.2.1 hq.2.2 i hi⟩

/-- While BUSY a host write changes ACCERR at most (spec/70_reset_and_hazards.md R356). -/
theorem regWrite_busy {c : Word} (h : s.seq = .busy c) (width : Width) (off : Nat) (v : Word) :
    ∃ b, regWrite s width off v = { s with accErr := b } := by
  generalize hu : regWrite s width off v = u
  have hw := writes_regWrite s width off v
  rw [hu] at hw
  cases hw with
  | error => exact ⟨true, rfl⟩
  | status v =>
    unfold writeStatus
    split
    · exact ⟨false, rfl⟩
    · exact ⟨s.accErr, rfl⟩
  | accept hi => rw [h] at hi; cases hi
  | param hi => rw [h] at hi; cases hi
  | bytes hi => rw [h] at hi; cases hi

/-- A read changes ACCERR at most (spec/20_memory.md R72). -/
theorem regRead_state (s : State) (width : Width) (off : Nat) :
    (regRead s width off).2 = s ∨ (regRead s width off).2 = accessError s := by
  cases ht : accessTarget width off with
  | none => right; rw [regRead_of_none ht]
  | some tg => left; rw [regRead_of_some ht]

/-! ## Host instructions and turns -/

/-- Everything a host instruction can do: a write, an access error, or nothing, and then a new place and new names. -/
theorem hostInstr_cases (s : State) (i : HostInstr) :
    ∃ u pc vars, (Writes s u ∨ u = s) ∧ hostInstr s i = { u with hostPc := pc, hostVars := vars } := by
  cases i with
  | write width off v => exact ⟨_, s.hostPc + 1, _, .inl (writes_regWrite s width off.toNat v), rfl⟩
  | read width off name =>
    refine ⟨(regRead s width off.toNat).2, s.hostPc + 1, setHostVar s.hostVars name (regRead s width off.toNat).1, ?_, rfl⟩
    rcases regRead_state s width off.toNat with h | h <;> rw [h]
    · exact .inr rfl
    · exact .inl .error
  | bnz name mask target => exact ⟨s, _, s.hostVars, .inr rfl, rfl⟩

/-- While BUSY a host instruction changes ACCERR and the host's own state at most. -/
theorem hostInstr_busy {c : Word} (h : s.seq = .busy c) (i : HostInstr) :
    ∃ b pc vars, hostInstr s i = { s with accErr := b, hostPc := pc, hostVars := vars } := by
  cases i with
  | write width off v =>
    obtain ⟨b, hb⟩ := regWrite_busy h width off.toNat v
    exact ⟨b, s.hostPc + 1, s.hostVars, by simp only [hostInstr, hostJump, hb]⟩
  | read width off name =>
    simp only [hostInstr, hostJump]
    rcases regRead_state s width off.toNat with e | e <;> rw [e]
    · exact ⟨s.accErr, _, _, rfl⟩
    · exact ⟨true, _, _, rfl⟩
  | bnz name mask target => exact ⟨s.accErr, _, s.hostVars, rfl⟩

/-- What the host's turn answers. -/
theorem hostTurn_next (h : hostTurn s = .next t) : t = s ∨ ∃ i, s.hostProg[s.hostPc]? = some i ∧ t = hostInstr s i := by
  unfold hostTurn at h
  split at h
  · cases h; exact .inr ⟨_, ‹_›, rfl⟩
  · cases h; exact .inl rfl

/-- What the core's turn answers: nothing in IDLE, BAD_COMMAND for an illegal word, else what the command answers. -/
theorem coreTurn_next (h : coreTurn s = .next t) :
    (s.seq = .idle ∧ t = s) ∨
    ∃ w, s.seq = .busy w ∧
      ((∃ e, decode w = .error e ∧ t = errorCompletion s .badCommand) ∨
        ∃ i, decode w = .ok i ∧ exec i s = .next t) := by
  unfold coreTurn fetchCommand at h
  cases hs : s.seq with
  | idle => simp only [hs] at h; cases h; exact .inl ⟨rfl, rfl⟩
  | busy w =>
    simp only [hs] at h
    refine .inr ⟨w, rfl, ?_⟩
    cases hd : decode w with
    | ok i => simp only [hd] at h; exact .inr ⟨i, rfl, h⟩
    | error e => simp only [hd] at h; exact .inl ⟨e, rfl, by simpa using h⟩

/-- What a step answers: the listed or default turn of the host or the core, or hardware reset. -/
theorem step_next (h : step s = .next t) :
    ∃ ts, (hostTurn { s with turns := ts } = .next t ∨ coreTurn { s with turns := ts } = .next t ∨
      (s.turns = .reset :: ts ∧ t = hardwareReset { s with turns := ts })) := by
  unfold step nextTurn at h
  split at h
  · rename_i hs
    have he : { s with turns := [] } = s := by rw [← hs]
    refine ⟨[], ?_⟩
    rw [he]
    unfold defaultTurn at h
    split at h
    · exact .inr (.inl h)
    · exact .inl h
  · rename_i tn ts hs
    refine ⟨ts, ?_⟩
    cases tn
    · exact .inl h
    · exact .inr (.inl h)
    · simp only [takeTurn] at h; cases h; exact .inr (.inr ⟨hs, rfl⟩)

end Sys2Proof.Machine
end

