-- ==== Sys2Proof/Laws/PerInstr.lean ====
section
/-! SUPPORT. The statements made instruction by instruction, one lemma for each constructor. -/

namespace Sys2Proof.Laws

open Sys2Proof.Machine

/-- The word an instruction encodes to is legal in its own row of the opcode table, reserved bits and unused
fields clear, exactly when the instruction is well-formed (spec/30_encoding.md R92, R93, R120). -/
def EncodingLegal.Statement (i : Instr) : Prop :=
  (opcodeRows[rowOf i]?).map (legalIn (Sys2Proof.encode i)) = some (WellFormed i)

theorem EncodingLegal.nop : EncodingLegal.Statement .nop := by
  unfold EncodingLegal.Statement; decide

theorem EncodingLegal.sreset : EncodingLegal.Statement .sreset := by
  unfold EncodingLegal.Statement; decide

theorem EncodingLegal.cfg : EncodingLegal.Statement .cfg := by
  unfold EncodingLegal.Statement; decide

theorem EncodingLegal.extract : EncodingLegal.Statement .extract := by
  unfold EncodingLegal.Statement; decide

theorem EncodingLegal.encode : EncodingLegal.Statement .encode := by
  unfold EncodingLegal.Statement; decide

theorem EncodingLegal.decode : EncodingLegal.Statement .decode := by
  unfold EncodingLegal.Statement; decide

theorem EncodingLegal.score : EncodingLegal.Statement .score := by
  unfold EncodingLegal.Statement; decide

theorem EncodingLegal.hdrEmit : EncodingLegal.Statement .hdrEmit := by
  unfold EncodingLegal.Statement; decide

theorem EncodingLegal.hdrParse : EncodingLegal.Statement .hdrParse := by
  unfold EncodingLegal.Statement; decide

theorem EncodingLegal.candId (red flip transp : Bool) : EncodingLegal.Statement (.candId red flip transp) := by
  unfold EncodingLegal.Statement; revert red flip transp; decide

theorem EncodingLegal.candEtc1s : EncodingLegal.Statement .candEtc1s := by
  unfold EncodingLegal.Statement; decide

theorem EncodingLegal.candPlanar : EncodingLegal.Statement .candPlanar := by
  unfold EncodingLegal.Statement; decide

theorem EncodingLegal.candT (transp : Bool) (intens : BitVec 2) : EncodingLegal.Statement (.candT transp intens) := by
  unfold EncodingLegal.Statement; revert transp intens; decide

theorem EncodingLegal.candH (transp : Bool) (intens : BitVec 2) : EncodingLegal.Statement (.candH transp intens) := by
  unfold EncodingLegal.Statement; revert transp intens; decide

theorem EncodingLegal.candEac8 : EncodingLegal.Statement .candEac8 := by
  unfold EncodingLegal.Statement; decide

theorem EncodingLegal.candEac11 (ch : Bool) : EncodingLegal.Statement (.candEac11 ch) := by
  unfold EncodingLegal.Statement; revert ch; decide

end Sys2Proof.Laws
end

