-- ==== Sys2Proof/Laws/Search.lean ====
section
/-! SUPPORT. The ordered searches: the first element that reaches the minimum, the driver's best candidate, and
the losses they leave. -/

namespace Sys2Proof.Machine

/-! ## argmin -/

/-- A best-so-far among the elements of a list: it is one of them, and no element is smaller. -/
theorem keepBest_fold {α : Type} (f : α → Nat) (l : List α) (a : α) :
    ∃ b, l.foldl (keepBest natLt f) (some (a, f a)) = some (b, f b) ∧
      (b = a ∨ b ∈ l) ∧ f b ≤ f a ∧ ∀ c ∈ l, f b ≤ f c := by
  induction l generalizing a with
  | nil => exact ⟨a, rfl, .inl rfl, le_rfl, by simp⟩
  | cons d l ih =>
    simp only [List.foldl_cons, keepBest, natLt]
    by_cases h : f d < f a
    · obtain ⟨b, h1, h2, h3, h4⟩ := ih d
      refine ⟨b, by simpa [h] using h1, ?_, by omega, ?_⟩
      · rcases h2 with rfl | h2
        · right; simp
        · right; simp [h2]
      · intro c hc
        rcases List.mem_cons.mp hc with rfl | hc
        · exact h3
        · exact h4 c hc
    · obtain ⟨b, h1, h2, h3, h4⟩ := ih a
      refine ⟨b, by simpa [h] using h1, ?_, h3, ?_⟩
      · rcases h2 with rfl | h2
        · exact .inl rfl
        · right; simp [h2]
      · intro c hc
        rcases List.mem_cons.mp hc with rfl | hc
        · omega
        · exact h4 c hc

/-- What an ordered search over a non-empty list answers: an element and its value, which is the least
(spec/00_scope.md R11). -/
theorem argmin_spec {α : Type} (dflt : α) (f : α → Nat) {l : List α} (hl : l ≠ []) :
    (argmin dflt f l).1 ∈ l ∧ (argmin dflt f l).2 = f (argmin dflt f l).1 ∧ ∀ c ∈ l, (argmin dflt f l).2 ≤ f c := by
  cases l with
  | nil => exact absurd rfl hl
  | cons a l =>
    obtain ⟨b, h1, h2, h3, h4⟩ := keepBest_fold f l a
    have h : argminBy natLt f (a :: l) = some (b, f b) := h1
    simp only [argmin, h, Option.getD_some]
    refine ⟨?_, trivial, ?_⟩
    · rcases h2 with rfl | h2 <;> simp [*]
    · intro c hc
      rcases List.mem_cons.mp hc with rfl | hc
      · exact h3
      · exact h4 c hc

/-- An ordered search keeps the best of what came before unless an element is strictly smaller. -/
theorem keepBest_fold_same {α : Type} (f : α → Nat) (l : List α) (a : α) (h : ∀ c ∈ l, f a ≤ f c) :
    l.foldl (keepBest natLt f) (some (a, f a)) = some (a, f a) := by
  induction l with
  | nil => rfl
  | cons d l ih =>
    have hd : ¬f d < f a := by have := h d (by simp); omega
    simp only [List.foldl_cons, keepBest, natLt, hd, decide_false, Bool.false_eq_true, if_false]
    exact ih fun c hc => h c (by simp [hc])

/-- Every element before the one found has a greater value: the search answers the first minimum
(spec/00_scope.md R11). -/
theorem argmin_first {α : Type} (dflt : α) (f : α → Nat) (l₁ l₂ : List α) (a : α) (h₁ : ∀ c ∈ l₁, f a < f c)
    (h₂ : ∀ c ∈ l₂, f a ≤ f c) : argmin dflt f (l₁ ++ a :: l₂) = (a, f a) := by
  have hs : ∀ o : Option (α × Nat), (∀ p, o = some p → f a < p.2) →
      (a :: l₂).foldl (keepBest natLt f) o = some (a, f a) := by
    intro o ho
    rw [List.foldl_cons]
    have hk : keepBest natLt f o a = some (a, f a) := by
      cases o with
      | none => rfl
      | some p => simp [keepBest, natLt, ho p rfl]
    rw [hk, keepBest_fold_same f l₂ a h₂]
  have hp : ∀ p, l₁.foldl (keepBest natLt f) none = some p → f a < p.2 := by
    intro p h
    cases l₁ with
    | nil => cases h
    | cons b l =>
      obtain ⟨c, h1, h2, -, -⟩ := keepBest_fold f l b
      have : some p = some (c, f c) := h.symm.trans h1
      cases this
      rcases h2 with rfl | h2
      · exact h₁ _ (by simp)
      · exact h₁ _ (by simp [h2])
  unfold argmin argminBy
  rw [List.foldl_append, hs _ hp]
  rfl

/-- A non-empty list splits at the first of its least elements. -/
theorem exists_first_min {α : Type} (f : α → Nat) (l : List α) (hl : l ≠ []) :
    ∃ l₁ a l₂, l = l₁ ++ a :: l₂ ∧ (∀ c ∈ l₁, f a < f c) ∧ ∀ c ∈ l₂, f a ≤ f c := by
  induction l with
  | nil => exact absurd rfl hl
  | cons b l ih =>
    by_cases hn : l = []
    · subst hn; exact ⟨[], b, [], rfl, by simp, by simp⟩
    · obtain ⟨l₁, a, l₂, rfl, h1, h2⟩ := ih hn
      by_cases h : f a < f b
      · exact ⟨b :: l₁, a, l₂, rfl, by simpa using ⟨h, h1⟩, h2⟩
      · refine ⟨[], b, l₁ ++ a :: l₂, rfl, by simp, fun c hc => ?_⟩
        rcases List.mem_append.mp hc with hc | hc
        · have := h1 c hc; omega
        · rcases List.mem_cons.mp hc with rfl | hc
          · omega
          · have := h2 c hc; omega

/-- What an ordered search answers is the first of the least elements. -/
theorem argmin_split {α : Type} (dflt : α) (f : α → Nat) {l : List α} (hl : l ≠ []) :
    ∃ l₁ l₂, l = l₁ ++ (argmin dflt f l).1 :: l₂ ∧ (∀ c ∈ l₁, (argmin dflt f l).2 < f c) ∧
      ∀ c ∈ l₂, (argmin dflt f l).2 ≤ f c := by
  obtain ⟨l₁, a, l₂, rfl, h1, h2⟩ := exists_first_min f l hl
  rw [argmin_first dflt f l₁ l₂ a h1 h2]
  exact ⟨l₁, l₂, rfl, h1, h2⟩

/-- In a search over the numbers below `n`, every number before the one found has a greater value. -/
theorem argmin_range_first (f : Nat → Nat) (n t : Nat) (hn : 0 < n) (ht : t < (argmin 0 f (List.range n)).1) :
    (argmin 0 f (List.range n)).2 < f t := by
  have hl : List.range n ≠ [] := by simp; omega
  obtain ⟨l₁, l₂, hs, h1, -⟩ := argmin_split 0 f hl
  have hm := (argmin_spec 0 f hl).1
  generalize argmin 0 f (List.range n) = b at hs h1 hm ht
  refine h1 t ?_
  have hp : (l₁ ++ b.1 :: l₂).Pairwise (· < ·) := hs ▸ List.pairwise_lt_range
  have hmem : t ∈ l₁ ++ b.1 :: l₂ := hs ▸ List.mem_range.mpr (by have := List.mem_range.mp hm; omega)
  rcases List.mem_append.mp hmem with h | h
  · exact h
  · exfalso
    have hq := (List.pairwise_append.mp hp).2.1
    rcases List.mem_cons.mp h with rfl | h
    · omega
    · have := (List.pairwise_cons.mp hq).1 t h
      omega

/-! ## The driver -/

/-- What a run of candidates leaves: the scratch it started with, or the codeword, loss and sub-mode of one of them
(spec/44_alpha_eac_driver.md R278). -/
theorem runCandidates_cases (p : Params) (f : Format) (px : List SrcPixel) (sc : Scratch) (l : List Candidate) :
    runCandidates p f px sc l = sc ∨ ∃ c ∈ l, runCandidates p f px sc l =
      ⟨candidateWord p f px c, some (oracleLoss f px (candidateWord p f px c)), colourMode (candidateWord p f px c) f⟩ := by
  induction l generalizing sc with
  | nil => left; rfl
  | cons c l ih =>
    have hs : runCandidates p f px sc (c :: l) = runCandidates p f px (runCandidate p f px sc c) l := rfl
    rw [hs]
    rcases ih (runCandidate p f px sc c) with h | ⟨d, hd, h⟩
    · rw [h]
      simp only [runCandidate]
      split
      · right; exact ⟨c, by simp, rfl⟩
      · left; rfl
    · right; exact ⟨d, by simp [hd], h⟩

/-- A run of candidates ends with a loss no greater than that of any of them, nor than the loss it started with. -/
theorem runCandidates_le (p : Params) (f : Format) (px : List SrcPixel) (sc : Scratch) (l : List Candidate)
    (h : l ≠ [] ∨ sc.bestLoss ≠ none) :
    ∃ b, (runCandidates p f px sc l).bestLoss = some b ∧
      (∀ c ∈ l, b ≤ oracleLoss f px (candidateWord p f px c)) ∧ ∀ b', sc.bestLoss = some b' → b ≤ b' := by
  induction l generalizing sc with
  | nil =>
    rcases h with h | h
    · exact absurd rfl h
    · obtain ⟨b, hb⟩ := Option.ne_none_iff_exists'.mp h
      exact ⟨b, hb, by simp, fun b' hb' => by rw [hb] at hb'; cases hb'; exact le_rfl⟩
  | cons c l ih =>
    have hs : runCandidates p f px sc (c :: l) = runCandidates p f px (runCandidate p f px sc c) l := rfl
    rw [hs]
    have hb : ∃ b₁, (runCandidate p f px sc c).bestLoss = some b₁ ∧ b₁ ≤ oracleLoss f px (candidateWord p f px c) ∧
        ∀ b', sc.bestLoss = some b' → b₁ ≤ b' := by
      simp only [runCandidate]
      split
      · rename_i hbt
        refine ⟨_, rfl, le_rfl, fun b' hb' => ?_⟩
        rw [hb'] at hbt
        simpa [beats] using le_of_lt (by simpa [beats] using hbt)
      · rename_i hbt
        cases hsc : sc.bestLoss with
        | none => simp [hsc, beats] at hbt
        | some b' =>
          refine ⟨b', rfl, ?_, fun _ h => by cases h; exact le_rfl⟩
          simpa [hsc, beats] using hbt
    obtain ⟨b₁, h1, h2, h3⟩ := hb
    obtain ⟨b, h4, h5, h6⟩ := ih (runCandidate p f px sc c) (.inr (by simp [h1]))
    refine ⟨b, h4, fun d hd => ?_, fun b' hb' => le_trans (h6 b₁ h1) (h3 b' hb')⟩
    rcases List.mem_cons.mp hd with rfl | hd
    · exact le_trans (h6 b₁ h1) h2
    · exact h5 d hd

theorem runCandidates_append (p : Params) (f : Format) (px : List SrcPixel) (sc : Scratch) (l l' : List Candidate) :
    runCandidates p f px sc (l ++ l') = runCandidates p f px (runCandidates p f px sc l) l' := List.foldl_append

/-- No candidate beats a loss of 0. -/
theorem runCandidates_of_zero (p : Params) (f : Format) (px : List SrcPixel) {sc : Scratch} (h : sc.bestLoss = some 0)
    (l : List Candidate) : runCandidates p f px sc l = sc := by
  induction l with
  | nil => rfl
  | cons c l ih =>
    have hc : runCandidate p f px sc c = sc := by simp [runCandidate, h, beats]
    change runCandidates p f px (runCandidate p f px sc c) l = sc
    rw [hc, ih]

/-- The codeword of a candidate is the one its command builds. -/
theorem candidateWord_eq (f : Format) (px : List SrcPixel) (c : Candidate) :
    candidateWord params f px c = generatorWord f px (candidateCommand c) := by cases c <;> rfl

/-! ## Losses -/

theorem sqDiff_comm (a b : Int) : sqDiff a b = sqDiff b a := by
  simp only [sqDiff, ← Int.natAbs_neg (a - b), neg_sub]

/-- A square of a difference as an integer. -/
theorem sqDiff_cast (a b : Int) : (sqDiff a b : Int) = (a - b) ^ 2 := by simp [sqDiff]

theorem sqDiff_le {a b n : Int} (h1 : a - b ≤ n) (h2 : b - a ≤ n) : sqDiff a b ≤ n.toNat ^ 2 := by
  unfold sqDiff
  exact Nat.pow_le_pow_left (by omega) 2

/-- The largest pixel error of 8-bit colours (spec/42_metric.md R208). -/
theorem pixelError_le {p q : Rgb} (hp : p.r ≤ 255 ∧ p.g ≤ 255 ∧ p.b ≤ 255) (hq : q.r ≤ 255 ∧ q.g ≤ 255 ∧ q.b ≤ 255) :
    pixelError p q ≤ 65025000 := by
  have h (a b : Nat) (ha : a ≤ 255) (hb : b ≤ 255) : sqDiff a b ≤ 65025 :=
    sqDiff_le (a := a) (b := b) (n := 255) (by omega) (by omega)
  have h1 := h _ _ hp.1 hq.1
  have h2 := h _ _ hp.2.1 hq.2.1
  have h3 := h _ _ hp.2.2 hq.2.2
  unfold pixelError
  omega

/-- A sum of terms bounded by `n` over at most `k` terms. -/
theorem sum_le_mul (l : List Nat) (n : Nat) (h : ∀ v ∈ l, v ≤ n) : l.sum ≤ l.length * n := by
  induction l with
  | nil => simp
  | cons a l ih =>
    have h1 := h a (by simp)
    have h2 := ih fun v hv => h v (by simp [hv])
    simp only [List.sum_cons, List.length_cons, Nat.add_mul, Nat.one_mul]
    omega

/-- A term of a `zipWith` comes from a pair of terms. -/
theorem mem_zipWith {α β γ : Type} {f : α → β → γ} {l : List α} {l' : List β} {c : γ} (h : c ∈ List.zipWith f l l') :
    ∃ a ∈ l, ∃ b ∈ l', c = f a b := by
  induction l generalizing l' with
  | nil => simp at h
  | cons a l ih =>
    cases l' with
    | nil => simp at h
    | cons b l' =>
      simp only [List.zipWith_cons_cons, List.mem_cons] at h
      rcases h with rfl | h
      · exact ⟨a, by simp, b, by simp, rfl⟩
      · obtain ⟨x, hx, y, hy, e⟩ := ih h
        exact ⟨x, by simp [hx], y, by simp [hy], e⟩

end Sys2Proof.Machine
end

