-- ==== Sys2Proof/Laws/Tables.lean ====
section
/-! SUPPORT. Ranges of the ROM tables and of the arithmetic primitives (spec/40_normalizer.md R160). -/

namespace Sys2Proof.Machine

/-! ## Clamping and expansion -/

theorem clamp8_le (v : Int) : clamp8 v ≤ 255 := by
  unfold clamp8 clampTable
  split
  · assumption
  · split <;> omega

/-- In the range every use lies in, `clamp8` is the clamp to 0 to 255 (spec/41_decoder.md R163). -/
theorem clamp8_eq_clampInt {v : Int} (h1 : -512 ≤ v) (h2 : v ≤ 511) : clamp8 v = (clampInt v 0 255).toNat := by
  unfold clamp8 clampTable clampInt
  by_cases h : 0 ≤ v
  · rw [Int.emod_eq_of_lt h (by omega)]
    split
    · omega
    · split <;> omega
  · have : v % 1024 = v + 1024 := by omega
    rw [this, if_neg (by omega), if_neg (by omega)]; omega

theorem clampInt_bounds (v : Int) {lo hi : Int} (h : lo ≤ hi) : lo ≤ clampInt v lo hi ∧ clampInt v lo hi ≤ hi := by
  unfold clampInt; omega

theorem ext4_eq {n : Nat} (h : n < 16) : ext4 n = 17 * n := by revert n; decide

theorem ext5_le {n : Nat} (h : n < 32) : ext5 n ≤ 255 := by revert n; decide

theorem ext6_eq {n : Nat} (h : n < 64) : ext6 n = 4 * n + n / 16 := by revert n; decide

theorem ext7_eq {n : Nat} (h : n < 128) : ext7 n = 2 * n + n / 64 := by revert n; decide

/-! ## Tables -/

/-- An entry of a list, or the default, meets what every entry and the default meet. -/
theorem getD_all {α : Type} (p : α → Prop) (l : List α) (d : α) (h : ∀ a ∈ l, p a) (hd : p d) (i : Nat) :
    p (l.getD i d) := by
  rw [List.getD_eq_getElem?_getD]
  by_cases hi : i < l.length
  · rw [List.getElem?_eq_getElem hi]; exact h _ (List.getElem_mem hi)
  · rw [List.getElem?_eq_none (by omega)]; exact hd

theorem modEtc_bounds (t s : Nat) : -183 ≤ modEtc t s ∧ modEtc t s ≤ 183 := by
  have h : ∀ row ∈ modEtcTable, ∀ v ∈ row, -183 ≤ v ∧ v ≤ 183 := by decide
  exact getD_all _ _ _ (getD_all (fun row => ∀ v ∈ row, -183 ≤ v ∧ v ≤ 183) _ _ h (by simp) t) (by simp) s

theorem thDist_le (di : Nat) : thDist di ≤ 64 := by
  have h : ∀ v ∈ thDistTable, v ≤ 64 := by decide
  exact getD_all _ _ _ h (by simp) di

theorem eacMod_bounds (t i : Nat) : -15 ≤ eacMod t i ∧ eacMod t i ≤ 14 := by
  have h : ∀ row ∈ eacModTable, ∀ v ∈ row, -15 ≤ v ∧ v ≤ 14 := by decide
  exact getD_all _ _ _ (getD_all (fun row => ∀ v ∈ row, -15 ≤ v ∧ v ≤ 14) _ _ h (by simp) t) (by simp) i

/-! ## Projections of 11-bit values (spec/41_decoder.md R170) -/

theorem ext11Unsigned_eq {v : Nat} (h : v < 2048) : ext11Unsigned v = 32 * v + v / 64 := by
  have h1 : v / 64 < 2 ^ 5 := by omega
  have h2 := Nat.two_pow_add_eq_or_of_lt h1 v
  simp only [ext11Unsigned, Nat.shiftLeft_eq, Nat.shiftRight_eq_div_pow]
  rw [Nat.mul_comm v (2 ^ 5), ← h2]

theorem ext11Unsigned_le {v : Nat} (h : v < 2048) : ext11Unsigned v ≤ 65535 := by
  rw [ext11Unsigned_eq h]; omega

theorem ext11Signed_eq {v : Int} (h : v.natAbs < 1024) :
    ext11Signed v = if v < 0 then -((32 * v.natAbs + v.natAbs / 32 : Nat) : Int) else ((32 * v.natAbs + v.natAbs / 32 : Nat) : Int) := by
  have h1 : v.natAbs / 32 < 2 ^ 5 := by omega
  have h2 := Nat.two_pow_add_eq_or_of_lt h1 v.natAbs
  simp only [ext11Signed, Nat.shiftLeft_eq, Nat.shiftRight_eq_div_pow]
  rw [Nat.mul_comm v.natAbs (2 ^ 5), ← h2]

theorem ext11Signed_bounds {v : Int} (h : v.natAbs < 1024) : -32767 ≤ ext11Signed v ∧ ext11Signed v ≤ 32767 := by
  rw [ext11Signed_eq h]; split <;> omega

end Sys2Proof.Machine
end

