-- ==== Sys2Proof/Tests/Slice0.lean ====
section
/-! SUPPORT. The model's own tests: words and results of spec/95_test_vectors.md, refused terms, and for every
statement with hypotheses a concrete state and operands that meet them. -/

namespace Sys2Proof.Tests

open Sys2Proof.Machine

/-! ## Helpers -/

/-- Bytes from numbers. -/
def bytesOf (l : List Nat) : List Byte := l.map (BitVec.ofNat 8)

/-- The 64 bytes of a block from a pixel function of `(x, y)`. -/
def blockOf (px : Nat → Nat → List Nat) : List Byte := (List.range 16).flatMap fun k => bytesOf (px (k % 4) (k / 4))

/-- Bytes at consecutive aperture offsets. -/
def cellsAt (a : Nat) (l : List Byte) : List Host.Cell := List.zip ((List.range l.length).map (a + ·)) l

/-- The reset state with FORMAT set and bytes from an aperture offset on. -/
def loaded (code : Byte) (a : Nat) (l : List Byte) : State := { State.reset with format := code, mem := cellsAt a l }

/-- The bytes of a memory from an aperture offset on. -/
def bytesAt (m : List Host.Cell) (a n : Nat) : List (Option Byte) := (List.range n).map fun i => memRead m (a + i)

/-- The memory holds these bytes from an aperture offset on. -/
def holds (s : State) (a : Nat) (l : List Byte) : Bool := bytesAt s.mem a l.length == l.map some

/-- A property of the next state, false of a stop. -/
def nextIs (o : Answer) (p : State → Bool) : Bool :=
  match o with
  | .next t => p t
  | .fault _ => false
  | .refused _ => false

theorem exists_of_nextIs {o : Answer} {p : State → Bool} (h : nextIs o p = true) : ∃ t, o = .next t ∧ p t = true := by
  cases o with
  | next t => exact ⟨t, rfl, h⟩
  | fault f => cases h
  | refused r => cases h

/-- One step of a state with a command word placed. -/
def runWord (w : Nat) (s : State) (p : State → Bool) : Bool := nextIs (step (s.withFetchWord 32 w)) p

/-! ## Well-formedness -/

theorem test_candT_intens3_refused : WellFormed (.candT false 3) = false := by decide
theorem test_candH_intens3_refused : WellFormed (.candH true 3) = false := by decide
theorem test_candT_intens2_accepted : WellFormed (.candT true 2) = true := by decide

/-! ## Decoding: words written out from spec/30_encoding.md R92 and R93 -/

theorem test_decode_nop : decode 0b00000000000000000000000000000000 = .ok .nop := by decide
theorem test_decode_sreset : decode 0b00000000000000000000000000000001 = .ok .sreset := by decide
theorem test_decode_cfg : decode 0b00000000000000000000000000000010 = .ok .cfg := by decide
theorem test_decode_extract : decode 0b00000000000000000000000000000011 = .ok .extract := by decide
theorem test_decode_encode : decode 0b00000000000000000000000000000100 = .ok .encode := by decide
theorem test_decode_decode : decode 0b00000000000000000000000000000101 = .ok .decode := by decide
theorem test_decode_score : decode 0b00000000000000000000000000000110 = .ok .score := by decide
theorem test_decode_hdrEmit : decode 0b00000000000000000000000000000111 = .ok .hdrEmit := by decide
theorem test_decode_hdrParse : decode 0b00000000000000000000000000001000 = .ok .hdrParse := by decide
/-- CAND_ID with RED alone, bit 8. -/
theorem test_decode_candId_red : decode 0b00000000000000000000000100010000 = .ok (.candId true false false) := by decide
/-- CAND_ID with FLIP and TRANSP, bits 9 and 10. -/
theorem test_decode_candId : decode 0b00000000000000000000011000010000 = .ok (.candId false true true) := by decide
theorem test_decode_candEtc1s : decode 0b00000000000000000000000000010001 = .ok .candEtc1s := by decide
theorem test_decode_candPlanar : decode 0b00000000000000000000000000010010 = .ok .candPlanar := by decide
/-- CAND_T with INTENS 1, bits 12:11. -/
theorem test_decode_candT : decode 0b00000000000000000000100000010011 = .ok (.candT false 1) := by decide
/-- CAND_H with INTENS 2 and TRANSP. -/
theorem test_decode_candH : decode 0b00000000000000000001010000010100 = .ok (.candH true 2) := by decide
theorem test_decode_candEac8 : decode 0b00000000000000000000000000010101 = .ok .candEac8 := by decide
/-- CAND_EAC11 with CH, bit 13. -/
theorem test_decode_candEac11 : decode 0b00000000000000000010000000010110 = .ok (.candEac11 true) := by decide
/-- The illegal words of spec/95_test_vectors.md section 3.10. -/
theorem test_decode_illegal : ∀ w ∈ [0x9, 0xFF, 0x104, 0x212, 0x1813, 0x4004, 0x80000000, 0x2015], ∃ r,
    decode (BitVec.ofNat 32 w) = .error r := by
  simp only [List.forall_mem_cons, List.not_mem_nil, false_imp_iff, implies_true, and_true]
  exact ⟨⟨.unassignedOpcode, by decide⟩, ⟨.unassignedOpcode, by decide⟩, ⟨.unusedField, by decide⟩,
    ⟨.unusedField, by decide⟩, ⟨.reservedIntensity, by decide⟩, ⟨.reservedBits, by decide⟩, ⟨.reservedBits, by decide⟩,
    ⟨.unusedField, by decide⟩⟩
theorem test_decodeTableWord : decodeTableWord 32 0x1014 = some (.candH false 2) := by decide

/-! ## One step of each command -/

/-- spec/45_control_container.md R301: STATUS reads DONE alone. -/
theorem test_nop : runWord 0x0 State.reset (fun t => statusWord t == 0x2) = true := by decide
/-- An illegal word, spec/95_test_vectors.md section 3.10: STATUS 0x52. -/
theorem test_illegal_word : runWord 0x1813 State.reset (fun t => statusWord t == 0x52) = true := by decide
/-- spec/45_control_container.md R302. -/
theorem test_sreset : runWord 0x1 { State.reset with imgW := 9, srcCfg := 0xF, accErr := true, mode := .t }
    (fun t => t.imgW == 0 && t.srcCfg == 0x2 && statusWord t == 0x2) = true := by decide
/-- S1: a 21 by 32 image pads to 24 by 32. -/
theorem test_cfg : runWord 0x2 { State.reset with format := 1, imgW := 21, imgH := 32 }
    (fun t => t.padW == 24 && t.padH == 32 && statusWord t == 0x2) = true := by decide
/-- 65533 is too large: STATUS 0x22. -/
theorem test_cfg_too_large : runWord 0x2 { State.reset with format := 1, imgW := 65533, imgH := 4 }
    (fun t => statusWord t == 0x22 && t.padW == 0) = true := by decide

/-- S1's header. -/
def headerS1 : List Byte := bytesOf [0x50, 0x4B, 0x4D, 0x20, 0x32, 0x30, 0, 1, 0, 0x18, 0, 0x20, 0, 0x15, 0, 0x20]

theorem test_hdrEmit : runWord 0x7 { State.reset with format := 1, imgW := 21, imgH := 32 }
    (fun t => holds t 0x090 headerS1) = true := by decide +kernel
/-- V-HP1. -/
theorem test_hdrParse : runWord 0x8 (loaded 0 0x090 headerS1)
    (fun t => t.format == 1 && t.imgW == 21 && t.imgH == 32 && t.padW == 24 && t.padH == 32) = true := by decide +kernel
/-- V-HP2: a header cut to all zeros is no container. R307's order: a wrong magic is none either although nothing else of
HDR was written, and an unwritten version byte after a right magic is a fault. -/
theorem test_hdrParse_refused :
    runWord 0x8 (loaded 0 0x090 (List.replicate 16 0)) (fun t => statusWord t == 0x32) = true ∧
    runWord 0x8 (loaded 0 0x090 (bytesOf [0x50, 0x4B, 0x4D, 0x21])) (fun t => statusWord t == 0x32) = true ∧
    exec .hdrParse (loaded 0 0x090 (headerS1.take 4)) = .fault (.unspecByte 0x094) :=
  ⟨by decide +kernel, by decide +kernel, rfl⟩

/-- spec/00_scope.md R10: `rnd` of −2.5, of −2.25 and of 2.5. -/
theorem test_fRound :
    fRound ieee754 ⟨-5, -1⟩ = -3 ∧ fRound ieee754 ⟨-9, -2⟩ = -2 ∧ fRound ieee754 ⟨5, -1⟩ = 3 := by decide +kernel

/-- A source that answers the same pixel sixteen times, over the rectangle (0, 0) to (2, 2). -/
def sourced (code : Byte) (cfg : BitVec 4) (answers : List SrcAnswer) : State :=
  { State.reset with format := code, srcCfg := cfg, srcX1 := 2, srcY1 := 2, srcPort := answers }

/-- V-EX2: un-premultiplication. -/
theorem test_extract : runWord 0x3 (sourced 1 0x3 (List.replicate 16 (.pixel 64 32 16 128)))
    (fun t => holds t 0x100 (blockOf fun _ _ => [0x7F, 0x3F, 0x1F, 0x80]) && statusWord t == 0x2) = true := by
  decide +kernel
/-- V-EX9: IOERR at read 5. -/
theorem test_extract_ioerr : runWord 0x3
    (sourced 1 0x3 (List.replicate 5 (.pixel 10 20 30 255) ++ [.ioerr, .pixel 1 1 1 1]))
    (fun t => statusWord t == 0x42 && bytesAt t.mem 0x100 64 == List.replicate 64 none) = true := by decide +kernel

/-- V-DE2: Individual. -/
theorem test_decode_individual : runWord 0x5 (loaded 1 0x080 (bytesOf [0xF0, 0, 0x0F, 0, 0xFF, 0xFF, 0, 0]))
    (fun t => holds t 0x140 (blockOf fun x _ => if x < 2 then [0xFD, 0, 0, 0xFF] else [0, 0, 0xFD, 0xFF]) &&
      t.mode == .individual) = true := by decide +kernel
/-- V-DE9: an 11-bit sample. -/
theorem test_decode_r11 : runWord 0x5 (loaded 5 0x080 (bytesOf [0x7E, 1, 0xFF, 0xFF, 0xFF, 0xFF, 0xFF, 0xFF]))
    (fun t => holds t 0x140 ((List.replicate 16 (bytesOf [0x80, 0x10])).flatten ++ List.replicate 32 0) &&
      t.mode == .eac) = true := by decide +kernel

/-- The memory of V-SC1 and V-SC3, with the given alpha bytes. -/
def scored (code : Byte) (alpha alpha' : Nat) : State :=
  { State.reset with
    format := code,
    mem := cellsAt 0x100 (blockOf fun _ _ => [100, 150, 200, alpha]) ++
      cellsAt 0x140 (blockOf fun _ _ => [101, 150, 200, alpha']) }

/-- V-SC1. -/
theorem test_score : runWord 0x6 (scored 1 255 255) (fun t => t.loss == 4784 && t.lvalid) = true := by decide +kernel
/-- V-SC3. -/
theorem test_score_a8 : runWord 0x6 (scored 3 0x90 0x80) (fun t => t.loss == 4784 && t.aloss == 4096) = true := by
  decide +kernel

/-- The block of V-ID1. -/
def solidBlock : List Byte := blockOf fun _ _ => [100, 150, 200, 255]

/-- V-ID1. -/
theorem test_candId : runWord 0x10 (loaded 1 0x100 solidBlock)
    (fun t => holds t 0x080 (bytesOf [0x60, 0x90, 0xC0, 0x02, 0, 0, 0, 0]) && t.loss == 4784 && t.mode == .differential)
    = true := by decide +kernel
/-- V-ID3. -/
theorem test_candEtc1s : runWord 0x11 (loaded 1 0x100 solidBlock)
    (fun t => holds t 0x080 (bytesOf [0x60, 0x90, 0xC0, 0x02, 0, 0, 0, 0]) && t.loss == 4784 && t.mode == .differential)
    = true := by decide +kernel
/-- V-P1. -/
theorem test_candPlanar : runWord 0x12 (loaded 1 0x100 solidBlock)
    (fun t => holds t 0x080 (bytesOf [0x33, 0x17, 0x14, 0xB3, 0x97, 0x8B, 0x32, 0xF1]) && t.loss == 16000 &&
      t.mode == .planar) = true := by decide +kernel

/-- The block of S5. -/
def clearBlock : List Byte := blockOf fun _ _ => [0, 0, 0, 0]

/-- V-T3. -/
theorem test_candT : runWord 0x413 (loaded 4 0x100 clearBlock)
    (fun t => holds t 0x080 (bytesOf [0x04, 0, 0, 0, 0xFF, 0xFF, 0, 0]) && t.loss == 0 && t.mode == .t) = true := by
  decide +kernel
/-- V-H3. -/
theorem test_candH : runWord 0x414 (loaded 4 0x100 clearBlock)
    (fun t => holds t 0x080 (bytesOf [0, 0x04, 0, 0x08, 0xFF, 0xFF, 0, 0]) && t.loss == 0 && t.mode == .h) = true := by
  decide +kernel
/-- S5. -/
theorem test_encode : runWord 0x4 (loaded 4 0x100 clearBlock)
    (fun t => holds t 0x080 (bytesOf [0, 0, 0, 0, 0xFF, 0xFF, 0, 0]) && t.loss == 0 && statusWord t == 0x20A) = true := by
  decide +kernel
/-- V-A4: a format without 8-bit alpha. -/
theorem test_candEac8_format : runWord 0x15 (loaded 4 0x100 clearBlock) (fun t => statusWord t == 0x12) = true := by
  decide +kernel
/-- V-E5: channel 1 of a one-channel format. -/
theorem test_candEac11_channel : runWord 0x2016 (loaded 5 0x100 clearBlock) (fun t => statusWord t == 0x12) = true := by
  decide +kernel

/-! ## Host accesses -/

/-- spec/20_memory.md R64: a 4-byte read of CW is big-endian. -/
theorem test_quad_read : (regRead (loaded 0 0x080 (bytesOf [1, 2, 3, 4])) .w4 0x080).1 = 0x01020304 := by decide
/-- spec/20_memory.md R69: a misaligned 4-byte read. -/
theorem test_misaligned_read : regRead State.reset .w4 0x082 = (0, { State.reset with accErr := true }) := by decide

/-! ## Witnesses: states and operands that meet the hypotheses of the statements -/

/-- A reset state with the command word `w` accepted. -/
def busy (w : Word) : State := { State.reset with seq := .busy w }

/-- ResetStateAndTurn: a reset turn with a command in flight. -/
theorem witness_reset_turn : { busy 4 with turns := [.reset, .core] }.turns = .reset :: [.core] := by decide

/-- DecodeFollowsOpcodeTable: a word for each of its clauses on fields. -/
theorem witness_decode_fields :
    decode 0x00000710 = .ok (.candId true true true) ∧ decode 0x00000413 = .ok (.candT true 0) ∧
    decode 0x00001014 = .ok (.candH false 2) ∧ decode 0x00002016 = .ok (.candEac11 true) := by decide

/-- IllegalWordIsBadCommand: with no turn listed, and with the core's turn. -/
theorem witness_illegal_word :
    (busy 0x1813).seq = .busy 0x1813 ∧ legalWord 0x1813 = false ∧ (busy 0x1813).turns = [] ∧
    { busy 0x1813 with turns := [.core, .host] }.turns = .core :: [.host] := by decide

/-- StepRunsDecodedCommand: the same, and a table word. -/
theorem witness_step_runs :
    (busy 0x6).seq = .busy 0x6 ∧ decode 0x6 = .ok .score ∧ (busy 0x6).turns = [] ∧
    { busy 0x6 with turns := [.core] }.turns = .core :: [] ∧ decodeTableWord 32 0x6 = some .score := by decide

/-- CommandAcceptance and ParameterRegisterWrites: an idle and a busy sequencer. -/
theorem witness_sequencer : State.reset.seq = .idle ∧ (busy 0x6).seq = .busy 0x6 := by decide

/-- WritesDroppedWhileBusy: an offset that is not STATUS, a value that clears ACCERR and one that does not. -/
theorem witness_busy_write :
    (busy 0x6).seq = .busy 0x6 ∧ 0x080 ≠ 0x008 ∧ (0x4 : Word).getLsbD 2 = true ∧ (0xFFFFFFFB : Word).getLsbD 2 = false := by
  decide

/-- AccessErrorRules: an access for each way to fail, at the ends of the reserved ranges, and a byte of DEC. -/
theorem witness_access_errors :
    0x082 % 4 ≠ 0 ∧ windowAt 0x00C = none ∧ windowAt 0x140 = some .dec ∧ windowAt 0x17F = some .dec ∧
    (0x03C ≤ 0x03F ∧ 0x03F < 0x040) ∧ (0x050 ≤ 0x07F ∧ 0x07F < 0x080) ∧ (0x0A0 ≤ 0x0FF ∧ 0x0FF < 0x100) ∧
    (0x180 ≤ 0x1FF ∧ 0x1FF < 0x200) ∧ 0x04C ∈ [0x000, 0x018, 0x01C, 0x040, 0x044, 0x048, 0x04C] := by decide

/-- WindowByteOrder: the last four bytes of CW, one byte, and a register. -/
theorem witness_window_access :
    12 % 4 = 0 ∧ 12 + 4 ≤ windowSize .cw ∧ 15 < windowSize .cw ∧
    bytesAt (loaded 0 0x080 (bytesOf (List.range 16))).mem (windowBase .cw + 12) 4 =
      [some 12, some 13, some 14, some 15] ∧
    (loaded 0 0x080 (bytesOf (List.range 16))).seq = .idle ∧ Window.cw ≠ .dec ∧ regAt 0x04C = some .alossHi ∧
    Width.w1 ≠ .w4 := by decide +kernel

/-- WaitPollsUntilIdle: the host at a WAIT, with the core busy and idle. -/
theorem witness_wait :
    let s : State := { busy 0x6 with hostProg := waitInstrs 0 7, turns := [.host, .host] }
    s.hostPc = 0 ∧ s.turns = .host :: .host :: [] ∧ s.hostProg[0]? = (waitInstrs 0 7)[0]? ∧
    s.hostProg[0 + 1]? = (waitInstrs 0 7)[1]? := by decide

/-- AccerrIsSticky: a reset turn, SRESET, and a write to STATUS each clear it. -/
theorem witness_accerr_cleared :
    let r : State := { busy 0x6 with accErr := true, turns := [.reset] }
    let c : State := { busy 0x1 with accErr := true }
    let h : State := { State.reset with accErr := true, hostProg := [wr32 0x008 0x4], turns := [.host] }
    nextIs (step r) (fun t => !t.accErr) = true ∧ nextIs (step c) (fun t => !t.accErr) = true ∧
    nextIs (step h) (fun t => !t.accErr) = true := by decide

/-- ErrorCompletionsArePrecise, ErrorKindsByCommand, ResultRegisterWriters, CommandsWriteOnlyTheirOutputs: commands that
answer with an error of each kind, and IO from EXTRACT. -/
theorem witness_error_completions :
    nextIs (exec .decode { State.reset with format := 0x0C }) (fun t => t.err == .badArgument) = true ∧
    nextIs (exec .cfg { State.reset with imgW := 65533, imgH := 1 }) (fun t => t.err == .imageTooLarge) = true ∧
    nextIs (exec .hdrParse (loaded 0 0x090 (List.replicate 16 0))) (fun t => t.err == .notAContainer) = true ∧
    nextIs (exec .extract (sourced 1 0x3 [.ioerr])) (fun t => t.err == .io) = true := by decide +kernel

/-- The same statements: commands that complete normally, with a loss and without one. -/
theorem witness_normal_completions :
    nextIs (exec .nop State.reset) (fun t => t.err == .none && !t.lvalid) = true ∧
    nextIs (exec .sreset { State.reset with aloss := 7 }) (fun t => t.aloss == 0) = true ∧
    nextIs (exec .score (scored 3 0x90 0x80)) (fun t => t.err == .none && t.lvalid && t.aloss != 0) = true := by
  decide +kernel

/-- A state whose window bytes all hold 0. -/
def defined (code : Byte) : State :=
  { State.reset with
    format := code, mem := cellsAt 0x080 (List.replicate 32 0) ++ cellsAt 0x100 (List.replicate 128 0) }

/-- SetUpCommandsComplete: every command it covers, in a format it allows, with its operands defined. -/
theorem witness_set_up : ∀ q ∈ [(Instr.nop, (0x00 : Byte), Format.etc1), (.sreset, 0x05, .r11u), (.encode, 0x01, .rgb),
    (.encode, 0x03, .rgba8), (.encode, 0x06, .rg11u), (.decode, 0x04, .rgba1), (.decode, 0x08, .rg11s),
    (.score, 0x0A, .srgba8), (.score, 0x07, .r11s), (.candId true true true, 0x04, .rgba1), (.candEtc1s, 0x00, .etc1),
    (.candPlanar, 0x09, .srgb), (.candT false 2, 0x01, .rgb), (.candH true 1, 0x0B, .srgba1), (.candEac8, 0x03, .rgba8),
    (.candEac11 true, 0x06, .rg11u)],
    WellFormed q.1 = true ∧ formatOfCode (defined q.2.1).format = some q.2.2 ∧ allowedFormat q.1 q.2.2 = true ∧
    ∀ a ∈ operandOffsets q.1 q.2.2, (memRead (defined q.2.1).mem a).isSome = true := by decide +kernel

/-- UnspecOperandsFault: a block that lacks its last byte. -/
theorem witness_unspec :
    formatOfCode 0x01 = some .rgb ∧ allowedFormat .candPlanar .rgb = true ∧
    ¬(∀ a ∈ operandOffsets .candPlanar .rgb, (memRead (loaded 1 0x100 (solidBlock.take 62)).mem a).isSome = true) := by
  decide +kernel

/-- UnspecOperandsFault: headers of which 4, 7, 8 and 15 bytes are written, and one whose padded sizes are not. -/
theorem witness_unspec_header :
    let b (l : List Byte) (j : Nat) : Byte := l.getD j 0
    let written (l : List Byte) (n : Nat) : Bool :=
      (List.range n).all fun j => memRead (loaded 0 0x090 (l.take n)).mem (0x090 + j) == some (b l j)
    let magic := bytesOf [0x50, 0x4B, 0x4D, 0x21]
    let code := bytesOf [0x50, 0x4B, 0x4D, 0x20, 0x31, 0x30, 0, 1]
    let hole : State :=
      { State.reset with mem := cellsAt 0x090 (headerS1.take 8) ++ cellsAt 0x09C (bytesOf [0, 0, 0, 0x20]) }
    (written magic 4 = true ∧ b magic 3 ≠ 0x20) ∧
    (written code 8 = true ∧ ¬(b code 4 = 0x31 ↔ b code 7 = 0x00)) ∧
    (bytesAt hole.mem 0x090 8 = (headerS1.take 8).map some ∧ bytesAt hole.mem 0x09C 2 = [some 0, some 0] ∧
      memRead hole.mem 0x098 = none) ∧
    (written headerS1 4 = true ∧ memRead (loaded 0 0x090 (headerS1.take 4)).mem (0x090 + 4) = none) ∧
    (written headerS1 7 = true ∧ memRead (loaded 0 0x090 (headerS1.take 7)).mem (0x090 + 7) = none) ∧
    (written headerS1 15 = true ∧ memRead (loaded 0 0x090 (headerS1.take 15)).mem (0x090 + 15) = none) ∧
    (formatOfCode (b headerS1 7)).isSome = true ∧ b headerS1 4 = 0x32 ∧ 256 * 0 + 0x18 = 4 * ((0x15 + 3) / 4) := by
  decide +kernel

/-- AcceptedCommandRuns: two host turns before the core's. -/
theorem witness_accepted :
    { busy 0x6 with turns := [.host, .host, .core] }.seq = .busy 0x6 ∧
    Turn.reset ∉ { busy 0x6 with turns := [.host, .host, .core] }.turns := by decide

/-- NopAndSresetResults: a NOP with ACCERR clear. -/
theorem witness_nop : State.reset.accErr = false ∧ nextIs (exec .nop State.reset) (fun _ => true) = true := by decide

/-- A state with a format and image sizes. -/
def sized (code : Byte) (w h : Word) : State := { State.reset with format := code, imgW := w, imgH := h }

/-- CfgResult and HdrEmitResult: the least and the greatest sizes. -/
theorem witness_image_sizes :
    formatOfCode (sized 0 1 65532).format = some .etc1 ∧ 1 ≤ (sized 0 1 65532).imgW.toNat ∧
    (sized 0 1 65532).imgW.toNat ≤ 65532 ∧ 1 ≤ (sized 0 1 65532).imgH.toNat ∧ (sized 0 1 65532).imgH.toNat ≤ 65532 := by
  decide

/-- ImageCheckErrors: each way to fail, at the ends of the ranges. -/
theorem witness_image_errors :
    formatOfCode (sized 2 1 1).format = none ∧ (sized 1 0 1).imgW.toInt < 1 ∧ 65536 ≤ (sized 1 65536 1).imgW.toInt ∧
    (sized 1 1 0xFFFFFFFF).imgH.toInt < 1 ∧ 65536 ≤ (sized 1 1 65536).imgH.toInt ∧
    ((formatOfCode (sized 1 65533 65535).format).isSome = true ∧ 1 ≤ (sized 1 65533 65535).imgW.toInt ∧
      (sized 1 65533 65535).imgW.toInt < 65536 ∧ 1 ≤ (sized 1 65533 65535).imgH.toInt ∧
      (sized 1 65533 65535).imgH.toInt < 65536 ∧ 65532 < (sized 1 65533 65535).imgW.toInt ∧
      65532 < (sized 1 65533 65535).imgH.toInt) := by decide

/-- HdrParseResult: a header the checks accept, and one they refuse for its width of 0xFFFD. -/
theorem witness_headers :
    (∀ j, j < 16 → memRead (loaded 0 0x090 headerS1).mem (0x090 + j) = some (headerS1.getD j 0)) ∧
    (formatOfCode (headerS1.getD 7 0)).isSome = true ∧
    (∀ j, j < 16 → memRead (loaded 0 0x090 (List.replicate 16 0xFF)).mem (0x090 + j) = some 0xFF) ∧
    (0xFF : Byte) ≠ 0x50 := by decide +kernel

/-- HeaderRoundTrip: a header that HDR_EMIT writes. -/
theorem witness_header_emitted :
    nextIs (exec .hdrEmit (sized 1 21 32)) (fun t => t.err == .none) = true := by decide +kernel

/-- A state with an attached source, a rectangle and a block origin. -/
def attached (code : Byte) (cfg : BitVec 4) (x0 y0 x1 y1 bx by' : Word) : State :=
  { State.reset with
    format := code, srcCfg := cfg, srcX0 := x0, srcY0 := y0, srcX1 := x1, srcY1 := y1, blockX := bx, blockY := by' }

/-- ExtractRefusals: each check of R142 fails alone, V-EX8 among them. -/
theorem witness_extract_refusals :
    formatOfCode (attached 2 0x1 0 0 4 4 0 0).format = none ∧ (attached 1 0x2 0 0 4 4 0 0).srcCfg.getLsbD 0 = false ∧
    2 ≤ ((attached 1 0x9 0 0 4 4 0 0).srcCfg.extractLsb' 2 2).toNat ∧
    (attached 1 0x1 0 0 0 4 0 0).srcX1.toInt ≤ (attached 1 0x1 0 0 0 4 0 0).srcX0.toInt ∧
    (attached 1 0x1 0 5 4 4 0 5).srcY1.toInt ≤ (attached 1 0x1 0 5 4 4 0 5).srcY0.toInt ∧
    (attached 1 0x1 8 8 16 16 0 8).blockX.toInt < (attached 1 0x1 8 8 16 16 0 8).srcX0.toInt ∧
    (attached 1 0x1 0 0 4 4 4 0).srcX1.toInt - 1 < (attached 1 0x1 0 0 4 4 4 0).blockX.toInt ∧
    (attached 1 0x1 8 8 16 16 8 0xFFFFFFFF).blockY.toInt < (attached 1 0x1 8 8 16 16 8 0xFFFFFFFF).srcY0.toInt ∧
    (attached 1 0x1 0 0 4 4 0 4).srcY1.toInt - 1 < (attached 1 0x1 0 0 4 4 0 4).blockY.toInt := by decide

/-- ExtractReadsInRange: V-EX5's rectangle and origin, and its last read. -/
theorem witness_extract_reads :
    extractRefused (attached 1 0x1 0 0 6 6 4 4) = false ∧ (15, 5, 5) ∈ extractReads (attached 1 0x1 0 0 6 6 4 4) := by
  decide

/-- ExtractColourResult and ExtractSampleResult: sixteen answers at the ends of the range of each depth, and one
left over. -/
theorem witness_extract_answers :
    let px (_ c : Nat) : Nat := if c = 3 then 128 else 255
    let px16 (_ _ : Nat) : Nat := 65535
    let s := sourced 1 0x3 (((List.range 16).map fun k => .pixel (px k 0) (px k 1) (px k 2) (px k 3)) ++ [.ioerr])
    let t := sourced 5 0x5 (((List.range 16).map fun k => .pixel (px16 k 0) (px16 k 1) (px16 k 2) (px16 k 3)) ++ [])
    formatOfCode s.format = some .rgb ∧ isColour .rgb = true ∧ extractRefused s = false ∧
    (∀ k, k < 16 → ∀ c, c < 4 → px k c ≤ if s.srcCfg.extractLsb' 2 2 = 0 then 255 else 65535) ∧
    s.srcPort = ((List.range 16).map fun k => .pixel (px k 0) (px k 1) (px k 2) (px k 3)) ++ [.ioerr] ∧
    formatOfCode t.format = some .r11u ∧ isColour .r11u = false ∧ extractRefused t = false ∧
    (∀ k, k < 16 → ∀ c, c < 4 → px16 k c ≤ if t.srcCfg.extractLsb' 2 2 = 0 then 255 else 65535) ∧
    t.srcPort = ((List.range 16).map fun k => .pixel (px16 k 0) (px16 k 1) (px16 k 2) (px16 k 3)) ++ [] := by
  decide +kernel

/-- ExtractReadFailure: the first read fails, and the last answer is outside 8 bits. -/
theorem witness_extract_failures :
    let px (_ _ : Nat) : Nat := 255
    let s := sourced 1 0x1 [.ioerr, .pixel 1 1 1 1]
    let t := sourced 1 0x1 (((List.range 15).map fun k => .pixel (px k 0) (px k 1) (px k 2) (px k 3)) ++ .pixel 256 0 0 0 :: [])
    extractRefused s = false ∧ extractRefused t = false ∧ 0 < 16 ∧ 15 < 16 ∧
    s.srcPort = ((List.range 0).map fun k => .pixel (px k 0) (px k 1) (px k 2) (px k 3)) ++ .ioerr :: [.pixel 1 1 1 1] ∧
    (∀ k, k < 15 → ∀ c, c < 4 → px k c ≤ if t.srcCfg.extractLsb' 2 2 = 0 then 255 else 65535) ∧
    ¬(256 ≤ depthMax (srcDepth t.srcCfg) ∧ 0 ≤ depthMax (srcDepth t.srcCfg) ∧ 0 ≤ depthMax (srcDepth t.srcCfg) ∧
      0 ≤ depthMax (srcDepth t.srcCfg)) := by decide +kernel

/-- DecodeColourResult and DecodeSampleResult: a state that holds two codewords. -/
def coded (code : Byte) (a w : DWord) : State := putCodeword (putCodeword { State.reset with format := code } 0 a) 8 w

theorem witness_codewords :
    (∀ i, i < 8 → memRead (coded 3 0x0290FFFFFFFFFFFF 0x6090C00200000000).mem (windowBase .cw + 8 + i) =
      some (codewordByte 0x6090C00200000000 i)) ∧
    (∀ i, i < 8 → memRead (coded 3 0x0290FFFFFFFFFFFF 0x6090C00200000000).mem (windowBase .cw + 0 + i) =
      some (codewordByte 0x0290FFFFFFFFFFFF i)) ∧
    formatOfCode (coded 3 0 0).format = some .rgba8 ∧ isColour .rgba8 = true ∧ isA8 .rgba8 = true ∧
    formatOfCode (coded 8 0 0).format = some .rg11s ∧ isColour .rg11s = false ∧ formatClass .rg11s = .rg11 := by
  decide +kernel

/-- ModeSelectionRule: a word for each of its clauses; base 0 with delta −1, and base 31 with delta 1, overflow. -/
theorem witness_modes :
    let sum (w : DWord) (lo : Nat) : Int := ((w.extractLsb' (lo + 3) 5).toNat : Int) + (w.extractLsb' lo 3).toInt
    (0xF0000F00FFFF0000 : DWord).getLsbD 33 = false ∧ sum 0x0700000200000000 56 = -1 ∧ sum 0xF900000200000000 56 = 32 ∧
    sum 0x0007000200000000 56 = 0 ∧ sum 0x0007000200000000 48 = -1 ∧
    sum 0xF800F90200000000 56 = 31 ∧ sum 0xF800F90200000000 48 = 0 ∧ sum 0xF800F90200000000 40 = 32 ∧
    sum 0x6090C00200000000 56 = 12 ∧ sum 0x6090C00200000000 48 = 18 ∧ sum 0x6090C00200000000 40 = 24 ∧
    (0x6090C00200000000 : DWord).getLsbD 33 = true := by decide

/-- HalvesPixelRule, PalettePixelRule, PlanarPixelRule, EacValueRules: the last pixel, and a Differential word. -/
theorem witness_last_pixel : (3 : Nat) < 4 ∧ (15 : Nat) < 16 ∧ selectMode 0x6090C00200000000 true = .differential := by
  decide

/-- PunchThroughRule: a Differential word whose pixel (0, 0) has each index in turn. -/
theorem witness_punch_indices :
    let v (w : DWord) : Nat := 2 * (w.getLsbD 16).toNat + (w.getLsbD 0).toNat
    v 0xB058280000010000 = 2 ∧ v 0xB058280000000000 = 0 ∧ v 0xB058280000000001 = 1 ∧ v 0xB058280000010001 = 3 ∧
    selectMode 0xB058280000000000 true = .differential ∧ Mode.h ∈ [Mode.differential, .t, .h] := by decide

/-- ScoreColourResult: V-SC3's memory meets the hypotheses of all three classes. -/
theorem witness_score_colour :
    (∀ k, k < 16 → ∀ c, c < 4 → memRead (scored 3 0x90 0x80).mem (pixelByte .blk k c) =
        some ((bytesOf [100, 150, 200, 0x90]).getD c 0) ∧
      memRead (scored 3 0x90 0x80).mem (pixelByte .dec k c) = some ((bytesOf [101, 150, 200, 0x80]).getD c 0)) ∧
    formatOfCode (scored 3 0x90 0x80).format = some .rgba8 ∧ formatClass .rgba8 = .a8 ∧
    formatOfCode (scored 1 0 0).format = some .rgb ∧ formatClass .rgb = .rgb ∧
    formatOfCode (scored 4 0 0).format = some .rgba1 ∧ formatClass .rgba1 = .a1 := by decide +kernel

/-- ScoreSampleResult: all samples 0, in one channel and in two. -/
theorem witness_score_samples :
    (∀ ch, ch < 2 → ∀ k, k < 16 → ∀ win ∈ [Window.blk, .dec],
      memRead (defined 8).mem (sampleByte win ch k) = some 0 ∧ memRead (defined 8).mem (sampleByte win ch k + 1) = some 0) ∧
    formatOfCode (defined 8).format = some .rg11s ∧ isColour .rg11s = false ∧ formatClass .rg11s = .rg11 ∧
    formatOfCode (defined 5).format = some .r11u ∧ isColour .r11u = false := by decide +kernel

/-- The pixels of a solid black block that is opaque. -/
def blackPixels : List SrcPixel := List.replicate 16 ⟨⟨0, 0, 0⟩, false⟩

/-- ColourCandidateResult: each generator in a format it allows and in one it does not; SourceBlockRead. -/
theorem witness_colour_candidates :
    readSource (defined 1).mem .rgb = .ok blackPixels ∧
    (∀ i ∈ [Instr.candId true false false, .candEtc1s, .candPlanar, .candT false 2, .candH false 0],
      isColourGenerator i = true ∧ WellFormed i = true ∧ formatOfCode (defined 1).format = some .rgb ∧
      allowedFormat i .rgb = true) ∧
    (∀ i ∈ [Instr.candId false false true, .candPlanar, .candT false 0, .candH true 0],
      formatOfCode (defined 0).format = some .etc1 ∧ allowedFormat i .etc1 = false) ∧
    formatOfCode (defined 5).format = some .r11u ∧ allowedFormat .candEtc1s .r11u = false ∧
    (∀ k, k < 16 → ∀ c, c < 4 → memRead (defined 4).mem (pixelByte .blk k c) = some 0) ∧ isA1 .rgba1 = true := by
  decide +kernel

/-- CandidateModeTags: each command, run on a block of transparent pixels or of black ones. -/
theorem witness_mode_tags :
    nextIs (exec (.candT true 0) (defined 4)) (fun t => t.err == .none) = true ∧
    nextIs (exec (.candH true 0) (defined 4)) (fun t => t.err == .none) = true ∧
    nextIs (exec .candPlanar (defined 1)) (fun t => t.err == .none) = true ∧
    nextIs (exec .candEtc1s (defined 1)) (fun t => t.err == .none) = true := by decide +kernel

/-- PackTRoundTrip, PackHRoundTrip: operands at the ends of their ranges, in both orders of the bases. -/
theorem witness_pack_palettes :
    let c0 : Rgb := ⟨15, 0, 15⟩
    let c1 : Rgb := ⟨0, 15, 0⟩
    c0.r < 16 ∧ c0.g < 16 ∧ c0.b < 16 ∧ c1.r < 16 ∧ c1.g < 16 ∧ c1.b < 16 ∧ 7 < 8 ∧
    (packed12 c1 ≤ packed12 c0 ↔ 7 % 2 = 1) ∧ (packed12 c0 ≤ packed12 c1 ↔ 0 % 2 = 1) ∧ ∀ k, (fun k => k % 4) k < 4 := by
  refine ⟨by decide, by decide, by decide, by decide, by decide, by decide, by decide, by decide, by decide, fun k => ?_⟩
  exact Nat.mod_lt k (by decide)

/-- PackPlanarRoundTrip and PackHalvesAndEacRoundTrip: the greatest operands, and deltas at both ends. -/
theorem witness_pack_others :
    let o : Rgb := ⟨63, 127, 63⟩
    let b : Rgb := ⟨31, 4, 0⟩
    let d : Triple Int := ⟨0, -4, 3⟩
    (o.r < 64 ∧ o.g < 128 ∧ o.b < 64) ∧ (b.r < 32 ∧ b.g < 32 ∧ b.b < 32) ∧
    (-4 ≤ d.r ∧ d.r ≤ 3 ∧ -4 ≤ d.g ∧ d.g ≤ 3 ∧ -4 ≤ d.b ∧ d.b ≤ 3) ∧
    (0 ≤ b.r + d.r ∧ b.r + d.r ≤ 31 ∧ 0 ≤ b.g + d.g ∧ b.g + d.g ≤ 31 ∧ 0 ≤ b.b + d.b ∧ b.b + d.b ≤ 31) ∧
    (255 < 256 ∧ 15 < 16 ∧ ∀ k, (fun k => k % 8) k < 8) := by
  refine ⟨by decide, by decide, by decide, by decide, by decide, by decide, fun k => ?_⟩
  exact Nat.mod_lt k (by decide)

/-- TableSearchIsOptimal: allowed indices of an opaque and a transparent pixel in a punch-through search, and a pixel whose
index has one before it in the search order. -/
theorem witness_table_search :
    let l : List (Nat × SrcPixel) := [(0, ⟨⟨9, 9, 9⟩, false⟩), (1, ⟨⟨0, 0, 0⟩, true⟩)]
    let vs : List Nat := [3, 2]
    7 < 8 ∧ vs.length = l.length ∧ (∀ q ∈ List.zip vs l, q.1 < 4 ∧ (true = true → (q.1 = 2 ↔ q.2.2.transparent = true))) ∧
    0 < (tableSearch true ⟨9, 9, 9⟩ [(0, ⟨⟨26, 26, 26⟩, false⟩)]).1 ∧
    (tableSearch false ⟨9, 9, 9⟩ [(0, ⟨⟨11, 11, 11⟩, false⟩)]).2.map Prod.snd = [0] ∧
    [3, 2, 0, 1].idxOf 2 < [3, 2, 0, 1].idxOf 0 := by decide +kernel

/-- EacCandidateResults: its error clauses and its operand clauses. -/
theorem witness_eac_candidates :
    formatOfCode (defined 4).format = some .rgba1 ∧ isA8 .rgba1 = false ∧
    formatOfCode (defined 3).format = some .rgba8 ∧ isA8 .rgba8 = true ∧
    readAlpha (defined 3).mem .blk = .ok (List.replicate 16 0) ∧
    allowedFormat (.candEac11 true) .r11u = false ∧ formatOfCode (defined 5).format = some .r11u ∧
    allowedFormat (.candEac11 true) .rg11s = true ∧ formatOfCode (defined 8).format = some .rg11s ∧
    readSamples (defined 8).mem .blk 1 = .ok (List.replicate 16 0) := by decide +kernel

/-- CandEac8IsOptimal: CAND_EAC8 answers. -/
theorem witness_candEac8 : ∃ t, exec .candEac8 (defined 3) = .next t ∧ t.err = .none := by
  have hf : formatOfCode (defined 3).format = some .rgba8 := by decide
  simp only [exec, execCandEac8, candEac8, withFormat_some _ hf, witness_eac_candidates.2.2.2.2.1, withOperand_ok]
  exact ⟨_, rfl, rfl⟩

/-- CandEac11IsOptimal: CAND_EAC11 answers. -/
theorem witness_candEac11 : ∃ t, exec (.candEac11 true) (defined 8) = .next t ∧ t.err = .none := by
  have hf : formatOfCode (defined 8).format = some .rg11s := by decide
  simp only [exec, execCandEac11, candEac11, withFormat_some _ hf, Bool.toNat_true,
    witness_eac_candidates.2.2.2.2.2.2.2.2.2, withOperand_ok]
  exact ⟨_, rfl, rfl⟩

/-- EncodeColourResult, EncodeSampleResult, EncodeDeterminism: their operands, and two states that agree on BLK alone. -/
theorem witness_encode_operands :
    formatOfCode (defined 3).format = some .rgba8 ∧ isColour .rgba8 = true ∧
    readSource (defined 3).mem .rgba8 = .ok blackPixels ∧ readAlpha (defined 3).mem .blk = .ok (List.replicate 16 0) ∧
    formatOfCode (defined 6).format = some .rg11u ∧ isColour .rg11u = false ∧
    readSamples (defined 6).mem .blk 0 = .ok (List.replicate 16 0) ∧
    readSamples (defined 6).mem .blk 1 = .ok (List.replicate 16 0) ∧
    (∀ a, windowAt a = some .blk →
      memRead (defined 1).mem a = memRead { defined 1 with mem := memWrite (defined 1).mem 0x080 9, loss := 5 }.mem a) := by
  refine ⟨by decide, by decide, by decide +kernel, by decide +kernel, by decide, by decide, by decide +kernel,
    by decide +kernel, fun a ha => ?_⟩
  have h := windowAt_eq_some a .blk ha
  have hb : windowBase .blk = 0x100 := rfl
  have hne : a ≠ 0x080 := by omega
  exact (memRead_memWrite_other (defined 1).mem 9 hne).symm

/-- EncodeDeterminism: ENCODE answers. -/
theorem witness_encode_answers : ∃ t, exec .encode (defined 1) = .next t := by
  have hf : formatOfCode (defined 1).format = some .rgb := by decide
  have hs : readSource (defined 1).mem .rgb = .ok blackPixels := by decide +kernel
  simp only [exec, execEncode, withFormat_some _ hf, encodeBlock, formatClass, hs, withOperand_ok]
  exact ⟨_, rfl⟩

/-- A black block with a few grey pixels. -/
def greyBlock (l : List (Nat × Nat)) : List Byte :=
  (List.range 16).flatMap fun k => bytesOf (List.replicate 3 ((l.lookup k).getD 0) ++ [255])

/-- Its pixels. -/
def greyPixels (l : List (Nat × Nat)) : List SrcPixel :=
  (List.range 16).map fun k => ⟨⟨(l.lookup k).getD 0, (l.lookup k).getD 0, (l.lookup k).getD 0⟩, false⟩

/-- A mode search whose first candidates reach a loss of 0 ends with what they leave. -/
theorem colourTree_of_zero {px : List SrcPixel} {m : Mode} (l l' : List Candidate) (hl : treeCandidates .rgb = l ++ l')
    (h : (runCandidates params .rgb px scratchStart l).bestLoss = some 0 ∧
      (runCandidates params .rgb px scratchStart l).bestMode = m) : (colourTree params .rgb px).bestMode = m := by
  simp only [colourTree, hl, runCandidates_append, runCandidates_of_zero _ _ _ h.1, h.2]

theorem encode_of_tree {l : List (Nat × Nat)} {m : Mode}
    (hs : readSource (loaded 1 0x100 (greyBlock l)).mem .rgb = .ok (greyPixels l))
    (h : (colourTree params .rgb (greyPixels l)).bestMode = m) :
    ∃ t, exec .encode (loaded 1 0x100 (greyBlock l)) = .next t ∧ t.mode = m := by
  generalize hp : greyPixels l = px at hs h
  generalize hc : colourTree params .rgb px = sc at h
  have hf : formatOfCode (loaded 1 0x100 (greyBlock l)).format = some .rgb := rfl
  simp only [exec, execEncode, withFormat_some _ hf, encodeBlock, formatClass, hs, withOperand_ok, hc]
  exact ⟨_, rfl, h⟩

/-- EncodeBestOfTried: a block that T encodes without loss and no earlier candidate does. -/
theorem witness_encode_t : ∃ t, exec .encode (loaded 1 0x100 (greyBlock [(15, 255)])) = .next t ∧ t.mode = .t :=
  encode_of_tree (by decide +kernel)
    (colourTree_of_zero (idCandidates false ++ [.planar, .t false 0]) [.h false 0] (by decide) (by decide +kernel))

/-- EncodeBestOfTried: a block that H alone encodes without loss. -/
theorem witness_encode_h :
    ∃ t, exec .encode (loaded 1 0x100 (greyBlock [(0, 3), (15, 173), (14, 167)])) = .next t ∧ t.mode = .h :=
  encode_of_tree (by decide +kernel) (colourTree_of_zero (treeCandidates .rgb) [] (by decide) (by decide +kernel))

/-- InvariantKept and LossBoundsKept: both invariants hold of a busy state whose step answers. -/
theorem witness_invariants : Inv (busy 0) ∧ LossInv (busy 0) ∧ nextIs (step (busy 0)) (fun _ => true) = true := by
  refine ⟨⟨by decide, by decide, by decide, by decide, ?_, ?_⟩, ⟨by decide, by decide⟩, by decide⟩ <;>
    exact ⟨by decide, by decide⟩

end Sys2Proof.Tests
end

section
/-! PROOFS: every step keeps the invariant of the handshake, of the padded sizes and of the memory's form
(spec/10_state.md R28, R29, R33; spec/60_exceptions.md R325). -/

namespace Sys2Proof.Machine

variable {s t u : State}

/-! ## What a command stores (spec/10_state.md R33, R39 to R42) -/

theorem length_flatMap_const {α β : Type} (l : List α) (g : α → List β) (n : Nat) (h : ∀ a, (g a).length = n) :
    (l.flatMap g).length = l.length * n := by
  simp [List.length_flatMap, h]

/-- A read list that is answered gives one pixel for each read (spec/20_memory.md R67). -/
theorem readPixels_length {era depth : Nat} {premul : Bool} {reads : List (Nat × Int × Int)} {port rest : List SrcAnswer}
    {l : List Rgba} (h : readPixels era depth premul reads port = .pixels l rest) : l.length = reads.length := by
  induction reads generalizing port l with
  | nil => simp only [readPixels] at h; cases h; rfl
  | cons read reads ih =>
    obtain ⟨k, x, y⟩ := read
    simp only [readPixels] at h
    split at h
    · cases h
    · split at h
      · cases hr : readPixels era depth premul reads (nextAnswer era depth x y port).2 <;>
          simp only [hr, consPixel] at h <;> cases h
        simp [ih hr]
      · cases h

/-- EXTRACT writes BLK whole, whatever the class (spec/40_normalizer.md R146 to R149). -/
theorem blockContents_length (f : Format) {l : List Rgba} (h : l.length = 16) : (blockContents f l).length = 64 := by
  unfold blockContents
  cases formatClass f
  case r11 => simp [length_flatMap_const l (fun p => bytesBE16 (luma p.rgb)) 2 fun _ => rfl, h]
  case rg11 =>
    simp [length_flatMap_const l (fun p => bytesBE16 p.rgb.r) 2 fun _ => rfl,
      length_flatMap_const l (fun p => bytesBE16 p.rgb.g) 2 fun _ => rfl, h]
  all_goals simp [length_flatMap_const l pixelBytes 4 fun _ => rfl, h]

/-- HDR_EMIT writes HDR whole (spec/45_control_container.md R305). -/
theorem headerBytes_length (code : Byte) (w h : Int) : (headerBytes code w h).length = 16 := rfl

/-- A checked size rounds up to a padded one (spec/10_state.md R33, spec/45_control_container.md R304). -/
theorem paddedLegal_round4 {v : Int} (h1 : 1 ≤ v) (h2 : v ≤ 65532) : paddedLegal (BitVec.ofInt 32 (round4 v)) := by
  simp only [paddedLegal, round4, BitVec.toNat_ofInt]
  omega

theorem headerField_lt {l : List Nat} (h : ∀ v ∈ l, v < 256) (o : Nat) : headerField l o < 65536 := by
  have hb (i : Nat) : l.getD i 0 < 256 := getD_all (· < 256) l 0 h (by decide) i
  have h0 := hb o
  have h1 := hb (o + 1)
  simp only [headerField]
  omega

/-- A padded size that 16 bits hold and that is the rounded size of check 8 is a multiple of 4 at most 65532, although
the size itself may be larger (spec/45_control_container.md R307). -/
theorem paddedLegal_of_field {p v : Nat} (hp : p < 65536) (h : (p : Int) = round4 v) : paddedLegal (BitVec.ofNat 32 p) := by
  simp only [round4] at h
  simp only [paddedLegal, BitVec.toNat_ofNat]
  omega

/-- The header that HDR_PARSE accepts holds legal padded sizes (R306, R307). -/
theorem paddedLegal_loadHeader {l : List Nat} (hl : readHeader s.mem = .ok l) (hv : headerValid l = true) :
    paddedLegal (loadHeader s l).padW ∧ paddedLegal (loadHeader s l).padH := by
  obtain ⟨-, -, hb⟩ := readBytes_ok hl
  rw [headerValid_eq] at hv
  simp only [Bool.and_eq_true, decide_eq_true_eq] at hv
  obtain ⟨-, -, -, -, -, -, -, ⟨hw, hh⟩, -⟩ := hv
  exact ⟨paddedLegal_of_field (headerField_lt hb 8) hw, paddedLegal_of_field (headerField_lt hb 10) hh⟩

/-! ## The invariant (spec/10_state.md R28, R29, R33) -/

/-- The part of the invariant that a completion takes over: the memory's form and the padded sizes. A command owes
nothing else, since either completion sets the flags. -/
structure StoreInv (s : State) : Prop where
  memory : memWf s.mem = true
  padW : paddedLegal s.padW
  padH : paddedLegal s.padH

theorem Inv.store (h : Inv s) : StoreInv s := ⟨h.memory, h.padW, h.padH⟩

theorem StoreInv.complete (h : StoreInv s) : Inv (complete s) where
  memory := h.memory
  busy hb := by simp [isBusy] at hb
  pending _ := rfl
  failed he := absurd rfl he
  padW := h.padW
  padH := h.padH

theorem StoreInv.errorCompletion (h : StoreInv s) (e : CmdError) : Inv (errorCompletion s e) where
  memory := h.memory
  busy hb := by simp [isBusy] at hb
  pending hd := by simp at hd
  failed _ := rfl
  padW := h.padW
  padH := h.padH

/-- Bytes that fit in their window keep the stored part. -/
theorem StoreInv.writeWindow (h : StoreInv s) (win : Window) (o : Nat) (l : List Byte)
    (hl : o + l.length ≤ windowSize win) : StoreInv (writeWindow s win o l) :=
  ⟨memWf_writeWindow s win o l h.memory hl, h.padW, h.padH⟩

theorem StoreInv.putCodeword (h : StoreInv s) {o : Nat} (w : DWord) (ho : o ≤ 8) : StoreInv (putCodeword s o w) :=
  ⟨memWf_putCodeword s o w h.memory ho, h.padW, h.padH⟩

/-- The stored part holds no result register (spec/44_alpha_eac_driver.md R284). -/
theorem StoreInv.clearLvalid (h : StoreInv s) : StoreInv (clearLvalid s) := ⟨h.memory, h.padW, h.padH⟩

theorem StoreInv.setMode (h : StoreInv s) (m : Mode) : StoreInv (setMode s m) := ⟨h.memory, h.padW, h.padH⟩

theorem StoreInv.setLoss (h : StoreInv s) (n : Nat) : StoreInv (setLoss s n) := ⟨h.memory, h.padW, h.padH⟩

theorem StoreInv.setAloss (h : StoreInv s) (n : Nat) : StoreInv (setAloss s n) := ⟨h.memory, h.padW, h.padH⟩

theorem StoreInv.afterReads (h : StoreInv s) (rest : List SrcAnswer) : StoreInv (afterReads s rest) :=
  ⟨h.memory, h.padW, h.padH⟩

theorem StoreInv.forgetBlock (h : StoreInv s) : StoreInv (forgetBlock s) :=
  ⟨memWf_memForget _ _ _ h.memory, h.padW, h.padH⟩

theorem colourSlot_le (f : Format) : colourSlot f ≤ 8 := by unfold colourSlot; split <;> omega

/-- Every end of a command meets the invariant: each success completes a state whose stored part is kept, and each
error completes the state it found. -/
theorem Ends.inv {i : Instr} (h : StoreInv s) (he : Ends s i t) : Inv t := by
  cases he with
  | failed _ e _ => exact h.errorCompletion e
  | nop => exact h.clearLvalid.complete
  | sreset =>
    have hp : paddedLegal 0 := ⟨rfl, by decide⟩
    exact StoreInv.complete ⟨h.memory, hp, hp⟩
  | cfg hi _ =>
    obtain ⟨hw1, hw2, hh1, hh2⟩ := imageError_eq_none.1 hi
    exact StoreInv.complete ⟨h.memory, paddedLegal_round4 hw1 hw2, paddedLegal_round4 hh1 hh2⟩
  | hdrEmit => exact (h.writeWindow .hdr 0 _ (by rw [headerBytes_length]; decide)).clearLvalid.complete
  | hdrParse l hl hv =>
    obtain ⟨hw, hh⟩ := paddedLegal_loadHeader hl hv
    exact StoreInv.complete ⟨h.memory, hw, hh⟩
  | extract f l rest _ _ hp =>
    have hl : 0 + (blockContents f l).length ≤ windowSize .blk := by
      rw [blockContents_length f (readPixels_length hp)]; decide
    exact ((h.afterReads rest).writeWindow .blk 0 _ hl).clearLvalid.complete
  | extractIo k rest => exact (h.afterReads rest).forgetBlock.errorCompletion (.io k)
  | decode f bytes m _ hl =>
    exact ((h.writeWindow .dec 0 bytes (by rw [hl]; decide)).setMode m).clearLvalid.complete
  | score f n => exact (h.setLoss n).complete
  | scoreAlpha f n al => exact ((h.setLoss n).setAloss al).complete
  | candidate _ f => exact (((h.putCodeword _ (colourSlot_le f)).setLoss _).setMode _).complete
  | candEac8 => exact ((((h.putCodeword _ (Nat.zero_le 8)).setLoss _).setAloss _).setMode .eac).complete
  | candEac11 ch =>
    have ho : 8 * ch.toNat ≤ 8 := by cases ch <;> decide
    exact (((h.putCodeword _ ho).setLoss _).setMode .eac).complete
  | encode f w n m => exact (((h.putCodeword w (Nat.zero_le 8)).setLoss n).setMode m).complete
  | encodeTwo f w v n =>
    exact ((((h.putCodeword w (Nat.zero_le 8)).putCodeword v le_rfl).setLoss n).setMode .eac).complete
  | encodeAlpha f w v n m al =>
    exact (((((h.putCodeword w (Nat.zero_le 8)).putCodeword v le_rfl).setLoss n).setMode m).setAloss al).complete

/-- The invariant does not look at the agents' own fields (logs 6, 7) nor at ACCERR. -/
theorem Inv.withAgents (h : Inv s) (acc : Bool) (pc : Nat) (vars : List (Nat × Word)) (ts : List Turn) :
    Inv { s with accErr := acc, hostPc := pc, hostVars := vars, turns := ts } :=
  ⟨h.memory, h.busy, h.pending, h.failed, h.padW, h.padH⟩

/-- A host write keeps the invariant: acceptance clears DONE and ERR (R28), and bytes go to windows only. -/
theorem Writes.inv (h : Inv s) (hw : Writes s u) : Inv u := by
  cases hw with
  | error => exact h.withAgents true _ _ _
  | status v =>
    unfold writeStatus
    split
    · exact h.withAgents false _ _ _
    · exact h
  | accept _ v => exact ⟨h.memory, fun _ => ⟨rfl, rfl⟩, fun _ => rfl, fun he => absurd rfl he, h.padW, h.padH⟩
  | param => exact ⟨h.memory, h.busy, h.pending, h.failed, h.padW, h.padH⟩
  | bytes _ off l hl =>
    refine ⟨memWf_memWriteList _ _ _ h.memory fun i hi => ?_, h.busy, h.pending, h.failed, h.padW, h.padH⟩
    obtain ⟨win, -, hwin⟩ := hl i hi
    simp [hwin]

theorem inv_hostTurn (h : Inv s) (ht : hostTurn s = .next t) : Inv t := by
  rcases hostTurn_next ht with rfl | ⟨i, -, rfl⟩
  · exact h
  · obtain ⟨u, pc, vars, hu | rfl, he⟩ := hostInstr_cases s i <;> rw [he]
    · exact (hu.inv h).withAgents _ _ _ _
    · exact h.withAgents _ _ _ _

theorem inv_coreTurn (h : Inv s) (ht : coreTurn s = .next t) : Inv t := by
  rcases coreTurn_next ht with ⟨-, rfl⟩ | ⟨w, -, ⟨e, -, rfl⟩ | ⟨i, -, he⟩⟩
  · exact h
  · exact h.store.errorCompletion _
  · exact (exec_ends he).inv h.store

theorem inv_hardwareReset (s : State) : Inv (hardwareReset s) := by
  have hp : paddedLegal 0 := ⟨rfl, by decide⟩
  exact ⟨rfl, fun hb => (by cases hb), fun _ => rfl, fun he => absurd rfl he, hp, hp⟩

/-- Settles O59: a step is a turn of the host, a turn of the core, or reset, and each keeps the invariant. -/
theorem invariantKept : Obligations.InvariantKept := by
  intro s t h hs
  obtain ⟨ts, ht | ht | ⟨-, rfl⟩⟩ := step_next hs
  · exact inv_hostTurn (h.withAgents _ _ _ ts) ht
  · exact inv_coreTurn (h.withAgents _ _ _ ts) ht
  · exact inv_hardwareReset _

end Sys2Proof.Machine
end

section
/-! PROOFS: register and window accesses, acceptance, and the registers as the host reads them. -/

namespace Sys2Proof.Machine

variable {s : State}

/-! ## Turns of the core (spec/10_state.md R22) -/

theorem coreTurn_of_decode {w : Word} {i : Instr} (hs : s.seq = .busy w) (hd : decode w = .ok i) :
    coreTurn s = exec i s := by
  simp [coreTurn, fetchCommand, hs, hd]

/-- With no turn listed a BUSY core moves (log 6). -/
theorem step_of_busy {w : Word} (hs : s.seq = .busy w) (ht : s.turns = []) : step s = coreTurn s := by
  simp [step, nextTurn, ht, defaultTurn, isBusy, hs]

theorem step_of_core {ts : List Turn} (ht : s.turns = .core :: ts) : step s = coreTurn { s with turns := ts } := by
  simp [step, nextTurn, ht, takeTurn]

theorem decode_of_decodeTableWord {nbits w : Nat} {i : Instr} (h : decodeTableWord nbits w = some i) :
    decode (BitVec.ofNat 32 (w % 2 ^ nbits)) = .ok i := by
  unfold decodeTableWord at h
  split at h
  · rename_i hd; cases h; exact hd
  · cases h

/-- Settles O6: the core's turn fetches the word it holds, and a placed word leaves no other turn first. -/
theorem stepRunsDecodedCommand : Obligations.StepRunsDecodedCommand := by
  refine ⟨fun s w i hs hd => ⟨fun ht => ?_, fun ts ht => ?_⟩, fun s nbits w i hd => ?_⟩
  · rw [step_of_busy hs ht, coreTurn_of_decode hs hd]
  · rw [step_of_core ht]; exact coreTurn_of_decode hs hd
  · have hs : (s.withFetchWord nbits w).seq = .busy (BitVec.ofNat 32 (w % 2 ^ nbits)) := rfl
    rw [step_of_busy hs rfl, coreTurn_of_decode hs (decode_of_decodeTableWord hd)]

/-! ## Register accesses -/

/-- A register of the map is aligned and lies in no window, so a 4-byte access reaches it (spec/10_state.md R25). -/
theorem accessTarget_of_regAt {off : Nat} {r : Reg} (h : regAt off = some r) : accessTarget .w4 off = some (.reg r) := by
  unfold regAt at h
  split at h <;> cases h <;> rfl

/-- A 4-byte read of a register gives its value and changes nothing. -/
theorem regRead_reg {off : Nat} {r : Reg} (h : regAt off = some r) : regRead s .w4 off = (readReg s r, s) :=
  regRead_of_some (accessTarget_of_regAt h)

theorem isBusy_of_idle (hs : s.seq = .idle) : isBusy s = false := by simp [isBusy, hs]

theorem isBusy_of_busy {c : Word} (hs : s.seq = .busy c) : isBusy s = true := by simp [isBusy, hs]

/-- In IDLE a 4-byte write reaches the register. -/
theorem regWrite_reg {off : Nat} {r : Reg} (hs : s.seq = .idle) (h : regAt off = some r) (v : Word) :
    regWrite s .w4 off v = writeReg s v r := by
  simp [regWrite_of_some v (accessTarget_of_regAt h), isBusy_of_idle hs, writeTarget]

/-- While BUSY a write to any register but STATUS is dropped (spec/70_reset_and_hazards.md R356). -/
theorem regWrite_reg_busy {off : Nat} {r : Reg} {c : Word} (hs : s.seq = .busy c) (h : regAt off = some r)
    (hr : r ≠ .status) (v : Word) : regWrite s .w4 off v = accessError s := by
  simp [regWrite_of_some v (accessTarget_of_regAt h), isBusy_of_busy hs, hr]

/-! ## STATUS (spec/10_state.md R29) -/

/-- Every bit of STATUS. -/
theorem getLsbD_statusWord (s : State) (i : Nat) :
    (statusWord s).getLsbD i =
      if i = 0 then isBusy s else if i = 1 then s.done else if i = 2 then s.accErr else if i = 3 then s.lvalid
      else if i < 8 then (errCode s.err).getLsbD (i - 4) else if i < 11 then (modeCode s.mode).getLsbD (i - 8)
      else false := by
  simp only [statusWord, BitVec.getLsbD_append, BitVec.getLsbD_ofBool]
  by_cases h : i < 11
  · interval_cases i <;> rfl
  · rw [if_neg (by omega), if_neg (by omega), if_neg (by omega), if_neg (by omega), if_neg (by omega), if_neg (by omega),
      if_neg (by omega), if_neg (by omega), if_neg (by omega), if_neg (by omega), if_neg (by omega), if_neg h]
    exact BitVec.getLsbD_zero

/-- The ERR field. -/
theorem statusWord_err (s : State) : (statusWord s).extractLsb' 4 4 = errCode s.err := by
  refine BitVec.eq_of_getLsbD_eq fun i hi => ?_
  simp only [BitVec.getLsbD_extractLsb', getLsbD_statusWord, hi, decide_true, Bool.true_and]
  rw [if_neg (by omega), if_neg (by omega), if_neg (by omega), if_neg (by omega), if_pos (by omega),
    Nat.add_sub_cancel_left]

/-- The MODE field. -/
theorem statusWord_mode (s : State) : (statusWord s).extractLsb' 8 3 = modeCode s.mode := by
  refine BitVec.eq_of_getLsbD_eq fun i hi => ?_
  simp only [BitVec.getLsbD_extractLsb', getLsbD_statusWord, hi, decide_true, Bool.true_and]
  rw [if_neg (by omega), if_neg (by omega), if_neg (by omega), if_neg (by omega), if_neg (by omega), if_pos (by omega),
    Nat.add_sub_cancel_left]

/-- The reserved bits read 0. -/
theorem statusWord_reserved (s : State) : (statusWord s).extractLsb' 11 21 = 0 := by
  refine BitVec.eq_of_getLsbD_eq fun i hi => ?_
  simp only [BitVec.getLsbD_extractLsb', getLsbD_statusWord, hi, decide_true, Bool.true_and]
  rw [if_neg (by omega), if_neg (by omega), if_neg (by omega), if_neg (by omega), if_neg (by omega), if_neg (by omega)]
  exact BitVec.getLsbD_zero.symm

theorem isBusy_iff (s : State) : isBusy s = true ↔ ∃ c, s.seq = .busy c := by
  cases h : s.seq <;> simp [isBusy, h]

/-- Settles O7: CMD is a register of the map, reached by 4-byte accesses only. -/
theorem commandAcceptance : Obligations.CommandAcceptance := by
  intro s v
  have hcmd : regAt 0x004 = some .cmd := rfl
  have herr : accessTarget .w1 0x004 = none := rfl
  refine ⟨fun hs => ?_, fun c hs => ?_, ?_, ?_, ?_⟩
  · rw [regWrite_reg hs hcmd v]
    refine ⟨rfl, ?_⟩
    rw [regRead_reg (r := .status) rfl]
    exact getLsbD_statusWord _ 0
  · exact regWrite_reg_busy hs hcmd (by decide) v
  · exact regWrite_of_none v herr
  · exact regRead_of_none herr
  · exact regRead_reg hcmd

/-! ## Parameter registers (spec/10_state.md R30 to R36) -/

/-- What a register reads after an idle write to it. -/
theorem regRead_regWrite_reg {off : Nat} {r : Reg} (hs : s.seq = .idle) (h : regAt off = some r) (v : Word) :
    (regRead (regWrite s .w4 off v) .w4 off).1 = readReg (writeReg s v r) r := by
  rw [regWrite_reg hs h, regRead_reg h]

/-- The parameter registers that hold a whole word. -/
def wordParameters : List Reg := [.imgW, .imgH, .bx, .by', .srcX0, .srcY0, .srcX1, .srcY1]

theorem readReg_writeReg (s : State) (v : Word) : ∀ r ∈ wordParameters, readReg (writeReg s v r) r = v := by
  simp [wordParameters, readReg, writeReg]

/-- Reading back the low bits a narrow register kept. -/
theorem setWidth_low (v : Word) {n : Nat} (hn : n < 32) :
    (v.setWidth n).setWidth 32 = v &&& BitVec.ofNat 32 (2 ^ n - 1) := by
  have hp : 2 ^ n < 2 ^ 32 := Nat.pow_lt_pow_right (by decide) hn
  have hv : v.toNat % 2 ^ n < 2 ^ n := Nat.mod_lt _ (by positivity)
  apply BitVec.eq_of_toNat_eq
  rw [BitVec.toNat_and, BitVec.toNat_setWidth, BitVec.toNat_setWidth, BitVec.toNat_ofNat,
    Nat.mod_eq_of_lt (by omega : 2 ^ n - 1 < 2 ^ 32), Nat.mod_eq_of_lt (by omega : v.toNat % 2 ^ n < 2 ^ 32),
    Nat.and_two_pow_sub_one_eq_mod]

/-- Settles O11: an idle write reaches its register, and a read gives what that register keeps. -/
theorem parameterRegisterWrites : Obligations.ParameterRegisterWrites := by
  intro s v hs
  have hwrite {off : Nat} {r : Reg} (h : regAt off = some r) := regWrite_reg hs h v
  have hword : ∀ off ∈ [0x010, 0x014, 0x020, 0x024, 0x02C, 0x030, 0x034, 0x038],
      ∃ r ∈ wordParameters, regAt off = some r := by decide
  refine ⟨?_, hwrite (r := .imgW) rfl, hwrite (r := .imgH) rfl, hwrite (r := .bx) rfl, hwrite (r := .by') rfl, ?_,
    hwrite (r := .srcX0) rfl, hwrite (r := .srcY0) rfl, hwrite (r := .srcX1) rfl, hwrite (r := .srcY1) rfl,
    fun off ho => ?_, ?_, ?_⟩
  · rw [hwrite (r := .format) rfl, ← BitVec.setWidth_eq_extractLsb' (by decide)]; rfl
  · rw [hwrite (r := .srcCfg) rfl, ← BitVec.setWidth_eq_extractLsb' (by decide)]; rfl
  · obtain ⟨r, hr, h⟩ := hword off ho
    rw [regRead_regWrite_reg hs h, readReg_writeReg s v r hr]
  · rw [regRead_regWrite_reg hs (r := .format) rfl]
    exact setWidth_low v (by decide)
  · rw [regRead_regWrite_reg hs (r := .srcCfg) rfl]
    exact setWidth_low v (by decide)

/-! ## The result registers as read -/

/-- The two halves of a 64-bit result (spec/10_state.md R37, R38). -/
theorem extract_halves (w : DWord) : w.extractLsb' 32 32 ++ w.extractLsb' 0 32 = w := by
  rw [BitVec.extractLsb'_append_extractLsb'_eq_extractLsb' (by rfl)]
  simp

/-- Settles O12: each field of STATUS is a slice of the word, and LOSS and ALOSS are read in halves. -/
theorem statusAndLossReads : Obligations.StatusAndLossReads := by
  intro s
  rw [regRead_reg (r := .status) rfl, regRead_reg (r := .lossHi) rfl, regRead_reg (r := .lossLo) rfl,
    regRead_reg (r := .alossHi) rfl, regRead_reg (r := .alossLo) rfl]
  refine ⟨?_, getLsbD_statusWord s 1, getLsbD_statusWord s 2, getLsbD_statusWord s 3, ?_, ?_, statusWord_reserved s,
    extract_halves s.loss, extract_halves s.aloss⟩
  · simp only [readReg, getLsbD_statusWord, if_true, isBusy_iff]
  · simp only [readReg, statusWord_err]
    cases s.err <;> rfl
  · simp only [readReg, statusWord_mode]
    cases s.mode <;> rfl

end Sys2Proof.Machine
end

section
/-! PROOFS: access errors (spec/10_state.md R43, spec/20_memory.md R69, R72). -/

namespace Sys2Proof.Machine

variable {s : State}

/-! ## The causes of an access error -/

theorem accessTarget_misaligned {off : Nat} (h : off % 4 ≠ 0) : accessTarget .w4 off = none := by
  simp [accessTarget, h]

theorem accessTarget_byte_outside {off : Nat} (h : windowAt off = none) : accessTarget .w1 off = none := by
  simp [accessTarget, h]

/-- An access inside a window is to that window, or is an access error. -/
theorem accessTarget_of_windowAt {width : Width} {off : Nat} {win : Window} (h : windowAt off = some win) :
    accessTarget width off = none ∨ accessTarget width off = some (.byte win) ∨
      accessTarget width off = some (.quad win) := by
  cases width
  case w1 => simp [accessTarget, h]
  case w4 => by_cases h4 : off % 4 = 0 <;> simp [accessTarget, h, h4]
  case w2 => exact .inl rfl
  case w8 => exact .inl rfl

/-- DEC is read-only to the host (spec/10_state.md R42). -/
theorem regWrite_dec {width : Width} {off : Nat} (h : windowAt off = some .dec) (v : Word) :
    regWrite s width off v = accessError s := by
  rcases accessTarget_of_windowAt (width := width) h with ht | ht | ht
  · exact regWrite_of_none v ht
  all_goals
    rw [regWrite_of_some v ht]
    simp [writeTarget, writeBytesTo]

/-- The registers that refuse every write (spec/10_state.md R27, R33, R37, R38). -/
def readOnlyRegs : List Reg := [.id, .padW, .padH, .lossLo, .lossHi, .alossLo, .alossHi]

theorem writeReg_readOnly (v : Word) : ∀ r ∈ readOnlyRegs, writeReg s v r = accessError s := by
  simp [readOnlyRegs, writeReg]

/-- No register lies in a window. -/
theorem windowAt_of_regAt {off : Nat} {r : Reg} (h : regAt off = some r) : windowAt off = none := by
  unfold regAt at h
  split at h <;> cases h <;> rfl

/-- A write of any width to a read-only register is an access error, in any state of the sequencer. -/
theorem regWrite_readOnly {width : Width} {off : Nat} {r : Reg} (h : regAt off = some r) (hr : r ∈ readOnlyRegs) (v : Word) :
    regWrite s width off v = accessError s := by
  cases width
  case w4 =>
    rw [regWrite_of_some v (accessTarget_of_regAt h)]
    split
    · rfl
    · exact writeReg_readOnly v r hr
  case w1 => exact regWrite_of_none v (accessTarget_byte_outside (windowAt_of_regAt h))
  all_goals exact regWrite_of_none v rfl

/-- Whether a read is an access error does not depend on the state, and a legal read leaves it, so a second read
gives the same value (spec/20_memory.md R72). -/
theorem regRead_again (s : State) (width : Width) (off : Nat) :
    (regRead (regRead s width off).2 width off).1 = (regRead s width off).1 := by
  cases ht : accessTarget width off with
  | none => rw [regRead_of_none ht, regRead_of_none ht]
  | some tg => rw [regRead_of_some ht, regRead_of_some ht]

/-- Settles O9: each cause of R69 leaves the access without a target. -/
theorem accessErrorRules : Obligations.AccessErrorRules := by
  intro s width off v
  refine ⟨fun h => ?_, fun h => regWrite_dec h v, fun h => ?_, ?_, regRead_again s width off⟩
  · have ht : accessTarget width off = none := by
      rcases h with rfl | rfl | ⟨rfl, h⟩ | ⟨rfl, h⟩ | h
      · rfl
      · rfl
      · exact accessTarget_misaligned h
      · exact accessTarget_byte_outside h
      · exact accessTarget_reserved width h
    exact ⟨regRead_of_none ht, regWrite_of_none v ht⟩
  · have hall : ∀ off ∈ [0x000, 0x018, 0x01C, 0x040, 0x044, 0x048, 0x04C], ∃ r ∈ readOnlyRegs, regAt off = some r := by
      decide
    obtain ⟨r, hr, hoff⟩ := hall off h
    exact ⟨regWrite_readOnly hoff hr v, by rw [regRead_reg hoff]⟩
  · cases ht : accessTarget width off with
    | none => exact .inr (by rw [regRead_of_none ht]; exact ⟨rfl, rfl⟩)
    | some tg => exact .inl (by rw [regRead_of_some ht])

end Sys2Proof.Machine
end

section
/-! PROOFS: which command writes which buffer and which register (spec/10_state.md R33, R39 to R42). -/

namespace Sys2Proof.Machine

variable {s t : State} {i : Instr}

/-! ## Buffers -/

/-- The one window a command may write. -/
def outputWindow : Instr → Option Window
  | .nop => none
  | .sreset => none
  | .cfg => none
  | .extract => some .blk
  | .encode => some .cw
  | .decode => some .dec
  | .score => none
  | .hdrEmit => some .hdr
  | .hdrParse => none
  | .candId _ _ _ => some .cw
  | .candEtc1s => some .cw
  | .candPlanar => some .cw
  | .candT _ _ => some .cw
  | .candH _ _ => some .cw
  | .candEac8 => some .cw
  | .candEac11 _ => some .cw

theorem outputWindow_of_colourGenerator (h : isColourGenerator i = true) : outputWindow i = some .cw := by
  cases i <;> first | rfl | cases h

/-- Two memories read the same in every window but `out`. -/
def SameWindows (out : Option Window) (m m' : List Host.Cell) : Prop :=
  ∀ a win, windowAt a = some win → out ≠ some win → memRead m' a = memRead m a

theorem sameWindows_refl (out : Option Window) (m : List Host.Cell) : SameWindows out m m := fun _ _ _ _ => rfl

theorem SameWindows.trans {out : Option Window} {m m' m'' : List Host.Cell} (h : SameWindows out m m')
    (h' : SameWindows out m' m'') : SameWindows out m m'' :=
  fun a win hw hne => (h' a win hw hne).trans (h a win hw hne)

/-- A change inside a window is no change to the others: the windows do not overlap (spec/10_state.md R25). -/
theorem sameWindows_of_sameOutside {win : Window} {m m' : List Host.Cell} {a n : Nat} (h : SameOutside m m' a n)
    (hlo : windowBase win ≤ a) (hhi : a + n ≤ windowBase win + windowSize win) : SameWindows (some win) m m' := by
  intro b win' hw hne
  refine h b fun hb => hne ?_
  have hin := windowAt_of_lt win (b - windowBase win) (by omega)
  rw [show windowBase win + (b - windowBase win) = b by omega, hw] at hin
  exact hin.symm

theorem sameWindows_writeWindow (s : State) (win : Window) {o : Nat} {l : List Byte} (h : o + l.length ≤ windowSize win) :
    SameWindows (some win) s.mem (writeWindow s win o l).mem :=
  sameWindows_of_sameOutside (sameOutside_writeWindow s win o l) (by omega) (by omega)

theorem sameWindows_putCodeword (s : State) {o : Nat} (w : DWord) (h : o ≤ 8) :
    SameWindows (some .cw) s.mem (putCodeword s o w).mem :=
  sameWindows_writeWindow s .cw (by simp only [bytesBE64_length, windowSize]; omega)

/-- Every command keeps the windows that are not its output. -/
theorem Ends.keeps_windows (h : Ends s i t) : SameWindows (outputWindow i) s.mem t.mem := by
  cases h with
  | failed => exact sameWindows_refl _ _
  | nop => exact sameWindows_refl _ _
  | sreset => exact sameWindows_refl _ _
  | cfg => exact sameWindows_refl _ _
  | hdrEmit => exact sameWindows_writeWindow s .hdr (by rw [headerBytes_length]; decide)
  | hdrParse => exact sameWindows_refl _ _
  | extract f l rest _ _ hp =>
    exact sameWindows_writeWindow (afterReads s rest) .blk (by rw [blockContents_length f (readPixels_length hp)]; decide)
  | extractIo => exact sameWindows_of_sameOutside (sameOutside_memForget _ _ _) le_rfl le_rfl
  | decode f bytes m _ hl => exact sameWindows_writeWindow s .dec (by rw [hl]; decide)
  | score => exact sameWindows_refl _ _
  | scoreAlpha => exact sameWindows_refl _ _
  | candidate _ f px hg =>
    rw [outputWindow_of_colourGenerator hg]
    exact sameWindows_putCodeword s _ (colourSlot_le f)
  | candEac8 => exact sameWindows_putCodeword s _ (Nat.zero_le 8)
  | candEac11 ch => exact sameWindows_putCodeword s _ (by cases ch <;> decide)
  | encode f w => exact sameWindows_putCodeword s w (Nat.zero_le 8)
  | encodeTwo f w v =>
    simp only [complete_mem, setMode_mem, setLoss_mem]
    exact (sameWindows_putCodeword s w (Nat.zero_le 8)).trans (sameWindows_putCodeword (putCodeword s 0 w) v le_rfl)
  | encodeAlpha f w v =>
    simp only [complete_mem, setAloss_mem, setMode_mem, setLoss_mem]
    exact (sameWindows_putCodeword s w (Nat.zero_le 8)).trans (sameWindows_putCodeword (putCodeword s 0 w) v le_rfl)

/-- The commands that write each window (spec/10_state.md R39 to R42). -/
theorem outputWindow_cw (h : outputWindow i = some .cw) :
    isColourGenerator i = true ∨ i = .encode ∨ i = .candEac8 ∨ ∃ ch, i = .candEac11 ch := by
  cases i <;> simp_all [outputWindow, isColourGenerator]

theorem outputWindow_hdr (h : outputWindow i = some .hdr) : i = .hdrEmit := by
  cases i <;> first | rfl | cases h

theorem outputWindow_blk (h : outputWindow i = some .blk) : i = .extract := by
  cases i <;> first | rfl | cases h

theorem outputWindow_dec (h : outputWindow i = some .dec) : i = .decode := by
  cases i <;> first | rfl | cases h

/-! ## Registers -/

/-- The image's format and sizes (spec/10_state.md R30 to R32). -/
theorem Ends.keeps_image (h : Ends s i t) (h1 : i ≠ .hdrParse) (h2 : i ≠ .sreset) :
    t.format = s.format ∧ t.imgW = s.imgW ∧ t.imgH = s.imgH := by
  cases h with
  | hdrParse => exact absurd rfl h1
  | sreset => exact absurd rfl h2
  | _ => simp [cfgState, decodedState, colourResult]

/-- The padded sizes (R33). -/
theorem Ends.keeps_padded (h : Ends s i t) (h1 : i ≠ .hdrParse) (h2 : i ≠ .sreset) (h3 : i ≠ .cfg) :
    t.padW = s.padW ∧ t.padH = s.padH := by
  cases h with
  | hdrParse => exact absurd rfl h1
  | sreset => exact absurd rfl h2
  | cfg => exact absurd rfl h3
  | _ => simp [decodedState, colourResult]

/-- The block's place, the source's registers (R34 to R36) and ACCERR. -/
theorem Ends.keeps_source (h : Ends s i t) (h1 : i ≠ .sreset) :
    t.blockX = s.blockX ∧ t.blockY = s.blockY ∧ t.srcCfg = s.srcCfg ∧ t.srcX0 = s.srcX0 ∧
      t.srcY0 = s.srcY0 ∧ t.srcX1 = s.srcX1 ∧ t.srcY1 = s.srcY1 ∧ t.accErr = s.accErr := by
  cases h with
  | sreset => exact absurd rfl h1
  | _ => simp [cfgState, decodedState, colourResult]

/-- No command touches the host's own state. -/
theorem Ends.keeps_host (h : Ends s i t) :
    t.hostProg = s.hostProg ∧ t.hostPc = s.hostPc ∧ t.hostVars = s.hostVars ∧ t.turns = s.turns := by
  cases h <;> simp [cfgState, decodedState, colourResult]

/-- Settles O18: the ends of a command, by the window it writes and the registers it leaves. -/
theorem commandsWriteOnlyTheirOutputs : Obligations.CommandsWriteOnlyTheirOutputs := by
  intro i s t h
  have he := exec_ends h
  have hm := he.keeps_windows
  refine ⟨fun ⟨hg, henc, h8, h11⟩ a ha => hm a .cw ha fun ho => ?_,
    fun hi a ha => hm a .hdr ha fun ho => hi (outputWindow_hdr ho),
    fun hi a ha => hm a .blk ha fun ho => hi (outputWindow_blk ho),
    fun hi a ha => hm a .dec ha fun ho => hi (outputWindow_dec ho), he.keeps_image, he.keeps_padded, he.keeps_source, he.keeps_host⟩
  rcases outputWindow_cw ho with hc | hc | hc | ⟨ch, hc⟩
  · simp [hc] at hg
  · exact henc hc
  · exact h8 hc
  · exact h11 ch hc

end Sys2Proof.Machine
end

section
/-! PROOFS: a command that reads an UNSPEC byte (spec/10_state.md R47; HDR_PARSE by spec/45_control_container.md
R307, log 25). -/

namespace Sys2Proof.Machine

variable {s : State} {m : List Host.Cell} {f : Format}

/-! ## Commands that read their operand whole -/

/-- An answer that is the fault of an UNSPEC byte among the offsets `l` wherever one of them is UNSPEC. -/
def FaultsOnUnspec (m : List Host.Cell) (l : List Nat) (ans : Answer) : Prop :=
  ¬(∀ a ∈ l, Defined m a) → ∃ a ∈ l, memRead m a = none ∧ ans = .fault (.unspecByte a)

theorem faultsOnUnspec_nil (m : List Host.Cell) (ans : Answer) : FaultsOnUnspec m [] ans :=
  fun h => absurd (by simp) h

/-- The one rule of R47: what goes on from an operand stops on the byte the operand's read stops on. -/
theorem faultsOnUnspec_withOperand {α : Type} {r : Except Fault α} {l : List Nat} (h : ReadsOffsets m r l)
    (k : α → Answer) : FaultsOnUnspec m l (withOperand r k) := by
  intro hd
  rcases h with ⟨-, hall⟩ | ⟨a, ha, hn, rfl⟩
  · exact absurd hall hd
  · exact ⟨a, ha, hn, rfl⟩

theorem faultsOnUnspec_encodeBlock (p : Params) (s : State) (f : Format) :
    FaultsOnUnspec s.mem (encodeOffsets f) (encodeBlock p s f) := by
  cases hc : formatClass f <;> simp only [encodeOffsets, encodeBlock, hc] <;> apply faultsOnUnspec_withOperand
  case rgb => exact readsOffsets_readSource _ _
  case a1 => exact readsOffsets_readSource _ _
  case a8 => exact readsOffsets_readBoth (readsOffsets_readAlpha _ _) (readsOffsets_readSource _ _)
  case r11 => exact readsOffsets_readSamples _ _ _
  case rg11 => exact readsOffsets_readBoth (readsOffsets_readSamples _ _ _) (readsOffsets_readSamples _ _ _)

theorem faultsOnUnspec_decodeBlock (p : Params) (s : State) (f : Format) :
    FaultsOnUnspec s.mem (leadingOffsets .cw (blockBytes f)) (decodeBlock p s f) := by
  cases hc : formatClass f <;> simp only [blockBytes, decodeBlock, hc] <;> apply faultsOnUnspec_withOperand
  case rgb => exact readsOffsets_readCodeword_first _
  case a1 => exact readsOffsets_readCodeword_first _
  case a8 => exact readsOffsets_readBothCodewords _
  case r11 => exact readsOffsets_readCodeword_first _
  case rg11 => exact readsOffsets_readBothCodewords _

theorem faultsOnUnspec_scoreBlock (p : Params) (s : State) (f : Format) :
    FaultsOnUnspec s.mem (scoreOffsets f) (scoreBlock p s f) := by
  have hcolour : ReadsOffsets s.mem (readBoth (readSource s.mem f) (readRgb s.mem .dec))
      (sourceOffsets f ++ rgbOffsets .dec) :=
    readsOffsets_readBoth (readsOffsets_readSource _ _) (readsOffsets_readRgb _ _)
  cases hc : formatClass f <;> simp only [scoreOffsets, scoreBlock, hc] <;> apply faultsOnUnspec_withOperand
  case rgb => exact hcolour
  case a1 => exact hcolour
  case a8 =>
    rw [List.append_assoc _ (alphaOffsets .blk)]
    exact readsOffsets_readBoth hcolour (readsOffsets_readBoth (readsOffsets_readAlpha _ _) (readsOffsets_readAlpha _ _))
  case r11 => exact readsOffsets_readSamplePair s 0
  case rg11 => exact readsOffsets_readBoth (readsOffsets_readSamplePair s 0) (readsOffsets_readSamplePair s 1)

/-- A colour generator command reads the source bytes of BLK first. -/
theorem faultsOnUnspec_colourGenerator {i : Instr} (hg : isColourGenerator i = true) (hw : WellFormed i = true)
    (hf : formatOfCode s.format = some f) (ha : allowedFormat i f = true) :
    FaultsOnUnspec s.mem (sourceOffsets f) (exec i s) := by
  obtain ⟨allowed, transp, hal, he⟩ := exec_colourGenerator (s := s) hg hw
  rw [he, colourCandidate_ok _ hf (by rw [← hal f]; exact ha)]
  exact faultsOnUnspec_withOperand (readsOffsets_readSource _ _) _

theorem candEac8_allowed (p : Params) (hf : formatOfCode s.format = some f) (ha : isA8 f = true) :
    FaultsOnUnspec s.mem (alphaOffsets .blk) (candEac8 p s) := by
  simp only [candEac8, withFormat_some _ hf, ha, Bool.not_true, Bool.false_eq_true, if_false]
  exact faultsOnUnspec_withOperand (readsOffsets_readAlpha _ _) _

theorem candEac11_allowed (p : Params) {ch : Bool} (hf : formatOfCode s.format = some f)
    (ha : allowedFormat (.candEac11 ch) f = true) :
    FaultsOnUnspec s.mem (sampleOffsets .blk ch.toNat) (candEac11 p ch s) := by
  have hc : (!isEac11 f || (ch && formatClass f != .rg11)) = false := by
    simp only [allowedFormat, Bool.and_eq_true] at ha
    cases ch <;> simp_all [bne]
  simp only [candEac11, withFormat_some _ hf, hc, Bool.false_eq_true, if_false]
  exact faultsOnUnspec_withOperand (readsOffsets_readSamples _ _ _) _

/-- Every command but HDR_PARSE reads all its operand bytes or stops on one (which bytes: log 12). -/
theorem exec_faultsOnUnspec {i : Instr} (hw : WellFormed i = true) (hi : i ≠ .hdrParse)
    (hf : formatOfCode s.format = some f) (ha : allowedFormat i f = true) :
    FaultsOnUnspec s.mem (operandOffsets i f) (exec i s) := by
  cases i
  case hdrParse => exact absurd rfl hi
  case encode => simp only [exec, execEncode, withFormat_some _ hf]; exact faultsOnUnspec_encodeBlock _ _ _
  case decode => simp only [exec, execDecode, withFormat_some _ hf]; exact faultsOnUnspec_decodeBlock _ _ _
  case score => simp only [exec, execScore, withFormat_some _ hf]; exact faultsOnUnspec_scoreBlock _ _ _
  case candEac8 => exact candEac8_allowed params hf ha
  case candEac11 ch => exact candEac11_allowed params hf ha
  case candId | candEtc1s | candPlanar | candT | candH => exact faultsOnUnspec_colourGenerator rfl hw hf ha
  all_goals exact faultsOnUnspec_nil _ _

/-! ## HDR_PARSE, check by check -/

/-- HDR holds the bytes `b` at these places. -/
def HoldsHeader (m : List Host.Cell) (b : Nat → Byte) (os : List Nat) : Prop :=
  ∀ o ∈ os, memRead m (windowBase .hdr + o) = some (b o)

/-- What a check says of the bytes `b`. -/
def headerTest (b : Nat → Byte) (c : HeaderCheck) : Bool := c.passes (c.reads.map fun o => (b o).toNat)

theorem readBytes_of_holdsHeader {b : Nat → Byte} {os : List Nat} (h : HoldsHeader m b os) :
    readBytes m (os.map (windowBase .hdr + ·)) = .ok (os.map fun o => (b o).toNat) := by
  rw [readBytes_eq_ok m _ fun a => b (a - windowBase .hdr)]
  · simp [Function.comp_def]
  · intro a ha
    obtain ⟨o, ho, rfl⟩ := List.mem_map.1 ha
    rw [h o ho, Nat.add_sub_cancel_left]

/-- Checks whose bytes are all defined decide by their tests, and the checks after them matter only when they pass. -/
theorem checkHeader_append {b : Nat → Byte} {cs : List HeaderCheck} (rest : List HeaderCheck)
    (h : ∀ c ∈ cs, HoldsHeader m b c.reads) :
    checkHeader m (cs ++ rest) = if cs.all (headerTest b) then checkHeader m rest else .ok false := by
  induction cs with
  | nil => rfl
  | cons c cs ih =>
    have hc : c.passes (c.reads.map fun o => (b o).toNat) = headerTest b c := rfl
    simp only [List.cons_append, checkHeader, readBytes_of_holdsHeader (h c (by simp)), hc, List.all_cons,
      ih fun d hd => h d (by simp [hd])]
    by_cases ht : headerTest b c = true <;> simp [ht]

/-- A failing check among defined ones refuses the header. -/
theorem checkHeader_append_false {b : Nat → Byte} {cs : List HeaderCheck} (rest : List HeaderCheck)
    (h : ∀ c ∈ cs, HoldsHeader m b c.reads) (ht : ¬cs.all (headerTest b) = true) :
    checkHeader m (cs ++ rest) = .ok false := by
  rw [checkHeader_append rest h, if_neg ht]

/-- Where the defined bytes could belong to an accepted header, no check fails. -/
theorem checkHeader_ne_false {b : Nat → Byte} {cs : List HeaderCheck} (ht : ∀ c ∈ cs, headerTest b c = true)
    (h : ∀ c ∈ cs, ∀ o ∈ c.reads, Defined m (windowBase .hdr + o) → memRead m (windowBase .hdr + o) = some (b o)) :
    checkHeader m cs ≠ .ok false := by
  intro hf
  rcases checkHeader_cases m cs with ⟨hc, -⟩ | ⟨before, c, after, rfl, -, ⟨l, hl, hp, -⟩ | ⟨o, -, -, hc⟩⟩
  · rw [hc] at hf; cases hf
  · have hdef : ∀ o ∈ c.reads, Defined m (windowBase .hdr + o) := fun o ho =>
      (readBytes_ok hl).2.1 _ (List.mem_map.2 ⟨o, ho, rfl⟩)
    have hb : HoldsHeader m b c.reads := fun o ho => h c (by simp) o ho (hdef o ho)
    rw [readBytes_of_holdsHeader hb] at hl
    cases hl
    have hpass : c.passes (c.reads.map fun o => (b o).toNat) = true := ht c (by simp)
    rw [hp] at hpass; cases hpass
  · rw [hc] at hf; cases hf

/-- With an UNSPEC byte the checks do not all pass: one fails, or one reads an UNSPEC byte of HDR. -/
theorem checkHeader_unspec (h : ∃ j < 16, memRead m (windowBase .hdr + j) = none) :
    checkHeader m headerChecks = .ok false ∨
    ∃ j < 16, memRead m (windowBase .hdr + j) = none ∧
      checkHeader m headerChecks = .error (.unspecByte (windowBase .hdr + j)) := by
  rcases checkHeader_cases m headerChecks with ⟨-, hall⟩ | ⟨before, c, after, hs, -, ⟨-, -, -, hc⟩ | ⟨o, ho, hn, hc⟩⟩
  · obtain ⟨j, hj, hn⟩ := h
    obtain ⟨c, hc, hr⟩ := headerChecks_read_all j hj
    obtain ⟨l, hl, -⟩ := hall c hc
    have hd := (readBytes_ok hl).2.1 _ (List.mem_map.2 ⟨j, hr, rfl⟩)
    rw [hn] at hd; cases hd
  · exact .inl hc
  · exact .inr ⟨o, headerChecks_reads c (by simp [hs]) o ho, hn, hc⟩

/-! ## What the checks say, in order -/

/-- The first checks, as long as they read only the first `n` bytes of HDR. -/
def checksBelow (n : Nat) : List HeaderCheck := headerChecks.takeWhile fun c => c.reads.all (· < n)

/-- The checks after those. -/
def checksFrom (n : Nat) : List HeaderCheck := headerChecks.dropWhile fun c => c.reads.all (· < n)

theorem checksBelow_append (n : Nat) : headerChecks = checksBelow n ++ checksFrom n :=
  List.takeWhile_append_dropWhile.symm

theorem checksBelow_reads {n : Nat} : ∀ c ∈ checksBelow n, ∀ o ∈ c.reads, o < n := by
  intro c hc o ho
  have h := List.mem_takeWhile_imp hc
  simpa using List.all_eq_true.1 h o ho

theorem byte_toNat_beq (v : Byte) {k : Nat} (hk : k < 256) : (v.toNat == k) = decide (v = BitVec.ofNat 8 k) := by
  rw [Bool.eq_iff_iff, beq_iff_eq, decide_eq_true_iff, ← BitVec.toNat_inj, BitVec.toNat_ofNat, Nat.mod_eq_of_lt hk]

theorem round4_natCast (v : Nat) : round4 v = ((4 * ((v + 3) / 4) : Nat) : Int) := by simp [round4]

theorem decide_eq_round4 (p v : Nat) : decide ((p : Int) = round4 v) = decide (p = 4 * ((v + 3) / 4)) := by
  rw [round4_natCast, decide_eq_decide]
  exact Int.ofNat_inj

/-- `BE16(HDR, j)` of the bytes `b` (spec/45_control_container.md R307). -/
def bigEndian16 (b : Nat → Byte) (j : Nat) : Nat := 256 * (b j).toNat + (b (j + 1)).toNat

/-- The eight tests of R307 on the bytes `b`, in the words of the rule. -/
theorem headerTests_eq (b : Nat → Byte) : headerChecks.map (headerTest b) =
    [decide (b 0 = 0x50 ∧ b 1 = 0x4B ∧ b 2 = 0x4D ∧ b 3 = 0x20), decide (b 4 = 0x31 ∨ b 4 = 0x32), decide (b 5 = 0x30),
     decide (b 6 = 0x00), (formatOfCode (b 7)).isSome, decide ((b 4).toNat = versionByte (b 7).toNat),
     decide (bigEndian16 b 12 ≠ 0 ∧ bigEndian16 b 14 ≠ 0),
     decide (bigEndian16 b 8 = 4 * ((bigEndian16 b 12 + 3) / 4) ∧ bigEndian16 b 10 = 4 * ((bigEndian16 b 14 + 3) / 4))] := by
  change [[(b 0).toNat, (b 1).toNat, (b 2).toNat, (b 3).toNat] == headerMagic,
    (b 4).toNat == 0x31 || (b 4).toNat == 0x32, (b 5).toNat == 0x30, (b 6).toNat == 0x00,
    (formatOfCode (BitVec.ofNat 8 (b 7).toNat)).isSome, decide ((b 4).toNat = versionByte (b 7).toNat),
    !decide (bigEndian16 b 12 = 0) && !decide (bigEndian16 b 14 = 0),
    decide ((bigEndian16 b 8 : Int) = round4 (bigEndian16 b 12)) &&
      decide ((bigEndian16 b 10 : Int) = round4 (bigEndian16 b 14))] = _
  simp [headerMagic, byte_toNat_beq, decide_eq_round4]

/-- Some of the checks, as the tests of the list above. -/
theorem all_headerTest (b : Nat → Byte) (k n : Nat) : ((headerChecks.drop k).take n).all (headerTest b) =
    (((headerChecks.map (headerTest b)).drop k).take n).all id := by
  rw [← List.map_drop, ← List.map_take, List.all_map, Function.id_comp]

/-- Checks 2 and 6 together: the version byte is '1' exactly for the format code 0x00. -/
theorem versionByte_iff {v : Byte} (c : Byte) (h : v = 0x31 ∨ v = 0x32) :
    v.toNat = versionByte c.toNat ↔ (v = 0x31 ↔ c = 0x00) := by
  by_cases hc : c = 0
  · rcases h with rfl | rfl <;> simp [versionByte, hc]
  · have hn : c.toNat ≠ 0 := fun h0 => hc (BitVec.eq_of_toNat_eq h0)
    rcases h with rfl | rfl <;> simp [versionByte, hn] <;> exact hc

/-- The first `n` bytes `b` pass the checks that read no others (R307, checks 1 to 6). -/
def FirstBytesPass (b : Nat → Byte) (n : Nat) : Prop :=
  (4 ≤ n → b 0 = 0x50 ∧ b 1 = 0x4B ∧ b 2 = 0x4D ∧ b 3 = 0x20) ∧ (5 ≤ n → b 4 = 0x31 ∨ b 4 = 0x32) ∧
  (6 ≤ n → b 5 = 0x30) ∧ (7 ≤ n → b 6 = 0x00) ∧
  (8 ≤ n → (formatOfCode (b 7)).isSome = true ∧ (b 4 = 0x31 ↔ b 7 = 0x00))

theorem checksBelow_iff (b : Nat → Byte) {n : Nat} (hn : n ≤ 8) :
    (checksBelow n).all (headerTest b) = true ↔ FirstBytesPass b n := by
  have hk : checksBelow n = (headerChecks.drop 0).take (if n < 4 then 0 else if n < 8 then n - 3 else 6) := by
    interval_cases n <;> rfl
  rw [hk, all_headerTest, headerTests_eq]
  interval_cases n <;> simp [FirstBytesPass]
  · exact fun _ _ _ _ h _ _ _ => versionByte_iff _ h

/-- The first seven checks read no padded size (R307, check 7). -/
theorem sizedChecks_iff (b : Nat → Byte) : (headerChecks.take 7).all (headerTest b) = true ↔
    FirstBytesPass b 8 ∧ bigEndian16 b 12 ≠ 0 ∧ bigEndian16 b 14 ≠ 0 := by
  have hs : headerChecks.take 7 = checksBelow 8 ++ (headerChecks.drop 6).take 1 := rfl
  rw [hs, List.all_append, Bool.and_eq_true, checksBelow_iff b le_rfl, all_headerTest, headerTests_eq]
  simp

theorem sizedChecks_reads : ∀ c ∈ headerChecks.take 7, ∀ o ∈ c.reads, o < 8 ∨ (12 ≤ o ∧ o < 16) := by
  simp [headerChecks]

/-- All eight checks (R307, check 8). -/
theorem allChecks_iff (b : Nat → Byte) : headerChecks.all (headerTest b) = true ↔
    (FirstBytesPass b 8 ∧ bigEndian16 b 12 ≠ 0 ∧ bigEndian16 b 14 ≠ 0) ∧
    bigEndian16 b 8 = 4 * ((bigEndian16 b 12 + 3) / 4) ∧ bigEndian16 b 10 = 4 * ((bigEndian16 b 14 + 3) / 4) := by
  have hs : headerChecks = headerChecks.take 7 ++ (headerChecks.drop 7).take 1 := rfl
  rw [hs, List.all_append, Bool.and_eq_true, sizedChecks_iff, all_headerTest, headerTests_eq]
  simp

/-- Bytes 4 to 7 are each read first by a check of their own. -/
theorem checksFrom_single : ∀ n ∈ [4, 5, 6, 7], ∃ p rest, checksFrom n = ⟨[n], p⟩ :: rest := by
  simp only [List.forall_mem_cons]
  exact ⟨⟨_, _, rfl⟩, ⟨_, _, rfl⟩, ⟨_, _, rfl⟩, ⟨_, _, rfl⟩, by simp⟩

/-- An UNSPEC byte that the next check reads alone stops the checks. -/
theorem checkHeader_single {b : Nat → Byte} {n : Nat} (hn : n ∈ [4, 5, 6, 7])
    (h : ∀ c ∈ checksBelow n, HoldsHeader m b c.reads) (ht : (checksBelow n).all (headerTest b) = true)
    (hu : memRead m (windowBase .hdr + n) = none) :
    checkHeader m headerChecks = .error (.unspecByte (windowBase .hdr + n)) := by
  obtain ⟨p, rest, hs⟩ := checksFrom_single n hn
  rw [checksBelow_append n, checkHeader_append _ h, if_pos ht, hs]
  simp [checkHeader, readBytes, hu]

/-! ## How HDR_PARSE ends -/

theorem execHdrParse_refused (h : checkHeader s.mem headerChecks = .ok false) :
    exec .hdrParse s = .next (failedWith s .notAContainer) := by
  simp [exec, execHdrParse, h, raise, errorCompletion_eq_failedWith, errKind]

theorem execHdrParse_fault {a : Nat} (h : checkHeader s.mem headerChecks = .error (.unspecByte a)) :
    exec .hdrParse s = .fault (.unspecByte a) := by
  simp [exec, execHdrParse, h]

/-- Settles O20: the commands that read their operand whole by the one rule of R47, HDR_PARSE by the first check that
does not pass. -/
theorem unspecOperandsFault : Obligations.UnspecOperandsFault := by
  refine ⟨fun i s f hw hi hf ha hd => exec_faultsOnUnspec hw hi hf ha hd, ?_⟩
  intro s b hdr holds be first sized padded refused faults
  have hfault {j : Nat} (hn : hdr j = none)
      (h : checkHeader s.mem headerChecks = .error (.unspecByte (windowBase .hdr + j))) : faults j :=
    ⟨hn, execHdrParse_fault h⟩
  have hends : (∃ j < 16, hdr j = none) → refused ∨ ∃ j < 16, faults j := by
    intro hu
    rcases checkHeader_unspec hu with h | ⟨j, hj, hn, h⟩
    · exact .inl (execHdrParse_refused h)
    · exact .inr ⟨j, hj, hfault hn h⟩
  refine ⟨hends, fun n hn hh hfirst => ?_, fun h8 h12 hbad => ?_, fun n hn hh hfirst hnone => ?_,
    fun hu hall hfirst hsized hpadded => ?_⟩
  · refine execHdrParse_refused ?_
    rw [checksBelow_append n]
    exact checkHeader_append_false _ (fun c hc o ho => hh o (checksBelow_reads c hc o ho)) (mt (checksBelow_iff b hn).1 hfirst)
  · refine execHdrParse_refused ?_
    rw [← List.take_append_drop 7 headerChecks]
    refine checkHeader_append_false _ (fun c hc o ho => ?_) (mt (sizedChecks_iff b).1 hbad)
    rcases sizedChecks_reads c hc o ho with h | ⟨h1, h2⟩
    · exact h8 o h
    · exact h12 o h2 h1
  · have hle : n ≤ 8 := by
      simp only [List.mem_cons, List.not_mem_nil, or_false] at hn
      omega
    exact hfault hnone (checkHeader_single hn (fun c hc o ho => hh o (checksBelow_reads c hc o ho))
      ((checksBelow_iff b hle).2 hfirst) hnone)
  · rcases checkHeader_unspec hu with h | ⟨j, hj, hn, h⟩
    · refine absurd h (checkHeader_ne_false (b := b) ?_ fun c hc o ho hd => ?_)
      · exact List.all_eq_true.1 ((allChecks_iff b).2 ⟨⟨hfirst, hsized⟩, hpadded⟩)
      · rcases hall o (headerChecks_reads c hc o ho) with hb | hn
        · exact hb
        · exact absurd hd (by simp [Defined, show memRead s.mem (windowBase .hdr + o) = none from hn])
    · exact ⟨j, hj, hfault hn h⟩

end Sys2Proof.Machine
end

section
/-! PROOFS: window accesses of the host and their byte order (spec/20_memory.md R64). -/

namespace Sys2Proof.Machine

variable {s : State} {win : Window} {o : Nat}

/-! ## Targets inside a window -/

theorem windowBase_mod_four (win : Window) : windowBase win % 4 = 0 := by cases win <;> rfl

theorem accessTarget_byte_of_lt (h : o < windowSize win) : accessTarget .w1 (windowBase win + o) = some (.byte win) := by
  simp [accessTarget, windowAt_of_lt win o h]

theorem accessTarget_quad_of_lt (h4 : o % 4 = 0) (h : o < windowSize win) :
    accessTarget .w4 (windowBase win + o) = some (.quad win) := by
  have ha : (windowBase win + o) % 4 = 0 := by rw [Nat.add_mod, windowBase_mod_four, h4]
  simp [accessTarget, ha, windowAt_of_lt win o h]

/-- Only a 4-byte access reaches a register (R69). -/
theorem accessTarget_reg_narrow {width : Width} {off : Nat} {r : Reg} (h : regAt off = some r) (hw : width ≠ .w4) :
    accessTarget width off = none := by
  cases width
  case w4 => exact absurd rfl hw
  case w1 => exact accessTarget_byte_outside (windowAt_of_regAt h)
  case w2 => rfl
  case w8 => rfl

/-! ## Reads -/

/-- The host reads the value a byte holds; only an UNSPEC byte is free (log 2). -/
theorem hostByte_of_some {a : Nat} {b : Byte} (h : memRead s.mem a = some b) : hostByte s a = b := by
  simp [hostByte, h]

/-! ## Writes -/

/-- In IDLE the host writes bytes as a command does, but for DEC. -/
theorem writeBytesTo_eq_writeWindow (hd : win ≠ .dec) (l : List Byte) :
    writeBytesTo s win (windowBase win + o) l = writeWindow s win o l := if_neg hd

theorem regWrite_byte (hs : s.seq = .idle) (hd : win ≠ .dec) (h : o < windowSize win) (v : Word) :
    regWrite s .w1 (windowBase win + o) v = writeWindow s win o [v.setWidth 8] := by
  simp [regWrite_of_some v (accessTarget_byte_of_lt h), isBusy_of_idle hs, writeTarget, writeBytesTo_eq_writeWindow hd]

theorem regWrite_quad (hs : s.seq = .idle) (hd : win ≠ .dec) (h4 : o % 4 = 0) (h : o < windowSize win) (v : Word) :
    regWrite s .w4 (windowBase win + o) v = writeWindow s win o (quadBytes v) := by
  simp [regWrite_of_some v (accessTarget_quad_of_lt h4 h), isBusy_of_idle hs, writeTarget, writeBytesTo_eq_writeWindow hd]

/-- Settles O10: inside a window an aligned access is to its four bytes, a 1-byte access to its byte, and a write there is
`writeWindow`. -/
theorem windowByteOrder : Obligations.WindowByteOrder := by
  refine ⟨fun s win o h4 hsize => ?_, fun s win o ho => ?_, fun s off r width v hr hw => ?_⟩
  · have ho : o < windowSize win := by omega
    refine ⟨fun b0 b1 b2 b3 h0 h1 h2 h3 => ?_, fun hs hd v => ?_⟩
    · rw [regRead_of_some (accessTarget_quad_of_lt h4 ho), readTarget, hostByte_of_some h0, hostByte_of_some h1,
        hostByte_of_some h2, hostByte_of_some h3]
    · have hlane (i : Nat) (hi : i < 4) := memRead_writeWindow s win o (quadBytes v) i hi
      exact ⟨_, regWrite_quad hs hd h4 ho v, hlane 0 (by decide), hlane 1 (by decide), hlane 2 (by decide),
        hlane 3 (by decide), sameOutside_writeWindow s win o (quadBytes v)⟩
  · refine ⟨fun b hb => ?_, fun hs hd v => ?_⟩
    · rw [regRead_of_some (accessTarget_byte_of_lt ho), readTarget, hostByte_of_some hb]
    · exact ⟨_, regWrite_byte hs hd ho v, memRead_writeWindow s win o [v.setWidth 8] 0 Nat.one_pos,
        sameOutside_writeWindow s win o [v.setWidth 8]⟩
  · have ht : accessTarget width off = none := accessTarget_reg_narrow hr hw
    exact ⟨regRead_of_none ht, regWrite_of_none v ht⟩

end Sys2Proof.Machine
end

section
/-! PROOFS: an accepted command runs on its inputs as they stood at acceptance (spec/20_memory.md R76,
spec/70_reset_and_hazards.md R354). -/

namespace Sys2Proof.Machine

variable {s : State}

/-! ## Host turns before the core's -/

/-- `s` with its flag ACCERR, the host's place and names, and the turns replaced: all that host turns change while BUSY. -/
def hostMoved (s : State) (accErr : Bool) (pc : Nat) (vars : List (Nat × Word)) (turns : List Turn) : State :=
  { s with accErr := accErr, hostPc := pc, hostVars := vars, turns := turns }

theorem step_of_host {ts : List Turn} (ht : s.turns = .host :: ts) : step s = hostTurn { s with turns := ts } := by
  simp [step, nextTurn, ht, takeTurn]

/-- While BUSY the host's turn answers, and changes ACCERR and the host's own state at most (R356). -/
theorem hostTurn_busy {c : Word} (hs : s.seq = .busy c) :
    ∃ b pc vars, hostTurn s = .next (hostMoved s b pc vars s.turns) := by
  unfold hostTurn
  split
  · rename_i i _
    obtain ⟨b, pc, vars, h⟩ := hostInstr_busy hs i
    exact ⟨b, pc, vars, by rw [h]; rfl⟩
  · exact ⟨s.accErr, s.hostPc, s.hostVars, rfl⟩

/-- A listed host turn of a BUSY core. -/
theorem step_host_busy {c : Word} {ts : List Turn} (hs : s.seq = .busy c) (ht : s.turns = .host :: ts) :
    ∃ b pc vars, step s = .next (hostMoved s b pc vars ts) := by
  rw [step_of_host ht]
  exact hostTurn_busy (s := { s with turns := ts }) hs

theorem run_succ_of_step {k : Nat} {t : State} (h : step s = .next t) :
    Host.Core.run Sys2Proof.core (k + 1) s = Host.Core.run Sys2Proof.core k t := by
  simp only [Host.Core.run, core, h]

/-- After at most as many steps as there are turns listed the core's step is the next (log 6). -/
theorem busy_reaches_coreTurn {c : Word} (hs : s.seq = .busy c) (hr : .reset ∉ s.turns) :
    ∃ k ≤ s.turns.length, ∃ b pc vars turns rest,
      Host.Core.run Sys2Proof.core k s = .next (hostMoved s b pc vars turns) ∧
      step (hostMoved s b pc vars turns) = coreTurn { hostMoved s b pc vars turns with turns := rest } := by
  generalize hts : s.turns = ts at hr
  induction ts generalizing s with
  | nil => exact ⟨0, le_rfl, s.accErr, s.hostPc, s.hostVars, [], [], by rw [← hts]; rfl, step_of_busy hs rfl⟩
  | cons t ts ih =>
    cases t with
    | core =>
      exact ⟨0, Nat.zero_le _, s.accErr, s.hostPc, s.hostVars, .core :: ts, ts, by rw [← hts]; rfl, step_of_core rfl⟩
    | reset => exact absurd List.mem_cons_self hr
    | host =>
      obtain ⟨b, pc, vars, hstep⟩ := step_host_busy hs hts
      obtain ⟨k, hk, b', pc', vars', turns, rest, hrun, hcore⟩ :=
        ih (s := hostMoved s b pc vars ts) hs rfl fun h => hr (List.mem_cons_of_mem _ h)
      exact ⟨k + 1, Nat.succ_le_succ hk, b', pc', vars', turns, rest, (run_succ_of_step hstep).trans hrun, hcore⟩

/-- Settles O21, by induction on the listed turns: each one before the core's is the host's, and the core stays BUSY. -/
theorem acceptedCommandRuns : Obligations.AcceptedCommandRuns := fun _ _ hs hr => busy_reaches_coreTurn hs hr

end Sys2Proof.Machine
end

section
/-! PROOFS: the command word, as an opcode and option fields, and the rows of the opcode map. -/

namespace Sys2Proof

open Sys2Proof.Machine

/-! ## An instruction's opcode and option fields (spec/30_encoding.md R92, R93) -/

/-- The OP value of an instruction's row. -/
def opcodeOf : Instr → Byte
  | .nop => 0x00
  | .sreset => 0x01
  | .cfg => 0x02
  | .extract => 0x03
  | .encode => 0x04
  | .decode => 0x05
  | .score => 0x06
  | .hdrEmit => 0x07
  | .hdrParse => 0x08
  | .candId _ _ _ => 0x10
  | .candEtc1s => 0x11
  | .candPlanar => 0x12
  | .candT _ _ => 0x13
  | .candH _ _ => 0x14
  | .candEac8 => 0x15
  | .candEac11 _ => 0x16

/-- The option fields of an instruction; those its row does not use are 0. -/
def fieldsOf : Instr → CommandFields
  | .candId red flip transp => ⟨red, flip, transp, 0, false⟩
  | .candT transp intens => ⟨false, false, transp, intens, false⟩
  | .candH transp intens => ⟨false, false, transp, intens, false⟩
  | .candEac11 ch => ⟨false, false, false, 0, ch⟩
  | _ => ⟨false, false, false, 0, false⟩

theorem encode_eq_commandWord (i : Instr) :
    encode i = commandWord (opcodeOf i) (fieldsOf i).red (fieldsOf i).flip (fieldsOf i).transp (fieldsOf i).intens
      (fieldsOf i).ch := by
  cases i <;> rfl

/-- A word is that of an opcode and option fields exactly when its parts are these and its reserved bits are clear. -/
theorem commandWord_eq_iff (op : Byte) (f : CommandFields) (w : Word) :
    commandWord op f.red f.flip f.transp f.intens f.ch = w ↔
      reservedField w = 0 ∧ w.extractLsb' 0 8 = op ∧ commandFields w = f := by
  constructor
  · rintro rfl
    exact ⟨reservedField_commandWord .., extract_op_commandWord .., commandFields_commandWord ..⟩
  · rintro ⟨hr, rfl, rfl⟩
    exact commandWord_fields w hr

/-! ## The opcode map -/

theorem unusedClear_eq_true {f : CommandFields} {red flip transp intens ch : Bool} :
    unusedClear f red flip transp intens ch = true ↔
      (red = true ∨ f.red = false) ∧ (flip = true ∨ f.flip = false) ∧ (transp = true ∨ f.transp = false) ∧
        (intens = true ∨ f.intens = 0) ∧ (ch = true ∨ f.ch = false) := by
  simp [unusedClear, and_assoc]

theorem acceptWhen_eq_ok {clear : Bool} {i j : Instr} : acceptWhen clear j = .ok i ↔ clear = true ∧ j = i := by
  cases clear <;> simp [acceptWhen]

theorem acceptIntens_eq_ok {clear : Bool} {intens : BitVec 2} {i j : Instr} :
    acceptIntens clear intens j = .ok i ↔ intensityLegal intens = true ∧ clear = true ∧ j = i := by
  cases h : intensityLegal intens <;> simp [acceptIntens, h, acceptWhen_eq_ok]

/-- A row of the opcode map answers its own instruction on that instruction's fields. -/
theorem decodeOp_fieldsOf {i : Instr} (h : WellFormed i = true) :
    decodeOp (opcodeOf i).toNat (fieldsOf i) = .ok i := by
  cases i
  case candT transp intens => exact acceptIntens_eq_ok.2 ⟨h, rfl, rfl⟩
  case candH transp intens => exact acceptIntens_eq_ok.2 ⟨h, rfl, rfl⟩
  all_goals rfl

/-- What the opcode map answers tells its opcode and its fields. -/
theorem of_decodeOp_eq_ok {op : Nat} {f : CommandFields} {i : Instr} (h : decodeOp op f = .ok i) :
    WellFormed i = true ∧ op = (opcodeOf i).toNat ∧ f = fieldsOf i := by
  obtain ⟨red, flip, transp, intens, ch⟩ := f
  unfold decodeOp at h
  split at h
  case h_17 => cases h
  case h_13 | h_14 =>
    obtain ⟨hl, hu, rfl⟩ := acceptIntens_eq_ok.1 h
    simpa [WellFormed, opcodeOf, fieldsOf, hl] using unusedClear_eq_true.1 hu
  all_goals
    obtain ⟨hu, rfl⟩ := acceptWhen_eq_ok.1 h
    simpa [WellFormed, opcodeOf, fieldsOf] using unusedClear_eq_true.1 hu

theorem decodeOp_eq_ok_iff {op : Byte} {f : CommandFields} {i : Instr} :
    decodeOp op.toNat f = .ok i ↔ WellFormed i = true ∧ op = opcodeOf i ∧ f = fieldsOf i := by
  constructor
  · intro h
    obtain ⟨hw, hop, hf⟩ := of_decodeOp_eq_ok h
    exact ⟨hw, BitVec.eq_of_toNat_eq hop, hf⟩
  · rintro ⟨hw, rfl, rfl⟩
    exact decodeOp_fieldsOf hw

theorem decode_eq_ok_iff {w : Word} {i : Instr} :
    decode w = .ok i ↔ reservedField w = 0 ∧ decodeOp (opField w) (commandFields w) = .ok i := by
  unfold decode
  by_cases h : reservedField w = 0
  · rw [if_pos h, and_iff_right h]
  · rw [if_neg h]
    exact ⟨nofun, fun hd => absurd hd.1 h⟩

/-- A word that decodes has the fields of the instruction it decodes to. -/
theorem commandFields_of_decode {w : Word} {i : Instr} (h : decode w = .ok i) : commandFields w = fieldsOf i := by
  obtain ⟨_, hop⟩ := decode_eq_ok_iff.1 h
  obtain ⟨_, _, hf⟩ := of_decodeOp_eq_ok hop
  exact hf

/-- Settles O3: both sides say that the reserved bits are clear and that opcode and fields are the instruction's. -/
theorem decodeExactlyEncode : Obligations.DecodeExactlyEncode := by
  intro w i
  rw [encode_eq_commandWord, commandWord_eq_iff, decode_eq_ok_iff, opField, decodeOp_eq_ok_iff]
  tauto

/-! ## The rows as masks and values (spec/30_encoding.md R93) -/

/-- Each instruction's word is legal in the instruction's row exactly when the instruction is well-formed. -/
theorem encodingLegal (i : Instr) : Laws.EncodingLegal.Statement i := by
  cases i
  case nop => exact Laws.EncodingLegal.nop
  case sreset => exact Laws.EncodingLegal.sreset
  case cfg => exact Laws.EncodingLegal.cfg
  case extract => exact Laws.EncodingLegal.extract
  case encode => exact Laws.EncodingLegal.encode
  case decode => exact Laws.EncodingLegal.decode
  case score => exact Laws.EncodingLegal.score
  case hdrEmit => exact Laws.EncodingLegal.hdrEmit
  case hdrParse => exact Laws.EncodingLegal.hdrParse
  case candId red flip transp => exact Laws.EncodingLegal.candId red flip transp
  case candEtc1s => exact Laws.EncodingLegal.candEtc1s
  case candPlanar => exact Laws.EncodingLegal.candPlanar
  case candT transp intens => exact Laws.EncodingLegal.candT transp intens
  case candH transp intens => exact Laws.EncodingLegal.candH transp intens
  case candEac8 => exact Laws.EncodingLegal.candEac8
  case candEac11 ch => exact Laws.EncodingLegal.candEac11 ch

theorem legalIn_of_decode {w : Word} {i : Instr} (h : decode w = .ok i) :
    ∃ r, opcodeRows[rowOf i]? = some r ∧ legalIn w r = true := by
  obtain ⟨hw, rfl⟩ := (decodeExactlyEncode w i).1 h
  have hl := encodingLegal i
  rwa [Laws.EncodingLegal.Statement, hw, Option.map_eq_some_iff] at hl

theorem legalIn_eq_true {w : Word} {r : OpcodeRow} :
    legalIn w r = true ↔ w &&& r.mask = r.value ∧ ¬(r.usesIntens = true ∧ w.extractLsb' 11 2 = 3) := by
  simp [legalIn, or_iff_not_imp_left]

/-- A word that matches an instruction's word under a mask is that word when the bits the mask leaves out agree too. -/
theorem eq_of_masked {v w mask : Word} {free : List Nat} (hm : w &&& mask = v &&& mask)
    (hf : ∀ j < 32, mask.getLsbD j = true ∨ j ∈ free) (hj : ∀ j ∈ free, v.getLsbD j = w.getLsbD j) : v = w := by
  apply BitVec.eq_of_getLsbD_eq
  intro j hj32
  rcases hf j hj32 with hb | hfree
  · have hbit := congrArg (fun u => u.getLsbD j) hm
    simpa [BitVec.getLsbD_and, hb] using hbit.symm
  · exact hj j hfree

theorem encode_candId_eq {w : Word} (hm : w &&& 0xFFFFF8FF = 0x10) :
    encode (.candId (w.getLsbD 8) (w.getLsbD 9) (w.getLsbD 10)) = w := by
  have hv : ∀ red flip transp, encode (.candId red flip transp) &&& 0xFFFFF8FF = 0x10 := by decide
  refine eq_of_masked (free := [8, 9, 10]) (hm.trans (hv _ _ _).symm) (by decide) ?_
  simp [encode, getLsbD_commandWord]

theorem encode_candEac11_eq {w : Word} (hm : w &&& 0xFFFFDFFF = 0x16) : encode (.candEac11 (w.getLsbD 13)) = w := by
  have hv : ∀ ch, encode (.candEac11 ch) &&& 0xFFFFDFFF = 0x16 := by decide
  refine eq_of_masked (free := [13]) (hm.trans (hv _).symm) (by decide) ?_
  simp [encode, getLsbD_commandWord]

/-- The rows that use TRANSP and INTENS, CAND_T and CAND_H, differ in their opcode only. -/
theorem commandWord_transp_intens_eq {w : Word} {op : Byte} (hop : op ∈ [0x13, 0x14])
    (hm : w &&& 0xFFFFE3FF = op.setWidth 32) :
    commandWord op false false (w.getLsbD 10) (w.extractLsb' 11 2) false = w := by
  have hv : ∀ op ∈ ([0x13, 0x14] : List Byte), ∀ transp intens,
      commandWord op false false transp intens false &&& 0xFFFFE3FF = op.setWidth 32 := by decide
  refine eq_of_masked (free := [10, 11, 12]) (hm.trans (hv op hop _ _).symm) (by decide) ?_
  simp [getLsbD_commandWord]

/-- A row fixes every bit of its word, and the word decodes, or it is one of the four rows with option fields. -/
theorem opcodeRows_cases : ∀ r ∈ opcodeRows,
    (r.mask = 0xFFFFFFFF ∧ (decode r.value).toBool = true) ∨ r = ⟨"CAND_ID", 0xFFFFF8FF, 0x10, false⟩ ∨
      r = ⟨"CAND_T", 0xFFFFE3FF, 0x13, true⟩ ∨ r = ⟨"CAND_H", 0xFFFFE3FF, 0x14, true⟩ ∨
      r = ⟨"CAND_EAC11", 0xFFFFDFFF, 0x16, false⟩ := by decide

/-- INTENS, where the row uses it, is legal in a word the row admits. -/
theorem intensityLegal_of_legalIn {w : Word} {r : OpcodeRow} (h : legalIn w r = true) (hu : r.usesIntens = true) :
    intensityLegal (w.extractLsb' 11 2) = true := by
  simpa [intensityLegal] using fun h3 => (legalIn_eq_true.1 h).2 ⟨hu, h3⟩

/-- A word that a row admits decodes. -/
theorem decode_of_legalIn {w : Word} {r : OpcodeRow} (hr : r ∈ opcodeRows) (h : legalIn w r = true) :
    ∃ i, decode w = .ok i := by
  obtain ⟨hm, _⟩ := legalIn_eq_true.1 h
  rcases opcodeRows_cases r hr with ⟨hmask, hv⟩ | rfl | rfl | rfl | rfl
  · have hw : w = r.value := by rw [← hm, hmask]; exact BitVec.and_allOnes.symm
    rw [hw]
    cases hd : decode r.value with
    | ok i => exact ⟨i, rfl⟩
    | error e => rw [hd] at hv; cases hv
  · exact ⟨_, (decodeExactlyEncode w _).2 ⟨rfl, encode_candId_eq hm⟩⟩
  · exact ⟨.candT _ _, (decodeExactlyEncode w _).2
      ⟨intensityLegal_of_legalIn h rfl, commandWord_transp_intens_eq (by decide) hm⟩⟩
  · exact ⟨.candH _ _, (decodeExactlyEncode w _).2
      ⟨intensityLegal_of_legalIn h rfl, commandWord_transp_intens_eq (by decide) hm⟩⟩
  · exact ⟨_, (decodeExactlyEncode w _).2 ⟨rfl, encode_candEac11_eq hm⟩⟩

/-- The legal words are those that decode (R93, R120). -/
theorem decodes_iff_legalWord {w : Word} : (∃ i, decode w = .ok i) ↔ legalWord w = true := by
  rw [legalWord, List.any_eq_true]
  constructor
  · rintro ⟨i, h⟩
    obtain ⟨r, hr, hl⟩ := legalIn_of_decode h
    exact ⟨r, List.mem_of_getElem? hr, hl⟩
  · rintro ⟨r, hr, hl⟩
    exact decode_of_legalIn hr hl

/-- Settles O4: the fields are those of the instruction (`commandFields_of_decode`), read off one by one. -/
theorem decodeFollowsOpcodeTable : Obligations.DecodeFollowsOpcodeTable := by
  refine fun w => ⟨decodes_iff_legalWord, fun i => legalIn_of_decode, fun red flip transp h => ?_,
    fun transp intens h => ?_, fun ch h => ?_⟩
  · have hf := commandFields_of_decode h
    exact ⟨congrArg CommandFields.red hf.symm, congrArg CommandFields.flip hf.symm,
      congrArg CommandFields.transp hf.symm⟩
  · have hf : commandFields w = ⟨false, false, transp, intens, false⟩ := by
      rcases h with h | h <;> exact commandFields_of_decode h
    exact ⟨congrArg CommandFields.transp hf.symm, congrArg CommandFields.intens hf.symm⟩
  · exact congrArg CommandFields.ch (commandFields_of_decode h).symm

/-- Settles O2: the decoder, evaluated on each word. -/
theorem opcodeTableWords : Obligations.OpcodeTableWords := by
  unfold Obligations.OpcodeTableWords
  decide

end Sys2Proof
end

section
/-! PROOFS: the WAIT loop of the host. -/

namespace Sys2Proof.Machine

variable {s : State}

/-- A name reads as the value it was last bound to. -/
@[simp] theorem hostVar_setHostVar_same (vars : List (Nat × Word)) (name : Nat) (v : Word) :
    hostVar (setHostVar vars name v) name = v := by
  induction vars with
  | nil => simp [setHostVar, hostVar]
  | cons p vars ih =>
    by_cases h : name = p.1 <;> simp [setHostVar, hostVar, h]
    simpa [h] using ih

/-- The test of WAIT: bit 0 of STATUS is BUSY (spec/10_state.md R29). -/
theorem statusWord_and_one_eq_zero (s : State) : statusWord s &&& 1 = 0 ↔ isBusy s = false := by
  have h0 : (statusWord s).getLsbD 0 = isBusy s := getLsbD_statusWord s 0
  have h1 : statusWord s &&& 1 = BitVec.setWidth 32 (BitVec.ofBool (isBusy s)) :=
    h0 ▸ BitVec.and_one_eq_setWidth_ofBool_getLsbD
  rw [h1]
  cases isBusy s <;> decide

/-- A host turn that reads a register: it binds the register's value and changes nothing else. -/
theorem step_rd32 {ts : List Turn} {off : BitVec 9} {name : Nat} {r : Reg} (ht : s.turns = .host :: ts)
    (hp : s.hostProg[s.hostPc]? = some (rd32 off name)) (hr : regAt off.toNat = some r) :
    step s = .next (hostMoved s s.accErr (s.hostPc + 1) (setHostVar s.hostVars name (readReg s r)) ts) := by
  rw [step_of_host ht]
  simp only [hostTurn, hp, rd32, hostInstr, hostJump, regRead_reg hr]
  cases r <;> rfl

/-- A host turn that branches: it moves the host's place and changes nothing else. -/
theorem step_bnz {ts : List Turn} {name target : Nat} {mask : Word} (ht : s.turns = .host :: ts)
    (hp : s.hostProg[s.hostPc]? = some (.bnz name mask target)) :
    step s = .next (hostMoved s s.accErr (if hostVar s.hostVars name &&& mask = 0 then s.hostPc + 1 else target)
      s.hostVars ts) := by
  rw [step_of_host ht]
  simp only [hostTurn, hp, hostInstr]
  rfl

/-- Settles O13: the first turn reads STATUS, the second branches on its bit 0. -/
theorem waitPollsUntilIdle : Obligations.WaitPollsUntilIdle := by
  rintro s pos name ts rfl ht hread hbranch
  refine ⟨setHostVar s.hostVars name (statusWord s), ?_⟩
  rw [run_succ_of_step (step_rd32 (r := .status) ht hread rfl), run_succ_of_step (step_bnz rfl hbranch)]
  simp only [hostMoved, readReg, hostVar_setHostVar_same, statusWord_and_one_eq_zero]
  cases isBusy s <;> rfl

end Sys2Proof.Machine
end

section
/-! PROOFS: the source block of the colour generators. -/

namespace Sys2Proof.Machine

/-- Settles O44: colours and alpha values are read apart and joined pixel by pixel; without A1 no alpha is read. -/
theorem sourceBlockRead : Obligations.SourceBlockRead := by
  intro m f src hrgb halpha
  unfold readSource
  cases hf : isA1 f
  · simp [readRgb_eq_ok m .blk src hrgb]
  · simp [readRgb_eq_ok m .blk src hrgb, readAlpha_eq_ok m .blk src (halpha hf), readBoth, List.zipWith_map]

end Sys2Proof.Machine
end

section
/-! PROOFS: the colour mode selection, and what each packing function's codeword reads back. -/

namespace Sys2Proof.Machine

/-! ## The colour sub-mode (spec/30_encoding.md R98) -/

/-- The sum `R + dR`, `G + dG` or `B + dB` of R98, of the channel whose delta is at bits `lo + 2` to `lo`. -/
def colourSum (w : DWord) (lo : Nat) : Int := (field w (lo + 7) (lo + 3) : Int) + sext3 (field w (lo + 2) lo)

/-- A sum of R98 leaves 0 to 31. -/
abbrev SumOverflows (w : DWord) (lo : Nat) : Prop := colourSum w lo < 0 ∨ 31 < colourSum w lo

theorem sext3_eq_toInt (v : BitVec 3) : sext3 v.toNat = v.toInt := by
  revert v; decide

theorem colourSum_eq_extract (w : DWord) (lo : Nat) :
    colourSum w lo = ((w.extractLsb' (lo + 3) 5).toNat : Int) + (w.extractLsb' lo 3).toInt := by
  have h1 : lo + 7 + 1 - (lo + 3) = 5 := by omega
  have h2 : lo + 2 + 1 - lo = 3 := by omega
  rw [colourSum, field_eq_extract, field_eq_extract, h1, h2, sext3_eq_toInt]

/-- Bit 33, taken as 1 in A1 formats, opens the other four modes (R98, R106). -/
def DiffSet (w : DWord) (a1 : Bool) : Prop := a1 = true ∨ w.getLsbD 33 = true

theorem selectMode_individual {w : DWord} (h : w.getLsbD 33 = false) : selectMode w false = .individual := by
  unfold selectMode
  rw [field_bit, h]
  rfl

/-- Where bit 33 is taken as 1 the sums decide, red first. -/
theorem selectMode_of_diffSet {w : DWord} {a1 : Bool} (h : DiffSet w a1) :
    selectMode w a1 =
      if SumOverflows w 56 then .t
      else if SumOverflows w 48 then .h
      else if SumOverflows w 40 then .planar
      else .differential := by
  have h33 : ¬(!a1 && field w 33 33 == 0) = true := by
    rw [field_bit]
    rcases h with rfl | h
    · simp
    · rw [h]; simp
  unfold selectMode
  rw [if_neg h33]
  exact if_congr (overflows_iff _ _) rfl (if_congr (overflows_iff _ _) rfl (if_congr (overflows_iff _ _) rfl rfl))

theorem selectMode_t {w : DWord} {a1 : Bool} (h : DiffSet w a1) (hr : SumOverflows w 56) :
    selectMode w a1 = .t := by
  rw [selectMode_of_diffSet h, if_pos hr]

theorem selectMode_h {w : DWord} {a1 : Bool} (h : DiffSet w a1) (hr : ¬SumOverflows w 56) (hg : SumOverflows w 48) :
    selectMode w a1 = .h := by
  rw [selectMode_of_diffSet h, if_neg hr, if_pos hg]

theorem selectMode_planar {w : DWord} {a1 : Bool} (h : DiffSet w a1) (hr : ¬SumOverflows w 56)
    (hg : ¬SumOverflows w 48) (hb : SumOverflows w 40) : selectMode w a1 = .planar := by
  rw [selectMode_of_diffSet h, if_neg hr, if_neg hg, if_pos hb]

theorem selectMode_differential {w : DWord} {a1 : Bool} (h : DiffSet w a1) (hr : ¬SumOverflows w 56)
    (hg : ¬SumOverflows w 48) (hb : ¬SumOverflows w 40) : selectMode w a1 = .differential := by
  rw [selectMode_of_diffSet h, if_neg hr, if_neg hg, if_neg hb]

/-- Settles O35: the sums as numbers of bits are those the selection tests. -/
theorem modeSelectionRule : Obligations.ModeSelectionRule := by
  unfold Obligations.ModeSelectionRule
  intro w a1
  simp only [← colourSum_eq_extract]
  refine ⟨?_, fun h => ⟨selectMode_t h, selectMode_h h, selectMode_planar h, selectMode_differential h⟩⟩
  rintro rfl h
  exact selectMode_individual h

/-! ## Reading packed words back -/

/-- A colour whose channels are below the given bounds. -/
def Below (c : Rgb) (r g b : Nat) : Prop := c.r < r ∧ c.g < g ∧ c.b < b

/-- The blank word a packing function starts from. -/
@[simp] theorem field_blank (hi lo : Nat) : field 0#64 hi lo = 0 := field_zero hi lo

/-- A bit of a codeword from the one-bit field at its place. -/
theorem getLsbD_of_field {w : DWord} {i : Nat} {b : Bool} (h : field w i i = b.toNat) : w.getLsbD i = b := by
  rw [field_bit] at h
  cases hw : w.getLsbD i <;> cases b <;> simp_all

/-- The indices of a packed word, written last, read back (R103). -/
theorem indices_putIdx {w : DWord} {idx : Nat → Nat} (h0 : field w 31 0 = 0) (hi : ∀ k, idx k < 4) :
    ∀ x < 4, ∀ y < 4, etcIndex (putIdx w idx) x y = idx (4 * y + x) :=
  fun _ hx _ hy => etcIndex_putIdx w idx h0 hx hy (hi _)

/-! ### T (R101, R108) -/

section T
variable {p c : Rgb} {di : Nat} {op : Bool} {idx : Nat → Nat}

theorem tColours_packT (hp : Below p 16 16 16) (hc : Below c 16 16 16) : tColours (packT p c di op idx) = (p, c) := by
  obtain ⟨hpr, hpg, hpb⟩ := hp
  obtain ⟨hcr, hcg, hcb⟩ := hc
  simp (disch := omega) [tColours, packT, field_putIdx, field_putField_other, field_putField_same, Nat.mod_eq_of_lt,
    Nat.div_add_mod]

theorem tDistance_packT (hd : di < 8) : tDistance (packT p c di op idx) = di := by
  simp (disch := omega) [tDistance, packT, field_putIdx, field_putField_other, field_putField_same, Nat.mod_eq_of_lt,
    Nat.div_add_mod]

theorem getLsbD_packT_opaque : (packT p c di op idx).getLsbD 33 = op := by
  apply getLsbD_of_field
  simp (disch := omega) [packT, field_putIdx, field_putField_other, field_putField_same, Bool.toNat_le]

/-- R108 sets bits 63 to 61 and 58 so that the red sum overflows, upwards with the carry and downwards without. -/
theorem redSum_packT (hp : p.r < 16) : SumOverflows (packT p c di op idx) 56 := by
  have hbase (w : DWord) : field w 63 59 = 4 * field w 63 61 + field w 60 59 := field_split w 61 (by omega) (by omega)
  have hdelta (w : DWord) : field w 58 56 = 4 * field w 58 58 + field w 57 56 := field_split w 58 (by omega) (by omega)
  simp (disch := omega) [SumOverflows, colourSum, hbase, hdelta, packT, field_putIdx, field_putField_other, field_putField_same,
    sext3]
  split_ifs <;> omega

end T

/-- Settles O46: each part is read back from the fields it was put in, and the red sum overflows by construction. -/
theorem packTRoundTrip : Obligations.PackTRoundTrip := by
  intro p c di op idx hpr hpg hpb hcr hcg hcb hd hi w
  refine ⟨tColours_packT ⟨hpr, hpg, hpb⟩ ⟨hcr, hcg, hcb⟩, tDistance_packT hd, getLsbD_packT_opaque,
    indices_putIdx (by simp (disch := omega) [lowField_putField]) hi, selectMode_t (.inl rfl) (redSum_packT hpr), ?_⟩
  rintro rfl
  exact selectMode_t (.inr getLsbD_packT_opaque) (redSum_packT hpr)

/-! ### H (R102, R109) -/

section H
variable {c0 c1 : Rgb} {di : Nat} {op : Bool} {idx : Nat → Nat}

theorem hColours_packH (h0 : Below c0 16 16 16) (h1 : Below c1 16 16 16) :
    hColours (packH c0 c1 di op idx) = (c0, c1) := by
  obtain ⟨h0r, h0g, h0b⟩ := h0
  obtain ⟨h1r, h1g, h1b⟩ := h1
  simp (disch := omega) [hColours, packH, field_putIdx, field_putField_other, field_putField_same, Nat.mod_eq_of_lt,
    Nat.div_add_mod]

/-- The low bit of the distance index is in the order of the bases, the other two in bits 34 and 32. -/
theorem hDistance_packH (h0 : Below c0 16 16 16) (h1 : Below c1 16 16 16) (hd : di < 8)
    (ho : packed12 c1 ≤ packed12 c0 ↔ di % 2 = 1) : hDistance (packH c0 c1 di op idx) = di := by
  have h34 : field (packH c0 c1 di op idx) 34 34 = di / 4 := by
    simp (disch := omega) [packH, field_putIdx, field_putField_other, field_putField_same, Nat.mod_eq_of_lt]
  have h32 : field (packH c0 c1 di op idx) 32 32 = di / 2 % 2 := by
    simp (disch := omega) [packH, field_putIdx, field_putField_other, field_putField_same]
  simp only [hDistance, hColours_packH h0 h1, h34, h32, ho]
  split <;> omega

theorem getLsbD_packH_opaque : (packH c0 c1 di op idx).getLsbD 33 = op := by
  apply getLsbD_of_field
  simp (disch := omega) [packH, field_putIdx, field_putField_other, field_putField_same, Bool.toNat_le]

/-- R109 sets bit 63 where the red sum would be negative without it. -/
theorem redSum_packH (h0 : Below c0 16 16 16) : ¬SumOverflows (packH c0 c1 di op idx) 56 := by
  obtain ⟨h0r, h0g, h0b⟩ := h0
  have hbase (w : DWord) : field w 63 59 = 16 * field w 63 63 + field w 62 59 := field_split w 63 (by omega) (by omega)
  simp (disch := omega) [SumOverflows, colourSum, hbase, packH, field_putIdx, field_putField_other, field_putField_same,
    sext3, Nat.mod_eq_of_lt]
  split_ifs <;> omega

/-- R109 sets bits 55 to 53 and 50 so that the green sum overflows, upwards with the carry and downwards without. -/
theorem greenSum_packH (h0 : Below c0 16 16 16) : SumOverflows (packH c0 c1 di op idx) 48 := by
  obtain ⟨h0r, h0g, h0b⟩ := h0
  have hbase (w : DWord) : field w 55 51 = 4 * field w 55 53 + (2 * field w 52 52 + field w 51 51) := by
    rw [field_split w 53 (by omega) (by omega), field_split w (hi := 52) 52 (by omega) (by omega)]
    rfl
  have hdelta (w : DWord) : field w 50 48 = 4 * field w 50 50 + field w 49 47 / 2 := by
    rw [field_split w 50 (by omega) (by omega), field_upper w (hi := 49) (lo := 47) (by omega) (by omega)]
    rfl
  simp (disch := omega) [SumOverflows, colourSum, hbase, hdelta, packH, field_putIdx, field_putField_other, field_putField_same,
    sext3, Nat.mod_eq_of_lt]
  split_ifs <;> omega

end H

/-! ### The order of the H bases (spec/43_color_candidates.md R233) -/

/-- `hOrder` once it is known which base has the smaller packed value. -/
def orderBases (lo hi : Rgb) (di : Nat) : Rgb × Rgb :=
  if di % 2 = 1 then (hi, lo) else if packed12 lo = packed12 hi then nudge lo hi else (lo, hi)

theorem hOrder_of_le {a b : Rgb} (h : packed12 a ≤ packed12 b) (di : Nat) : hOrder a b di = orderBases a b di := by
  simp [hOrder, orderBases, h]

theorem hOrder_of_not_le {a b : Rgb} (h : ¬packed12 a ≤ packed12 b) (di : Nat) : hOrder a b di = orderBases b a di := by
  simp [hOrder, orderBases, h]

/-- Of two bases with equal packed values, the first is made the smaller one, and both stay 4-bit colours. -/
theorem nudge_spec {lo hi : Rgb} (hl : Below lo 16 16 16) (hh : Below hi 16 16 16) (he : packed12 lo = packed12 hi) :
    packed12 (nudge lo hi).1 < packed12 (nudge lo hi).2 ∧ Below (nudge lo hi).1 16 16 16 ∧
      Below (nudge lo hi).2 16 16 16 := by
  simp only [Below, packed12] at *
  unfold nudge
  split <;> dsimp only <;> omega

theorem orderBases_spec {lo hi : Rgb} (hl : Below lo 16 16 16) (hh : Below hi 16 16 16) (h : packed12 lo ≤ packed12 hi)
    (di : Nat) :
    (packed12 (orderBases lo hi di).2 ≤ packed12 (orderBases lo hi di).1 ↔ di % 2 = 1) ∧
      Below (orderBases lo hi di).1 16 16 16 ∧ Below (orderBases lo hi di).2 16 16 16 := by
  unfold orderBases
  split
  · rename_i hodd
    exact ⟨iff_of_true h hodd, hh, hl⟩
  · rename_i heven
    split
    · rename_i he
      obtain ⟨hlt, h1, h2⟩ := nudge_spec hl hh he
      exact ⟨iff_of_false (Nat.not_le_of_lt hlt) heven, h1, h2⟩
    · rename_i hne
      exact ⟨iff_of_false (Nat.not_le_of_lt (Nat.lt_of_le_of_ne h hne)) heven, hl, hh⟩

theorem hOrder_spec {a b : Rgb} (ha : Below a 16 16 16) (hb : Below b 16 16 16) (di : Nat) :
    (packed12 (hOrder a b di).2 ≤ packed12 (hOrder a b di).1 ↔ di % 2 = 1) ∧
      Below (hOrder a b di).1 16 16 16 ∧ Below (hOrder a b di).2 16 16 16 := by
  by_cases h : packed12 a ≤ packed12 b
  · rw [hOrder_of_le h]
    exact orderBases_spec ha hb h di
  · rw [hOrder_of_not_le h]
    exact orderBases_spec hb ha (Nat.le_of_not_le h) di

/-- Settles O47: the same for H, where the red sum stays in range and the green one overflows; the order of the bases
stands for the low bit of the distance index, and `hOrder` makes it so. -/
theorem packHRoundTrip : Obligations.PackHRoundTrip := by
  constructor
  · intro c0 c1 di op idx h0r h0g h0b h1r h1g h1b hd hi ho w
    have h0 : Below c0 16 16 16 := ⟨h0r, h0g, h0b⟩
    have h1 : Below c1 16 16 16 := ⟨h1r, h1g, h1b⟩
    refine ⟨hColours_packH h0 h1, hDistance_packH h0 h1 hd ho, getLsbD_packH_opaque,
      indices_putIdx (by simp (disch := omega) [lowField_putField]) hi,
      selectMode_h (.inl rfl) (redSum_packH h0) (greenSum_packH h0), ?_⟩
    rintro rfl
    exact selectMode_h (.inr getLsbD_packH_opaque) (redSum_packH h0) (greenSum_packH h0)
  · intro a b di har hag hab hbr hbg hbb x
    obtain ⟨ho, ⟨h1r, h1g, h1b⟩, h2r, h2g, h2b⟩ := hOrder_spec ⟨har, hag, hab⟩ ⟨hbr, hbg, hbb⟩ di
    exact ⟨ho, h1r, h1g, h1b, h2r, h2g, h2b⟩

/-! ### Planar (R105, R110) -/

section Planar
variable {o h v : Rgb}

theorem planarQuantised_packP (ho : Below o 64 128 64) (hh : Below h 64 128 64) (hv : Below v 64 128 64) :
    planarQuantised (packP o h v) = ⟨o, h, v⟩ := by
  obtain ⟨hor, hog, hob⟩ := ho
  obtain ⟨hhr, hhg, hhb⟩ := hh
  obtain ⟨hvr, hvg, hvb⟩ := hv
  have hparts : 32 * (o.b / 32) + 8 * (o.b / 8 % 4) + o.b % 8 = o.b := by omega
  simp (disch := omega) [planarQuantised, packP, field_putField_other, field_putField_same, Nat.mod_eq_of_lt,
    Nat.div_add_mod, hparts]

theorem getLsbD_packP_diff : (packP o h v).getLsbD 33 = true := by
  apply getLsbD_of_field
  simp (disch := omega) [packP, field_putField_other, field_putField_same]

/-- R110 sets bit 63 where the red sum would be negative without it. -/
theorem redSum_packP (ho : Below o 64 128 64) : ¬SumOverflows (packP o h v) 56 := by
  obtain ⟨hor, hog, hob⟩ := ho
  have hbase (w : DWord) : field w 63 59 = 16 * field w 63 63 + field w 62 57 / 4 := by
    rw [field_split w 63 (by omega) (by omega), field_upper w (hi := 62) (lo := 57) (mid := 59) (by omega) (by omega)]
    rfl
  have hdelta (w : DWord) : field w 58 56 = 2 * (field w 62 57 % 4) + field w 56 56 := by
    rw [field_split w 57 (by omega) (by omega), field_lower w (hi := 62) (lo := 57) (mid := 58) (by omega) (by omega)]
    rfl
  simp (disch := omega) [SumOverflows, colourSum, hbase, hdelta, packP, field_putField_other, field_putField_same,
    sext3, Nat.mod_eq_of_lt]
  split_ifs <;> omega

/-- R110 sets bit 55 where the green sum would be negative without it. -/
theorem greenSum_packP (ho : Below o 64 128 64) : ¬SumOverflows (packP o h v) 48 := by
  obtain ⟨hor, hog, hob⟩ := ho
  have hbase (w : DWord) : field w 55 51 = 16 * field w 55 55 + field w 54 49 / 4 := by
    rw [field_split w 55 (by omega) (by omega), field_upper w (hi := 54) (lo := 49) (mid := 51) (by omega) (by omega)]
    rfl
  have hdelta (w : DWord) : field w 50 48 = 2 * (field w 54 49 % 4) + field w 48 48 := by
    rw [field_split w 49 (by omega) (by omega), field_lower w (hi := 54) (lo := 49) (mid := 50) (by omega) (by omega)]
    rfl
  simp (disch := omega) [SumOverflows, colourSum, hbase, hdelta, packP, field_putField_other, field_putField_same,
    sext3, Nat.mod_eq_of_lt]
  split_ifs <;> omega

/-- R110 sets bits 47 to 45 and 42 so that the blue sum overflows, upwards with the carry and downwards without. -/
theorem blueSum_packP : SumOverflows (packP o h v) 40 := by
  have hbase (w : DWord) : field w 47 43 = 4 * field w 47 45 + field w 44 43 := field_split w 45 (by omega) (by omega)
  have hdelta (w : DWord) : field w 42 40 = 4 * field w 42 42 + field w 41 39 / 2 := by
    rw [field_split w 42 (by omega) (by omega), field_upper w (hi := 41) (lo := 39) (by omega) (by omega)]
    rfl
  simp (disch := omega) [SumOverflows, colourSum, hbase, hdelta, packP, field_putField_other, field_putField_same,
    sext3, Nat.mod_eq_of_lt]
  split_ifs <;> omega

end Planar

/-- Settles O48: red and green sums stay in range, the blue one overflows, and bit 33 is written 1. -/
theorem packPlanarRoundTrip : Obligations.PackPlanarRoundTrip := by
  intro o h v hor hog hob hhr hhg hhb hvr hvg hvb
  have ho : Below o 64 128 64 := ⟨hor, hog, hob⟩
  have hmode {a1 : Bool} : selectMode (packP o h v) a1 = .planar :=
    selectMode_planar (.inr getLsbD_packP_diff) (redSum_packP ho) (greenSum_packP ho) blueSum_packP
  exact ⟨planarQuantised_packP ho ⟨hhr, hhg, hhb⟩ ⟨hvr, hvg, hvb⟩, hmode, hmode⟩

/-! ### Individual (R95, R99) -/

section Individual
variable {b0 b1 : Rgb} {t0 t1 : Nat} {flip : Bool} {idx : Nat → Nat}

theorem individualBase_packI_first (h0 : Below b0 16 16 16) :
    individualBase (packI b0 b1 t0 t1 flip idx) 0 = b0.map ext4 := by
  obtain ⟨hr, hg, hb⟩ := h0
  simp (disch := omega) [individualBase, packI, field_putIdx, field_putField_other, field_putField_same,
    Nat.mod_eq_of_lt, Triple.map]

theorem individualBase_packI_second (h1 : Below b1 16 16 16) :
    individualBase (packI b0 b1 t0 t1 flip idx) 1 = b1.map ext4 := by
  obtain ⟨hr, hg, hb⟩ := h1
  simp (disch := omega) [individualBase, packI, field_putIdx, field_putField_other, field_putField_same,
    Nat.mod_eq_of_lt, Triple.map]

theorem halfTable_packI (h0 : t0 < 8) (h1 : t1 < 8) :
    halfTable (packI b0 b1 t0 t1 flip idx) 0 = t0 ∧ halfTable (packI b0 b1 t0 t1 flip idx) 1 = t1 := by
  simp (disch := omega) [halfTable, packI, field_putIdx, field_putField_other, field_putField_same, Nat.mod_eq_of_lt]

theorem flipBit_packI : flipBit (packI b0 b1 t0 t1 flip idx) = flip := by
  cases flip <;> simp (disch := omega) [flipBit, packI, field_putIdx, field_putField_other, field_putField_same]

theorem getLsbD_packI_diff : (packI b0 b1 t0 t1 flip idx).getLsbD 33 = false := by
  apply getLsbD_of_field
  simp (disch := omega) [packI, field_putIdx, field_putField_other, field_putField_same]

end Individual

/-! ### Differential (R95, R100) -/

section Differential
variable {b : Rgb} {d : Triple Int} {t0 t1 : Nat} {flip op : Bool} {idx : Nat → Nat}

theorem sext3_deltaBits {x : Int} (h1 : -4 ≤ x) (h2 : x ≤ 3) : sext3 (deltaBits x) = x := by
  unfold sext3 deltaBits
  split <;> omega

@[simp] theorem deltaBits_mod (x : Int) : deltaBits x % 8 = deltaBits x := by
  unfold deltaBits
  omega

theorem differentialBase_packD_first (hb : Below b 32 32 32) :
    differentialBase (packD b d t0 t1 flip op idx) 0 = b.map ext5 := by
  obtain ⟨hbr, hbg, hbb⟩ := hb
  simp (disch := omega) [differentialBase, differentialBase5, packD, field_putIdx, field_putField_other,
    field_putField_same, Nat.mod_eq_of_lt]

/-- The three deltas as R95 and R100 allow them. -/
def DeltasInRange (d : Triple Int) : Prop :=
  (-4 ≤ d.r ∧ d.r ≤ 3) ∧ (-4 ≤ d.g ∧ d.g ≤ 3) ∧ (-4 ≤ d.b ∧ d.b ≤ 3)

theorem colourSum_packD (hb : Below b 32 32 32) (hd : DeltasInRange d) :
    colourSum (packD b d t0 t1 flip op idx) 56 = b.r + d.r ∧ colourSum (packD b d t0 t1 flip op idx) 48 = b.g + d.g ∧
      colourSum (packD b d t0 t1 flip op idx) 40 = b.b + d.b := by
  obtain ⟨hbr, hbg, hbb⟩ := hb
  obtain ⟨⟨hr1, hr2⟩, ⟨hg1, hg2⟩, hb1, hb2⟩ := hd
  simp (disch := omega) [colourSum, packD, field_putIdx, field_putField_other, field_putField_same, Nat.mod_eq_of_lt,
    sext3_deltaBits]

/-- The second base of a codeword is its sums, where they are not negative. -/
theorem differentialBase_second (w : DWord) :
    differentialBase w 1 = (⟨(colourSum w 56).toNat, (colourSum w 48).toNat, (colourSum w 40).toNat⟩ : Rgb).map ext5 :=
  rfl

theorem differentialBase_packD_second (hb : Below b 32 32 32) (hd : DeltasInRange d) :
    differentialBase (packD b d t0 t1 flip op idx) 1 = (addDelta b d).map ext5 := by
  obtain ⟨hr, hg, hb⟩ := colourSum_packD hb hd (t0 := t0) (t1 := t1) (flip := flip) (op := op) (idx := idx)
  rw [differentialBase_second, hr, hg, hb]
  rfl

theorem halfTable_packD (h0 : t0 < 8) (h1 : t1 < 8) :
    halfTable (packD b d t0 t1 flip op idx) 0 = t0 ∧ halfTable (packD b d t0 t1 flip op idx) 1 = t1 := by
  simp (disch := omega) [halfTable, packD, field_putIdx, field_putField_other, field_putField_same, Nat.mod_eq_of_lt]

theorem flipBit_packD : flipBit (packD b d t0 t1 flip op idx) = flip := by
  cases flip <;> simp (disch := omega) [flipBit, packD, field_putIdx, field_putField_other, field_putField_same]

theorem getLsbD_packD_opaque : (packD b d t0 t1 flip op idx).getLsbD 33 = op := by
  apply getLsbD_of_field
  simp (disch := omega) [packD, field_putIdx, field_putField_other, field_putField_same, Bool.toNat_le]

end Differential

/-! ### EAC (R111, R112) -/

section Eac
variable {base mult table : Nat} {idx : Nat → Nat}

theorem eacIndex_eq_extract (w : DWord) (x y : Nat) :
    eacIndex w x y = (w.extractLsb' (45 - 3 * (4 * x + y)) 3).toNat := by
  have h3 : eacShift x y + 2 + 1 - eacShift x y = 3 := by omega
  rw [eacIndex, field_eq_extract, h3, eacShift]

theorem fields_packE (hb : base < 256) (hm : mult < 16) (ht : table < 16) :
    field (packE base mult table idx) 63 56 = base ∧ field (packE base mult table idx) 55 52 = mult ∧
      field (packE base mult table idx) 51 48 = table := by
  simp (disch := omega) [packE, field_foldEac, field_putField_other, field_putField_same, Nat.mod_eq_of_lt]

theorem eacIndex_packE (hi : ∀ k, idx k < 8) {x y : Nat} (hx : x < 4) (hy : y < 4) :
    eacIndex (packE base mult table idx) x y = idx (4 * y + x) := by
  have h0 : field (putField (putField (putField 0 63 56 base) 55 52 mult) 51 48 table) 47 0 = 0 := by
    simp (disch := omega) [field_putField_other]
  exact (eacIndex_foldEac idx _ h0 hx hy).trans (Nat.mod_eq_of_lt (hi _))

end Eac

/-- Settles O49: a Differential codeword has the base plus the delta as its sum, so a sum in range keeps its mode. -/
theorem packHalvesAndEacRoundTrip : Obligations.PackHalvesAndEacRoundTrip := by
  refine ⟨?individual, ?differential, ?eac⟩
  case individual =>
    intro b0 b1 t0 t1 flip idx h0r h0g h0b h1r h1g h1b ht0 ht1 hi w
    obtain ⟨htab0, htab1⟩ := halfTable_packI ht0 ht1
    exact ⟨individualBase_packI_first ⟨h0r, h0g, h0b⟩, individualBase_packI_second ⟨h1r, h1g, h1b⟩, htab0, htab1,
      flipBit_packI, indices_putIdx (by simp (disch := omega) [lowField_putField]) hi,
      selectMode_individual getLsbD_packI_diff⟩
  case differential =>
    intro b d t0 t1 flip op idx hbr hbg hbb ht0 ht1 hi ⟨hr1, hr2, hg1, hg2, hb1, hb2⟩ hsum w
    have hb : Below b 32 32 32 := ⟨hbr, hbg, hbb⟩
    have hd : DeltasInRange d := ⟨⟨hr1, hr2⟩, ⟨hg1, hg2⟩, hb1, hb2⟩
    obtain ⟨htab0, htab1⟩ := halfTable_packD ht0 ht1
    obtain ⟨hr, hg, hbl⟩ : colourSum w 56 = b.r + d.r ∧ colourSum w 48 = b.g + d.g ∧ colourSum w 40 = b.b + d.b :=
      colourSum_packD hb hd
    have hmode {a1 : Bool} (h : DiffSet w a1) : selectMode w a1 = .differential :=
      selectMode_differential h (by omega) (by omega) (by omega)
    refine ⟨differentialBase_packD_first hb, differentialBase_packD_second hb hd, htab0, htab1, flipBit_packD,
      getLsbD_packD_opaque, indices_putIdx (by simp (disch := omega) [lowField_putField]) hi, hmode (.inl rfl), ?_⟩
    rintro rfl
    exact hmode (.inr getLsbD_packD_opaque)
  case eac =>
    intro base mult table idx hb hm ht hi w
    obtain ⟨hbase, hmult, htable⟩ := fields_packE (idx := idx) hb hm ht
    exact ⟨(field_eq_extract w 63 56).symm.trans hbase, (field_eq_extract w 55 52).symm.trans hmult,
      (field_eq_extract w 51 48).symm.trans htable,
      fun x hx y hy => (eacIndex_eq_extract w x y).symm.trans (eacIndex_packE hi hx hy)⟩

end Sys2Proof.Machine
end

section
/-! PROOFS: the checks of EXTRACT, its reads, and each of its ends (spec/40_normalizer.md R141 to R151). -/

namespace Sys2Proof.Machine

variable {s : State} {f : Format} {px : Nat → Nat → Nat} {rest : List SrcAnswer}

/-! ## The checks (R142) -/

/-- Checks 2 to 5 of R142, all passed. -/
theorem extractRefused_eq_false_iff :
    extractRefused s = false ↔
      s.srcCfg.getLsbD 0 = true ∧ (s.srcCfg.extractLsb' 2 2).toNat < 2 ∧
      (s.srcX0.toInt < s.srcX1.toInt ∧ s.srcY0.toInt < s.srcY1.toInt) ∧
      (s.srcX0.toInt ≤ s.blockX.toInt ∧ s.blockX.toInt ≤ s.srcX1.toInt - 1) ∧
      s.srcY0.toInt ≤ s.blockY.toInt ∧ s.blockY.toInt ≤ s.srcY1.toInt - 1 := by
  simp only [extractRefused, sourceEmpty, originOutside, Bool.or_eq_false_iff, Bool.not_eq_false',
    decide_eq_false_iff_not, not_le, not_lt, and_assoc]
  rfl

theorem exec_extract_refused (h : formatOfCode s.format = none ∨ extractRefused s = true) :
    exec .extract s = .next (failedWith s .badArgument) := by
  show withFormat s _ = _
  cases hf : formatOfCode s.format with
  | none => exact withFormat_none _ hf
  | some f =>
    have hr : extractRefused s = true := h.resolve_left (by simp [hf])
    rw [withFormat_some _ hf, if_pos hr]
    rfl

/-- Once the checks pass, EXTRACT ends as its reads do. -/
theorem exec_extract_of_checks (hf : formatOfCode s.format = some f) (hr : extractRefused s = false) :
    exec .extract s = finishExtract s f
      (readPixels s.portEra (srcDepth s.srcCfg) (srcPremul s.srcCfg) (extractReads s) s.srcPort) := by
  show withFormat s _ = _
  rw [withFormat_some _ hf, if_neg (by simp [hr])]

/-- Settles O28: a state none of whose causes holds would pass every check. -/
theorem extractRefusals : Obligations.ExtractRefusals := by
  intro s h
  refine exec_extract_refused (h.imp_right fun h => ?_)
  by_contra hr
  obtain ⟨hconn, hdepth, hsize, hx, hy⟩ := extractRefused_eq_false_iff.mp (Bool.eq_false_iff.mpr hr)
  rw [hconn] at h
  simp only [Bool.true_eq_false, false_or] at h
  omega

/-! ## The coordinates (R143, R151) -/

/-- A clamped coordinate lies in the rectangle, because the block origin does. -/
theorem readCoord_mem_rectangle (h : extractRefused s = false) (k : Nat) :
    (s.srcX0.toInt ≤ (readCoord s k).1 ∧ (readCoord s k).1 < s.srcX1.toInt) ∧
    s.srcY0.toInt ≤ (readCoord s k).2 ∧ (readCoord s k).2 < s.srcY1.toInt := by
  obtain ⟨-, -, -, hx, hy⟩ := extractRefused_eq_false_iff.mp h
  simp only [readCoord, sourceMaxX, sourceMaxY, signedReg]
  omega

/-- Settles O29: the reads are the raster order paired with the clamped coordinates. -/
theorem extractReadsInRange : Obligations.ExtractReadsInRange := by
  intro s h
  refine ⟨by simp [extractReads, Function.comp_def, raster_eq], fun k x y hmem => ?_⟩
  obtain ⟨i, -, hi⟩ := List.mem_map.mp hmem
  cases hi
  obtain ⟨⟨hx0, hx1⟩, hy0, hy1⟩ := readCoord_mem_rectangle h k
  exact ⟨rfl, rfl, hx0, hx1, hy0, hy1⟩

/-! ## Channels (R144, R145) -/

/-- A channel widened from the depth of SRC_CFG. -/
def wideChannel (cfg : BitVec 4) (v : Nat) : Nat := if cfg.extractLsb' 2 2 = 0 then v * 257 else v

/-- A colour channel `v` beside the alpha channel `a`, widened and un-premultiplied as SRC_CFG says. -/
def normalChannel (cfg : BitVec 4) (v a : Nat) : Nat :=
  if cfg.getLsbD 1 = true ∧ 0 < wideChannel cfg a ∧ wideChannel cfg a < 65535 then
    min 65535 (wideChannel cfg v * 65535 / wideChannel cfg a)
  else wideChannel cfg v

theorem srcDepth_eq_zero_iff (cfg : BitVec 4) : srcDepth cfg = 0 ↔ cfg.extractLsb' 2 2 = 0 :=
  BitVec.toNat_inj (y := 0#2)

theorem widen_srcDepth (cfg : BitVec 4) (v : Nat) : widen (srcDepth cfg) v = wideChannel cfg v := by
  simp only [widen, wideChannel, srcDepth_eq_zero_iff]

theorem depthMax_srcDepth (cfg : BitVec 4) :
    depthMax (srcDepth cfg) = if cfg.extractLsb' 2 2 = 0 then 255 else 65535 := by
  simp only [depthMax, srcDepth_eq_zero_iff]

theorem normalisePixel_eq (cfg : BitVec 4) (r g b a : Nat) :
    normalisePixel (srcDepth cfg) (srcPremul cfg) r g b a =
      ⟨⟨normalChannel cfg r a, normalChannel cfg g a, normalChannel cfg b a⟩, wideChannel cfg a⟩ := by
  simp only [normalisePixel, srcPremul, widen_srcDepth, normalChannel]
  cases cfg.getLsbD 1
  · simp only [Bool.false_eq_true, false_and, if_false]
  · simp only [true_and, if_true]
    rfl

theorem wideChannel_le {cfg : BitVec 4} {v : Nat} (h : v ≤ depthMax (srcDepth cfg)) : wideChannel cfg v ≤ 65535 := by
  rw [depthMax_srcDepth] at h
  unfold wideChannel
  by_cases hd : cfg.extractLsb' 2 2 = 0
  · rw [if_pos hd] at h ⊢
    omega
  · rwa [if_neg hd] at h ⊢

theorem normalChannel_le {cfg : BitVec 4} {v : Nat} (h : v ≤ depthMax (srcDepth cfg)) (a : Nat) :
    normalChannel cfg v a ≤ 65535 := by
  unfold normalChannel
  split
  · exact Nat.min_le_left _ _
  · exact wideChannel_le h

/-- The three weights of R147 add up to the divisor. -/
theorem luma_le {c : Rgb} (hr : c.r ≤ 65535) (hg : c.g ≤ 65535) (hb : c.b ≤ 65535) : luma c ≤ 65535 := by
  unfold luma
  omega

/-! ## Listed answers (spec/20_memory.md R66, R67) -/

/-- The answer that gives the channels `px k` to the read of raster pixel `k`. -/
def pixelAnswer (px : Nat → Nat → Nat) (k : Nat) : SrcAnswer := .pixel (px k 0) (px k 1) (px k 2) (px k 3)

/-- What EXTRACT makes of that answer. -/
def extractedPixel (cfg : BitVec 4) (px : Nat → Nat → Nat) (k : Nat) : Rgba :=
  ⟨⟨normalChannel cfg (px k 0) (px k 3), normalChannel cfg (px k 1) (px k 3), normalChannel cfg (px k 2) (px k 3)⟩,
    wideChannel cfg (px k 3)⟩

/-- The answers to the first `n` reads lie in the range of the declared depth. -/
def AnswersInDepth (cfg : BitVec 4) (px : Nat → Nat → Nat) (n : Nat) : Prop :=
  ∀ k < n, ∀ c < 4, px k c ≤ depthMax (srcDepth cfg)

theorem answersInDepth_iff {cfg : BitVec 4} {n : Nat} :
    AnswersInDepth cfg px n ↔ ∀ k < n, ∀ c < 4, px k c ≤ if cfg.extractLsb' 2 2 = 0 then 255 else 65535 := by
  rw [AnswersInDepth, depthMax_srcDepth]

/-- A read whose listed answer is in range puts its pixel in front of what the reads after it give. -/
theorem readPixels_cons_pixel {era k : Nat} {cfg : BitVec 4} {xy : Int × Int} {reads : List (Nat × Int × Int)}
    {port : List SrcAnswer} (h : ∀ c < 4, px k c ≤ depthMax (srcDepth cfg)) :
    readPixels era (srcDepth cfg) (srcPremul cfg) ((k, xy) :: reads) (pixelAnswer px k :: port) =
      consPixel (extractedPixel cfg px k) (readPixels era (srcDepth cfg) (srcPremul cfg) reads port) := by
  have hin : inDepth (srcDepth cfg) (px k 0) (px k 1) (px k 2) (px k 3) = true := by
    simp [inDepth, h 0, h 1, h 2, h 3]
  simp [readPixels, nextAnswer, pixelAnswer, hin, normalisePixel_eq, extractedPixel]

/-- Reads whose listed answers are all in range: their pixels come first, and the reads and answers after them
decide the end. -/
theorem readPixels_append {era : Nat} {cfg : BitVec 4} {coord : Nat → Int × Int} {reads : List (Nat × Int × Int)}
    {port : List SrcAnswer} (ks : List Nat) (h : ∀ k ∈ ks, ∀ c < 4, px k c ≤ depthMax (srcDepth cfg)) :
    readPixels era (srcDepth cfg) (srcPremul cfg) (ks.map (fun k => (k, coord k)) ++ reads)
        (ks.map (pixelAnswer px) ++ port) =
      (ks.map (extractedPixel cfg px)).foldr consPixel
        (readPixels era (srcDepth cfg) (srcPremul cfg) reads port) := by
  induction ks with
  | nil => rfl
  | cons k ks ih =>
    simp only [List.map_cons, List.cons_append, List.foldr_cons]
    rw [readPixels_cons_pixel (h k List.mem_cons_self), ih fun i hi => h i (List.mem_cons_of_mem k hi)]

@[simp] theorem foldr_consPixel_pixels (l l' : List Rgba) (rest : List SrcAnswer) :
    l.foldr consPixel (.pixels l' rest) = .pixels (l ++ l') rest := by
  induction l with
  | nil => rfl
  | cons p l ih => rw [List.foldr_cons, ih]; rfl

@[simp] theorem foldr_consPixel_failed (l : List Rgba) (i : Nat) (rest : List SrcAnswer) :
    l.foldr consPixel (.failed i rest) = .failed i rest := List.foldr_fixed' (fun _ => rfl) l

@[simp] theorem foldr_consPixel_outOfRange (l : List Rgba) : l.foldr consPixel .outOfRange = .outOfRange :=
  List.foldr_fixed' (fun _ => rfl) l

/-! ## Sixteen pixels (R141) -/

/-- The block EXTRACT holds after sixteen answers. -/
def extractedBlock (cfg : BitVec 4) (px : Nat → Nat → Nat) : List Rgba := (List.range 16).map (extractedPixel cfg px)

theorem extractedBlock_length (cfg : BitVec 4) (px : Nat → Nat → Nat) : (extractedBlock cfg px).length = 16 := by
  simp [extractedBlock]

theorem extractedBlock_getElem? (cfg : BitVec 4) (px : Nat → Nat → Nat) {k : Nat} (hk : k < 16) :
    (extractedBlock cfg px)[k]? = some (extractedPixel cfg px k) := by
  simp [extractedBlock, hk]

theorem readPixels_answered (hpx : AnswersInDepth s.srcCfg px 16)
    (hport : s.srcPort = (List.range 16).map (pixelAnswer px) ++ rest) :
    readPixels s.portEra (srcDepth s.srcCfg) (srcPremul s.srcCfg) (extractReads s) s.srcPort =
      .pixels (extractedBlock s.srcCfg px) rest := by
  have h := readPixels_append (era := s.portEra) (coord := readCoord s) (reads := []) (port := rest) (List.range 16)
    fun k hk => hpx k (List.mem_range.mp hk)
  rw [List.append_nil, ← hport] at h
  simpa [readPixels, extractReads, raster_eq, extractedBlock] using h

/-- Sixteen answers in range: BLK holds the block contents, and besides it only LVALID and the source's answers
change. -/
theorem exec_extract_answered (hf : formatOfCode s.format = some f) (hr : extractRefused s = false)
    (hpx : AnswersInDepth s.srcCfg px 16) (hport : s.srcPort = (List.range 16).map (pixelAnswer px) ++ rest) :
    ∃ m, exec .extract s = .next
        { ended s with lvalid := false, mem := m, srcPort := rest, portEra := s.portEra + 1 } ∧
      (∀ i < 64, memRead m (0x100 + i) = (blockContents f (extractedBlock s.srcCfg px))[i]?) ∧
      SameOutside s.mem m 0x100 64 := by
  have hlen := blockContents_length f (extractedBlock_length s.srcCfg px)
  refine ⟨(writeWindow s .blk 0 (blockContents f (extractedBlock s.srcCfg px))).mem, ?_, fun i hi => ?_, ?_⟩
  · rw [exec_extract_of_checks hf hr, readPixels_answered hpx hport]
    rfl
  · exact memRead_writeWindow s .blk 0 _ i (hlen ▸ hi)
  · exact hlen ▸ sameOutside_writeWindow s .blk 0 _

/-! ## The bytes of BLK (R146 to R149) -/

/-- In a list made of pieces of one length, the place of an item says its piece and its place in it. -/
theorem getElem?_flatMap_const {α β : Type} (l : List α) (g : α → List β) (n : Nat) (h : ∀ a, (g a).length = n)
    (k i : Nat) (hi : i < n) : (l.flatMap g)[n * k + i]? = l[k]?.bind fun a => (g a)[i]? := by
  induction l generalizing k with
  | nil => simp
  | cons a l ih =>
    rw [List.flatMap_cons]
    cases k with
    | zero => rw [List.getElem?_append_left (by rw [h]; omega)]; simp
    | succ k =>
      rw [List.getElem?_append_right (by rw [h, Nat.mul_succ]; omega), h, List.getElem?_cons_succ, ← ih k]
      congr 1
      rw [Nat.mul_succ]
      omega

theorem extractedBlock_flatMap_getElem? (cfg : BitVec 4) (px : Nat → Nat → Nat) (g : Rgba → List Byte) (n : Nat)
    (h : ∀ p, (g p).length = n) {k i : Nat} (hk : k < 16) (hi : i < n) :
    ((extractedBlock cfg px).flatMap g)[n * k + i]? = (g (extractedPixel cfg px k))[i]? := by
  rw [getElem?_flatMap_const _ g n h k i hi, extractedBlock_getElem? cfg px hk, Option.bind_some]

theorem blockContents_colour (hc : isColour f = true) (l : List Rgba) : blockContents f l = l.flatMap pixelBytes := by
  unfold isColour at hc
  unfold blockContents
  cases hclass : formatClass f <;> simp [hclass] at hc ⊢

theorem highByte_eq (v : Nat) : highByte v = BitVec.ofNat 8 (v / 256) := by
  rw [highByte, Nat.shiftRight_eq_div_pow]

/-- Settles O30: byte `4·k + c` of BLK is the high byte of channel `c` of pixel `k`. -/
theorem extractColourResult : Obligations.ExtractColourResult := by
  intro s f px rest hf hc hr hpx hport
  obtain ⟨m, hexec, hmem, hframe⟩ := exec_extract_answered hf hr (answersInDepth_iff.mpr hpx) hport
  refine ⟨m, hexec, fun k hk => ?_, hframe⟩
  have hbyte : ∀ c < 4, memRead m (0x100 + 16 * (k / 4) + 4 * (k % 4) + c) =
      (pixelBytes (extractedPixel s.srcCfg px k))[c]? := by
    intro c hc4
    rw [show 0x100 + 16 * (k / 4) + 4 * (k % 4) + c = 0x100 + (4 * k + c) by omega, hmem _ (by omega),
      blockContents_colour hc, extractedBlock_flatMap_getElem? _ _ _ 4 (fun _ => rfl) hk hc4]
  simp only [pixelBytes, highByte_eq] at hbyte
  refine ⟨fun c hc3 => ?_, hbyte 3 (by decide)⟩
  rw [hbyte c (by omega)]
  interval_cases c <;> rfl

/-- The sample of channel `ch` in an 11-bit format; R11 formats fill the second half of BLK with 0. -/
def blockSample (f : Format) (ch : Nat) (p : Rgba) : Nat :=
  if formatClass f = .rg11 then (if ch = 0 then p.rgb.r else p.rgb.g) else if ch = 0 then luma p.rgb else 0

theorem flatMap_zero_sample (l : List Rgba) :
    (l.flatMap fun _ => bytesBE16 0) = List.replicate (2 * l.length) 0 := by
  induction l with
  | nil => rfl
  | cons p l ih => rw [List.flatMap_cons, ih, List.length_cons, Nat.mul_succ]; rfl

/-- An 11-bit block is the samples of its two channels, one after the other. -/
theorem blockContents_samples (hc : isColour f = false) {l : List Rgba} (hl : l.length = 16) :
    blockContents f l =
      (l.flatMap fun p => bytesBE16 (blockSample f 0 p)) ++ l.flatMap fun p => bytesBE16 (blockSample f 1 p) := by
  unfold isColour at hc
  cases hclass : formatClass f <;> simp [hclass] at hc
  case r11 => simp [blockContents, blockSample, hclass, flatMap_zero_sample, hl]
  case rg11 => simp [blockContents, blockSample, hclass]

/-- Byte `32·ch + 2·k + i` of an 11-bit block is byte `i` of sample `k` of channel `ch`. -/
theorem blockContents_sample_getElem? (hc : isColour f = false) (cfg : BitVec 4) (px : Nat → Nat → Nat) {ch k i : Nat}
    (hch : ch < 2) (hk : k < 16) (hi : i < 2) :
    (blockContents f (extractedBlock cfg px))[32 * ch + (2 * k + i)]? =
      (bytesBE16 (blockSample f ch (extractedPixel cfg px k)))[i]? := by
  have hl := extractedBlock_length cfg px
  have hlen : ((extractedBlock cfg px).flatMap fun p => bytesBE16 (blockSample f 0 p)).length = 32 := by
    rw [length_flatMap_const _ _ 2 fun _ => rfl, hl]
  rw [blockContents_samples hc hl]
  obtain rfl | rfl : ch = 0 ∨ ch = 1 := by omega
  · rw [List.getElem?_append_left (by omega), Nat.mul_zero, Nat.zero_add]
    exact extractedBlock_flatMap_getElem? cfg px _ 2 (fun _ => rfl) hk hi
  · rw [List.getElem?_append_right (by omega), hlen, Nat.mul_one, Nat.add_sub_cancel_left]
    exact extractedBlock_flatMap_getElem? cfg px _ 2 (fun _ => rfl) hk hi

theorem blockSample_le (f : Format) (ch : Nat) {p : Rgba} (hr : p.rgb.r ≤ 65535) (hg : p.rgb.g ≤ 65535)
    (hb : p.rgb.b ≤ 65535) : blockSample f ch p ≤ 65535 := by
  have := luma_le hr hg hb
  unfold blockSample
  split <;> split <;> omega

/-- The low byte of a 16-bit value does not see its high byte. -/
theorem bytesBE16_eq (v : Nat) : bytesBE16 v = [BitVec.ofNat 8 (v / 256), BitVec.ofNat 8 (v % 256)] := by
  have hlow : BitVec.ofNat 8 v = BitVec.ofNat 8 (v % 256) := BitVec.eq_of_toNat_eq (by simp)
  rw [bytesBE16, hlow]

/-- Settles O31: the samples fit in 16 bits, so that their two bytes spell them. -/
theorem extractSampleResult : Obligations.ExtractSampleResult := by
  intro s f px rest hf hc hr hpx hport wide colour sample
  have hdepth := answersInDepth_iff.mpr hpx
  obtain ⟨m, hexec, hmem, hframe⟩ := exec_extract_answered hf hr hdepth hport
  refine ⟨m, hexec, fun ch hch k hk => ?_, hframe⟩
  have hsample : sample ch k = blockSample f ch (extractedPixel s.srcCfg px k) := by
    obtain rfl | rfl : ch = 0 ∨ ch = 1 := by omega
    all_goals rfl
  have hbyte : ∀ i < 2, memRead m (0x100 + 32 * ch + 8 * (k / 4) + 2 * (k % 4) + i) = (bytesBE16 (sample ch k))[i]? := by
    intro i hi
    rw [show 0x100 + 32 * ch + 8 * (k / 4) + 2 * (k % 4) + i = 0x100 + (32 * ch + (2 * k + i)) by omega,
      hmem _ (by omega), blockContents_sample_getElem? hc _ _ hch hk hi, hsample]
  rw [bytesBE16_eq] at hbyte
  have hle (c : Nat) (h4 : c < 4) := normalChannel_le (hdepth k hk c h4) (px k 3)
  refine ⟨?_, hbyte 0 (by decide), hbyte 1 (by decide)⟩
  rw [hsample]
  exact blockSample_le f ch (hle 0 (by decide)) (hle 1 (by decide)) (hle 2 (by decide))

/-! ## The first bad answer (R150, spec/20_memory.md R66) -/

/-- EXTRACT's reads from raster pixel `j` on. -/
theorem extractReads_split {j : Nat} (hj : j < 16) :
    ∃ more, extractReads s = (List.range j).map (fun k => (k, readCoord s k)) ++ (j, readCoord s j) :: more := by
  obtain ⟨n, hn⟩ : ∃ n, 16 = j + (n + 1) := ⟨15 - j, by omega⟩
  rw [extractReads, raster_eq, hn, List.range_add, List.range_succ_eq_map]
  exact ⟨(List.range n).map fun i => (j + (i + 1), readCoord s (j + (i + 1))), by simp [Function.comp_def]⟩

/-- The answers before the first bad one do not matter for how EXTRACT ends. -/
theorem exec_extract_bad {j : Nat} {bad : SrcAnswer} (hf : formatOfCode s.format = some f)
    (hr : extractRefused s = false) (hj : j < 16) (hpx : AnswersInDepth s.srcCfg px j)
    (hport : s.srcPort = (List.range j).map (pixelAnswer px) ++ bad :: rest) :
    ∃ more, exec .extract s = finishExtract s f
      (((List.range j).map (extractedPixel s.srcCfg px)).foldr consPixel
        (readPixels s.portEra (srcDepth s.srcCfg) (srcPremul s.srcCfg) ((j, readCoord s j) :: more) (bad :: rest))) := by
  obtain ⟨more, hreads⟩ := extractReads_split (s := s) hj
  refine ⟨more, ?_⟩
  rw [exec_extract_of_checks hf hr, hreads, hport,
    readPixels_append _ fun k hk => hpx k (List.mem_range.mp hk)]

theorem inDepth_iff {depth r g b a : Nat} :
    inDepth depth r g b a = true ↔
      r ≤ depthMax depth ∧ g ≤ depthMax depth ∧ b ≤ depthMax depth ∧ a ≤ depthMax depth := by
  simp [inDepth, and_assoc]

/-- Settles O32: the reads before the first bad answer give pixels, and it decides the end. -/
theorem extractReadFailure : Obligations.ExtractReadFailure := by
  intro s f j px bad rest hf hr hj hpx hport
  obtain ⟨more, hexec⟩ := exec_extract_bad hf hr hj (answersInDepth_iff.mpr hpx) hport
  refine ⟨?_, ?_⟩
  · rintro rfl
    refine ⟨memForget s.mem 0x100 64, ?_, fun a ha => ?_, sameOutside_memForget _ _ _⟩
    · rw [hexec]
      simp only [readPixels, nextAnswer, foldr_consPixel_failed]
      rfl
    · rw [memRead_memForget, if_pos ha]
  · rintro r g b a rfl hout
    rw [← inDepth_iff, Bool.not_eq_true] at hout
    rw [hexec]
    simp only [readPixels, nextAnswer, hout, Bool.false_eq_true, if_false, foldr_consPixel_outOfRange]
    rfl

end Sys2Proof.Machine
end

section
/-! PROOFS: the pixels of a colour codeword, mode by mode (spec/41_decoder.md R164 to R169, R174). -/

namespace Sys2Proof.Machine

/-! ## Bits of the codeword -/

/-- The number at `n + 1` bits from `lo` on, as the statements write it, is a field. -/
theorem extract_toNat_eq_field (w : DWord) (lo n : Nat) : (w.extractLsb' lo (n + 1)).toNat = field w (lo + n) lo := by
  rw [field_eq_extract, show lo + n + 1 - lo = n + 1 by omega]

theorem etcIndex_eq_bits (w : DWord) (x y : Nat) :
    etcIndex w x y = 2 * (w.getLsbD (4 * x + y + 16)).toNat + (w.getLsbD (4 * x + y)).toNat := by
  simp only [etcIndex, indexShift, field_bit]

theorem etcIndex_lt (w : DWord) (x y : Nat) : etcIndex w x y < 4 := by
  rw [etcIndex_eq_bits]
  have := Bool.toNat_lt (w.getLsbD (4 * x + y + 16))
  have := Bool.toNat_lt (w.getLsbD (4 * x + y))
  omega

/-- Pixel `(x, y)` lies in the second half: the lower one where the flip bit is 1, else the right one (R167). -/
abbrev SecondHalf (w : DWord) (x y : Nat) : Prop := if w.getLsbD 32 = true then 2 ≤ y else 2 ≤ x

theorem halfOf_flipBit (w : DWord) (x y : Nat) : halfOf (flipBit w) x y = if SecondHalf w x y then 1 else 0 := by
  unfold halfOf flipBit SecondHalf
  rw [field_bit]
  cases w.getLsbD 32 <;> simp

/-! ## Colours in 8 bits -/

/-- A channel with a modifier added, clamped to 8 bits (R8, R167). -/
def moved (m : Int) (n : Nat) : Nat := (clampInt ((n : Int) + m) 0 255).toNat

/-- A modifier is added without wrapping: the sum lies where `clamp8` clamps (R163). -/
theorem addModifier_eq_map_moved {c : Rgb} {m : Int} (hc : Below c 256 256 256) (h1 : -256 ≤ m) (h2 : m ≤ 256) :
    addModifier c m = c.map (moved m) := by
  obtain ⟨hr, hg, hb⟩ := hc
  have hput {n : Nat} (hn : n < 256) : clamp8 ((n : Int) + m) = moved m n := clamp8_eq_clampInt (by omega) (by omega)
  simp only [addModifier, Triple.map, hput hr, hput hg, hput hb]

theorem below_addModifier (c : Rgb) (m : Int) : Below (addModifier c m) 256 256 256 :=
  ⟨Nat.lt_succ_of_le (clamp8_le _), Nat.lt_succ_of_le (clamp8_le _), Nat.lt_succ_of_le (clamp8_le _)⟩

theorem addModifier_zero {c : Rgb} (hc : Below c 256 256 256) : addModifier c 0 = c := by
  rw [addModifier_eq_map_moved hc (by decide) (by decide)]
  obtain ⟨hr, hg, hb⟩ := hc
  have hput {n : Nat} (hn : n < 256) : moved 0 n = n := by
    unfold moved clampInt
    omega
  simp only [Triple.map, hput hr, hput hg, hput hb]

/-! ## Individual and Differential (R164, R167) -/

theorem below_individualBase (w : DWord) (half : Nat) : Below (individualBase w half) 256 256 256 := by
  have hext (hi lo : Nat) (h : hi + 1 - lo = 4) : ext4 (field w hi lo) < 256 := by
    have hlt := field_lt w hi lo
    rw [h] at hlt
    rw [ext4_eq hlt]
    omega
  unfold individualBase
  split <;> exact ⟨hext _ _ rfl, hext _ _ rfl, hext _ _ rfl⟩

/-- Differential is selected only where none of the three sums overflows (R98). -/
theorem not_sumOverflows_of_differential {w : DWord} (h : selectMode w true = .differential) :
    ¬SumOverflows w 56 ∧ ¬SumOverflows w 48 ∧ ¬SumOverflows w 40 := by
  rw [selectMode_of_diffSet (.inl rfl)] at h
  split_ifs at h with hr hg hb
  exact ⟨hr, hg, hb⟩

theorem below_differentialBase {w : DWord} (h : selectMode w true = .differential) {half : Nat} (hh : half < 2) :
    Below (differentialBase w half) 256 256 256 := by
  have hext {n : Nat} (hn : n < 32) : ext5 n < 256 := Nat.lt_succ_of_le (ext5_le hn)
  obtain rfl | rfl : half = 0 ∨ half = 1 := by omega
  · exact ⟨hext (field_lt w 63 59), hext (field_lt w 55 51), hext (field_lt w 47 43)⟩
  · obtain ⟨hr, hg, hb⟩ := not_sumOverflows_of_differential h
    have hsum {lo : Nat} (h : ¬SumOverflows w lo) : ext5 (colourSum w lo).toNat < 256 := hext (by omega)
    exact ⟨hsum hr, hsum hg, hsum hb⟩

/-- A pixel of two halves whose opaque bit is 1: base plus modifier, clamped. -/
theorem decodeHalves_opaque (w : DWord) {base : Nat → Rgb} {x y : Nat}
    (hb : Below (base (halfOf (flipBit w) x y)) 256 256 256) :
    decodeHalves w base false x y = opaquePixel ((base (halfOf (flipBit w) x y)).map
      (moved (modEtc (halfTable w (halfOf (flipBit w) x y)) (unscramble (etcIndex w x y))))) := by
  obtain ⟨h1, h2⟩ := modEtc_bounds (halfTable w (halfOf (flipBit w) x y)) (unscramble (etcIndex w x y))
  rw [← addModifier_eq_map_moved hb (by omega) (by omega)]
  rfl

/-- Settles O36: no sum wraps, since the bases fit in 8 bits, the Differential ones because the mode was selected. -/
theorem halvesPixelRule : Obligations.HalvesPixelRule := by
  intro w x y _ _ at' second table v row m put individual differential
  have hat (lo n : Nat) : at' lo (n + 1) = field w (lo + n) lo := extract_toNat_eq_field w lo n
  have hhalf : halfOf (flipBit w) x y = if second then 1 else 0 := halfOf_flipBit w x y
  have hm : modEtc (halfTable w (halfOf (flipBit w) x y)) (unscramble (etcIndex w x y)) = m := by
    rw [etcIndex_eq_bits, hhalf]
    simp only [m, row, table, hat]
    by_cases h : second <;> simp only [h, if_true, if_false] <;> rfl
  refine ⟨?individual, fun hmode => ?differential⟩
  case individual =>
    rw [decodePixel, decodeHalves_opaque w (below_individualBase w _), hm, hhalf]
    simp only [individual, hat]
    by_cases h : second <;> simp only [h, if_true, if_false] <;> rfl
  case differential =>
    have hlt : halfOf (flipBit w) x y < 2 := by rw [hhalf]; split <;> decide
    have hdiff (lo : Nat) : differential lo =
        if second then ext5 (colourSum w lo).toNat else ext5 (field w (lo + 3 + 4) (lo + 3)) := by
      rw [colourSum_eq_extract, ← hat]
    rw [decodePixel, decodeHalves_opaque w (below_differentialBase hmode hlt), hm, hhalf]
    simp only [hdiff]
    by_cases h : second <;> simp only [h, if_true, if_false] <;> rfl

/-! ## T and H (R165, R168) -/

/-- A 4-bit colour, expanded, moved by a distance and clamped. -/
def movedColour (c : Rgb) (d : Int) : Rgb := c.map fun n => moved d (17 * n)

theorem below_map_ext4 {c : Rgb} (hc : Below c 16 16 16) : Below (c.map ext4) 256 256 256 := by
  have hext {n : Nat} (hn : n < 16) : ext4 n < 256 := by rw [ext4_eq hn]; omega
  obtain ⟨hr, hg, hb⟩ := hc
  exact ⟨hext hr, hext hg, hext hb⟩

theorem addModifier_map_ext4 {c : Rgb} {d : Int} (hc : Below c 16 16 16) (h1 : -256 ≤ d) (h2 : d ≤ 256) :
    addModifier (c.map ext4) d = movedColour c d := by
  rw [addModifier_eq_map_moved (below_map_ext4 hc) h1 h2]
  obtain ⟨hr, hg, hb⟩ := hc
  simp only [Triple.map, movedColour, ext4_eq hr, ext4_eq hg, ext4_eq hb]

theorem map_ext4_eq_movedColour {c : Rgb} (hc : Below c 16 16 16) : c.map ext4 = movedColour c 0 := by
  rw [← addModifier_map_ext4 hc (by decide) (by decide), addModifier_zero (below_map_ext4 hc)]

theorem below_tColours (w : DWord) : Below (tColours w).1 16 16 16 ∧ Below (tColours w).2 16 16 16 := by
  have h1 := field_lt w 60 59
  have h0 := field_lt w 57 56
  exact ⟨⟨by simp only [tColours]; omega, field_lt w 55 52, field_lt w 51 48⟩,
    field_lt w 47 44, field_lt w 43 40, field_lt w 39 36⟩

theorem below_hColours (w : DWord) : Below (hColours w).1 16 16 16 ∧ Below (hColours w).2 16 16 16 := by
  have hg1 := field_lt w 58 56
  have hg0 := field_lt w 52 52
  have hb1 := field_lt w 51 51
  have hb0 := field_lt w 49 47
  exact ⟨⟨field_lt w 62 59, by simp only [hColours]; omega, by simp only [hColours]; omega⟩,
    field_lt w 46 43, field_lt w 42 39, field_lt w 38 35⟩

theorem tPalette_getElem {p c : Rgb} {d v : Nat} (hp : Below p 16 16 16) (hc : Below c 16 16 16) (hd : d ≤ 64)
    (hv : v < 4) :
    some (tPalette p c d v) = [movedColour p 0, movedColour c d, movedColour c 0, movedColour c (-d)][v]? := by
  rw [← map_ext4_eq_movedColour hp, ← map_ext4_eq_movedColour hc,
    ← addModifier_map_ext4 hc (by omega) (by omega), ← addModifier_map_ext4 hc (by omega) (by omega)]
  interval_cases v <;> rfl

theorem hPalette_getElem {c0 c1 : Rgb} {d v : Nat} (h0 : Below c0 16 16 16) (h1 : Below c1 16 16 16) (hd : d ≤ 64)
    (hv : v < 4) :
    some (hPalette c0 c1 d v) = [movedColour c0 d, movedColour c0 (-d), movedColour c1 d, movedColour c1 (-d)][v]? := by
  simp (disch := omega) only [← addModifier_map_ext4 h0, ← addModifier_map_ext4 h1]
  interval_cases v <;> rfl

theorem thDist_cast (di : Nat) : (thDist di : Int) = ([3, 6, 11, 16, 23, 32, 41, 64] : List Int).getD di 0 :=
  (List.getD_map (f := Nat.cast) (l := thDistTable) (d := 0) (n := di)).symm

theorem decodePalette_opaque (w : DWord) (pal : Nat → Rgb) (x y : Nat) :
    decodePalette w pal false x y = opaquePixel (pal (etcIndex w x y)) := rfl

/-- Settles O37: the colours have 4 bits and the distance is at most 64, so no sum wraps. -/
theorem palettePixelRule : Obligations.PalettePixelRule := by
  intro w x y _ _ at' v moved' paint centre td c0 c1 order hd
  have hat (lo n : Nat) : at' lo (n + 1) = field w (lo + n) lo := extract_toNat_eq_field w lo n
  have hv : etcIndex w x y = v := etcIndex_eq_bits w x y
  refine ⟨?t, ?h⟩
  case t =>
    have hpaint : (tColours w).1 = paint := by simp only [paint, hat]; rfl
    have hcentre : (tColours w).2 = centre := by simp only [centre, hat]; rfl
    have hdist : (thDist (tDistance w) : Int) = td := by rw [thDist_cast]; simp only [td, hat]; rfl
    obtain ⟨hp, hc⟩ := below_tColours w
    have hpal := tPalette_getElem hp hc (thDist_le (tDistance w)) (etcIndex_lt w x y)
    rw [List.getElem?_map, ← hdist, ← hpaint, ← hcentre, ← hv]
    exact congrArg (Option.map opaquePixel) hpal
  case h =>
    have hc0 : (hColours w).1 = c0 := by simp only [c0, hat]; rfl
    have hc1 : (hColours w).2 = c1 := by simp only [c1, hat]; rfl
    have hdist : (thDist (hDistance w) : Int) = hd := by
      rw [thDist_cast, hDistance, hc0, hc1]
      simp only [hd, hat]
      rfl
    obtain ⟨h0, h1⟩ := below_hColours w
    have hpal := hPalette_getElem h0 h1 (thDist_le (hDistance w)) (etcIndex_lt w x y)
    rw [List.getElem?_map, ← hdist, ← hc0, ← hc1, ← hv]
    exact congrArg (Option.map opaquePixel) hpal

/-! ## Planar (R169) -/

theorem below_planarQuantised (w : DWord) : Below (planarQuantised w).o 64 128 64 ∧
    Below (planarQuantised w).h 64 128 64 ∧ Below (planarQuantised w).v 64 128 64 := by
  have h0 := field_lt w 56 56
  have h1 := field_lt w 54 49
  have h2 := field_lt w 48 48
  have h3 := field_lt w 44 43
  have h4 := field_lt w 41 39
  have h5 := field_lt w 38 34
  have h6 := field_lt w 32 32
  refine ⟨⟨field_lt w 62 57, ?_, ?_⟩, ⟨?_, field_lt w 31 25, field_lt w 24 19⟩,
    field_lt w 18 13, field_lt w 12 6, field_lt w 5 0⟩
  all_goals simp only [planarQuantised]; omega

theorem planarExpand_eq {c : Rgb} (hc : Below c 64 128 64) :
    planarExpand c = ⟨4 * c.r + c.r / 16, 2 * c.g + c.g / 64, 4 * c.b + c.b / 16⟩ := by
  obtain ⟨hr, hg, hb⟩ := hc
  rw [planarExpand, ext6_eq hr, ext7_eq hg, ext6_eq hb]

theorem below_planarExpand {c : Rgb} (hc : Below c 64 128 64) : Below (planarExpand c) 256 256 256 := by
  rw [planarExpand_eq hc]
  obtain ⟨hr, hg, hb⟩ := hc
  refine ⟨?_, ?_, ?_⟩
  all_goals dsimp only; omega

/-- A coordinate from 0 to 3 times a difference of two channels. -/
theorem coord_mul_bounds {n a b : Nat} (hn : n < 4) (ha : a < 256) (hb : b < 256) :
    -(3 * b : Int) ≤ (n : Int) * ((a : Int) - b) ∧ (n : Int) * ((a : Int) - b) ≤ 3 * (255 - b) := by
  interval_cases n <;> omega

/-- The interpolation lies where `clamp8` clamps (R163, R169). -/
theorem planarChannel_eq {o h v x y : Nat} (hx : x < 4) (hy : y < 4) (ho : o < 256) (hh : h < 256) (hv : v < 256) :
    planarChannel o h v x y =
      (clampInt (((x : Int) * ((h : Int) - o) + (y : Int) * ((v : Int) - o) + 4 * o + 2) / 4) 0 255).toNat := by
  obtain ⟨hx1, hx2⟩ := coord_mul_bounds hx hh ho
  obtain ⟨hy1, hy2⟩ := coord_mul_bounds hy hv ho
  exact clamp8_eq_clampInt (by omega) (by omega)

/-- Settles O38: the expanded colours fit in 8 bits, so no interpolation wraps. -/
theorem planarPixelRule : Obligations.PlanarPixelRule := by
  intro w punch x y hx hy at' wide6 wide7 value
  have hat (lo n : Nat) : at' lo (n + 1) = field w (lo + n) lo := extract_toNat_eq_field w lo n
  obtain ⟨ho, hh, hv⟩ := below_planarQuantised w
  obtain ⟨hor, hog, hob⟩ := below_planarExpand ho
  obtain ⟨hhr, hhg, hhb⟩ := below_planarExpand hh
  obtain ⟨hvr, hvg, hvb⟩ := below_planarExpand hv
  rw [decodePixel, decodePlanar, planarChannel_eq hx hy hor hhr hvr, planarChannel_eq hx hy hog hhg hvg,
    planarChannel_eq hx hy hob hhb hvb, planarExpand_eq ho, planarExpand_eq hh, planarExpand_eq hv]
  simp only [hat]
  rfl

/-! ## Punch-through (R174; spec/30_encoding.md R106) -/

/-- Index 2 of a punch-through block is the transparent pixel in the modes that have indices. -/
theorem decodePixel_punch_transparent {w : DWord} {x y : Nat} (hv : etcIndex w x y = 2) {m : Mode}
    (hm : m ∈ [Mode.differential, .t, .h]) : decodePixel w m true x y = transparentPixel := by
  simp only [List.mem_cons, List.not_mem_nil, or_false] at hm
  obtain rfl | rfl | rfl := hm <;> simp [decodePixel, decodeHalves, decodePalette, hv]

/-- Index 0 of a punch-through block has no modifier. -/
theorem decodeHalves_punch_base {w : DWord} {base : Nat → Rgb} {x y : Nat} (hv : etcIndex w x y = 0)
    (hb : Below (base (halfOf (flipBit w) x y)) 256 256 256) :
    decodeHalves w base true x y = opaquePixel (base (halfOf (flipBit w) x y)) := by
  simp [decodeHalves, indexModifier, hv, addModifier_zero hb]

/-- The other indices do not see the opaque bit. -/
theorem decodeHalves_punch_other {w : DWord} (base : Nat → Rgb) {x y : Nat} (h0 : etcIndex w x y ≠ 0)
    (h2 : etcIndex w x y ≠ 2) : decodeHalves w base true x y = decodeHalves w base false x y := by
  simp [decodeHalves, indexModifier, h0, h2]

theorem decodePalette_punch_other {w : DWord} (pal : Nat → Rgb) {x y : Nat} (h2 : etcIndex w x y ≠ 2) :
    decodePalette w pal true x y = decodePalette w pal false x y := by
  simp [decodePalette, h2]

/-- Settles O39: the opaque bit is seen by index 2, and by index 0 of a pixel of two halves. -/
theorem punchThroughRule : Obligations.PunchThroughRule := by
  intro w x y _ _ v second
  have hv : etcIndex w x y = v := etcIndex_eq_bits w x y
  have hhalf : halfOf (flipBit w) x y = if second then 1 else 0 := halfOf_flipBit w x y
  refine ⟨fun h2 m hm => decodePixel_punch_transparent (hv.trans h2) hm, fun h0 hmode => ?base,
    fun h13 => decodeHalves_punch_other _ (by omega) (by omega), fun h2 m hm => ?palette, rfl⟩
  case base =>
    have hlt : halfOf (flipBit w) x y < 2 := by rw [hhalf]; split <;> decide
    rw [decodePixel, decodeHalves_punch_base (hv.trans h0) (below_differentialBase hmode hlt), hhalf]
    rfl
  case palette =>
    simp only [List.mem_cons, List.not_mem_nil, or_false] at hm
    obtain rfl | rfl := hm <;> exact decodePalette_punch_other _ (by omega)

end Sys2Proof.Machine
end

section
/-! PROOFS: the reconstruction values of EAC codewords (spec/41_decoder.md R166, R170 to R173). -/

namespace Sys2Proof.Machine

theorem raster_map_getElem? {α : Type} (g : Nat → α) {k : Nat} (hk : k < 16) : (raster.map g)[k]? = some (g k) := by
  simp [raster, hk]

/-- A product of a modifier and a multiplier. -/
theorem eacMod_mul_bounds (t i : Nat) {mult : Nat} (h : mult < 16) :
    -225 ≤ eacMod t i * (mult : Int) ∧ eacMod t i * (mult : Int) ≤ 210 := by
  obtain ⟨h1, h2⟩ := eacMod_bounds t i
  interval_cases mult <;> omega

/-- An 8-bit value lies where `clamp8` clamps (R163, R171). -/
theorem eac8Value_eq {base mult : Nat} (hb : base < 256) (hm : mult < 16) (t i : Nat) :
    eac8Value base mult t i = (clampInt ((base : Int) + eacMod t i * (mult : Int)) 0 255).toNat := by
  obtain ⟨h1, h2⟩ := eacMod_mul_bounds t i hm
  exact clamp8_eq_clampInt (by omega) (by omega)

/-- The signed base of a codeword's byte (spec/30_encoding.md R113). -/
theorem signedBase_toNat (v : BitVec 8) : signedBase v.toNat = if v.toNat = 128 then -127 else v.toInt := by
  have hlt := v.isLt
  rw [signedBase, BitVec.toInt_eq_toNat_cond]
  split_ifs <;> omega

theorem toNat_clampInt_lt (v : Int) : (clampInt v 0 2047).toNat < 2048 := by
  obtain ⟨h1, h2⟩ := clampInt_bounds v (lo := 0) (hi := 2047) (by decide)
  omega

theorem natAbs_clampInt_lt (v : Int) : (clampInt v (-1023) 1023).natAbs < 1024 := by
  obtain ⟨h1, h2⟩ := clampInt_bounds v (lo := -1023) (hi := 1023) (by decide)
  omega

/-- Settles O40: the 8-bit sum does not wrap, and the clamped 11-bit values are in the range that widening keeps. -/
theorem eacValueRules : Obligations.EacValueRules := by
  intro w k hk at' base mult row m step signedByte u v magnitude
  have hat (lo n : Nat) : at' lo (n + 1) = field w (lo + n) lo := extract_toNat_eq_field w lo n
  have hbase : field w 63 56 = base := (hat 56 7).symm
  have hmult : field w 55 52 = mult := (hat 52 3).symm
  have hm : eacMod (field w 51 48) (eacIndex w (pixelX k) (pixelY k)) = m := by
    rw [eacIndex_eq_extract, ← hat 48 3]
    rfl
  have hstep : eac11Step mult (field w 51 48) (eacIndex w (pixelX k) (pixelY k)) = step := by
    rw [eac11Step, hm]
  have hsigned : signedBase base = signedByte := signedBase_toNat (w.extractLsb' 56 8)
  have hu : u < 2048 := toNat_clampInt_lt _
  have hv : v.natAbs < 1024 := natAbs_clampInt_lt _
  refine ⟨?alpha, ?unsigned, by omega, ?signed, by omega⟩
  case alpha =>
    rw [decodeEac8, raster_map_getElem? _ hk, eac8Value_eq (field_lt w 63 56) (field_lt w 55 52), hbase, hmult, hm]
  case unsigned =>
    have hvalue : eac11Unsigned params base mult (field w 51 48) (eacIndex w (pixelX k) (pixelY k)) =
        ext11Unsigned u := by
      rw [eac11Unsigned, hstep]
      rfl
    rw [decodeEac11, raster_map_getElem? _ hk, hbase, hmult, ← ext11Unsigned_eq hu]
    exact congrArg some hvalue
  case signed =>
    have hvalue : eac11Signed params base mult (field w 51 48) (eacIndex w (pixelX k) (pixelY k)) = ext11Signed v := by
      rw [eac11Signed, hstep, hsigned]
      rfl
    rw [decodeEac11, raster_map_getElem? _ hk, hbase, hmult, ← ext11Signed_eq hv]
    exact congrArg some hvalue

end Sys2Proof.Machine
end

section
/-! PROOFS: what DECODE leaves in DEC, MODE and LVALID (spec/41_decoder.md R161, R162, R176). -/

namespace Sys2Proof.Machine

variable {s : State} {f : Format}

/-! ## Pixels fit in bytes (R162) -/

theorem below_transparentPixel : Below transparentPixel.rgb 256 256 256 := ⟨by decide, by decide, by decide⟩

theorem below_decodeHalves (w : DWord) (base : Nat → Rgb) (punch : Bool) (x y : Nat) :
    Below (decodeHalves w base punch x y).rgb 256 256 256 := by
  unfold decodeHalves
  dsimp only
  split
  · exact below_transparentPixel
  · exact below_addModifier _ _

theorem below_decodePalette (w : DWord) {pal : Nat → Rgb} (h : ∀ v, Below (pal v) 256 256 256) (punch : Bool)
    (x y : Nat) : Below (decodePalette w pal punch x y).rgb 256 256 256 := by
  unfold decodePalette
  dsimp only
  split
  · exact below_transparentPixel
  · exact h _

theorem below_tPalette {p c : Rgb} (hp : Below p 16 16 16) (hc : Below c 16 16 16) (d v : Nat) :
    Below (tPalette p c d v) 256 256 256 := by
  unfold tPalette
  split
  · exact below_map_ext4 hp
  · exact below_addModifier _ _
  · exact below_map_ext4 hc
  · exact below_addModifier _ _

theorem below_hPalette (c0 c1 : Rgb) (d v : Nat) : Below (hPalette c0 c1 d v) 256 256 256 := by
  unfold hPalette
  split <;> exact below_addModifier _ _

theorem below_decodePlanar (w : DWord) (x y : Nat) : Below (decodePlanar w x y).rgb 256 256 256 :=
  ⟨Nat.lt_succ_of_le (clamp8_le _), Nat.lt_succ_of_le (clamp8_le _), Nat.lt_succ_of_le (clamp8_le _)⟩

/-- A pixel's colour has 8 bits a channel, in every mode. -/
theorem below_decodePixel (w : DWord) (m : Mode) (punch : Bool) (x y : Nat) :
    Below (decodePixel w m punch x y).rgb 256 256 256 := by
  obtain ⟨hp, hc⟩ := below_tColours w
  cases m with
  | individual => exact below_decodeHalves _ _ _ _ _
  | differential => exact below_decodeHalves _ _ _ _ _
  | t => exact below_decodePalette w (below_tPalette hp hc _) _ _ _
  | h => exact below_decodePalette w (below_hPalette _ _ _) _ _ _
  | planar => exact below_decodePlanar w x y
  | none => exact below_transparentPixel
  | eac => exact below_transparentPixel

/-- A pixel of a colour codeword is opaque or transparent. -/
theorem decodePixel_a_le (w : DWord) (m : Mode) (punch : Bool) (x y : Nat) : (decodePixel w m punch x y).a ≤ 255 := by
  have hite (b : Bool) (c : Rgb) : (if b then transparentPixel else opaquePixel c).a ≤ 255 := by
    cases b
    · exact le_rfl
    · exact Nat.zero_le 255
  cases m with
  | individual => exact hite _ _
  | differential => exact hite _ _
  | t => exact hite _ _
  | h => exact hite _ _
  | planar => exact le_rfl
  | none => exact Nat.zero_le 255
  | eac => exact Nat.zero_le 255

theorem decodeEac8_getD_le (w : DWord) (k : Nat) : (decodeEac8 w).getD k 0 ≤ 255 :=
  getD_all (· ≤ 255) _ 0 (by simp [decodeEac8, eac8Value, clamp8_le]) (by decide) k

/-! ## DECODE's end (R161) -/

/-- What DECODE leaves is 64 bytes of DEC, MODE and LVALID. -/
theorem decodedState_spec (s : State) (m : Mode) {bytes : List Byte} (hl : bytes.length = 64) :
    ∃ mem, decodedState s bytes m = { ended s with lvalid := false, mode := m, mem := mem } ∧
      (∀ i < 64, memRead mem (windowBase .dec + i) = bytes[i]?) ∧ SameOutside s.mem mem 0x140 64 :=
  ⟨(writeWindow s .dec 0 bytes).mem, rfl, fun i hi => memRead_writeWindow s .dec 0 bytes i (hl ▸ hi),
    hl ▸ sameOutside_writeWindow s .dec 0 bytes⟩

/-! ## Colour formats (R161, R162) -/

/-- Pixel `k` of a block in a colour format: in A8 formats with the alpha of the first codeword (R161). -/
def decodedPixel (f : Format) (w a : DWord) (k : Nat) : Rgba :=
  let q := decodePixel w (colourMode w f) (isPunch w f) (pixelX k) (pixelY k)
  ⟨q.rgb, if isA8 f then (decodeEac8 a).getD k 0 else q.a⟩

theorem withAlpha_raster_map (g : Nat → Rgba) (a : Nat → Nat) :
    withAlpha (raster.map g) (raster.map a) = raster.map fun k => ⟨(g k).rgb, a k⟩ := by
  simp [withAlpha, List.zipWith_map]

theorem isPunch_eq_bit (w : DWord) (f : Format) : isPunch w f = (isA1 f && !w.getLsbD 33) := by
  unfold isPunch
  rw [field_bit]
  cases w.getLsbD 33 <;> rfl

theorem decodeColour_of_not_a8 (ha8 : isA8 f = false) (w a : DWord) :
    decodeColour w f = raster.map (decodedPixel f w a) := by
  simp [decodeColour, decodedPixel, ha8]

theorem withAlpha_decodeColour_of_a8 (ha8 : isA8 f = true) (w a : DWord) :
    withAlpha (decodeColour w f) (decodeEac8 a) = raster.map (decodedPixel f w a) := by
  have halpha : decodeEac8 a = raster.map fun k => (decodeEac8 a).getD k 0 := rfl
  rw [halpha, decodeColour, withAlpha_raster_map]
  simp [decodedPixel, ha8]

theorem exec_decode_colour {w a : DWord} (hf : formatOfCode s.format = some f) (hc : isColour f = true)
    (hw : HoldsCodeword s.mem (if isA8 f then 8 else 0) w) (ha : isA8 f = true → HoldsCodeword s.mem 0 a) :
    exec .decode s =
      .next (decodedState s (colourBytes (raster.map (decodedPixel f w a))) (selectMode w (isA1 f))) := by
  have hexec : exec .decode s = decodeBlock params s f := withFormat_some _ hf
  rw [hexec, decodeBlock]
  cases hclass : formatClass f
  case r11 => simp [isColour, hclass] at hc
  case rg11 => simp [isColour, hclass] at hc
  case a8 =>
    have ha8 : isA8 f = true := by simp [isA8, hclass]
    rw [if_pos ha8] at hw
    rw [readCodeword_eq_ok _ _ _ hw, readCodeword_eq_ok _ _ _ (ha ha8), ← withAlpha_decodeColour_of_a8 ha8]
    rfl
  all_goals
    have ha8 : isA8 f = false := by simp [isA8, hclass]
    rw [ha8, if_neg Bool.false_ne_true] at hw
    rw [readCodeword_eq_ok _ _ _ hw, ← decodeColour_of_not_a8 ha8]
    rfl

/-- Settles O33: byte `4·k + c` of DEC is channel `c` of pixel `k`. -/
theorem decodeColourResult : Obligations.DecodeColourResult := by
  intro s f w a hf hc hw ha mode pixel alpha
  obtain ⟨m, hstate, hmem, hframe⟩ := decodedState_spec s (selectMode w (isA1 f))
    (bytes := colourBytes (raster.map (decodedPixel f w a))) (by simp [raster])
  refine ⟨m, by rw [exec_decode_colour hf hc hw ha, hstate], fun k hk => ?_, hframe⟩
  have hpixel : decodedPixel f w a k = ⟨(pixel k).rgb, alpha k⟩ := by
    rw [decodedPixel, isPunch_eq_bit]
    rfl
  have hbyte : ∀ c < 4, memRead m (pixelByte .dec k c) =
      [BitVec.ofNat 8 (pixel k).rgb.r, BitVec.ofNat 8 (pixel k).rgb.g, BitVec.ofNat 8 (pixel k).rgb.b,
        BitVec.ofNat 8 (alpha k)][c]? := by
    intro c hc4
    rw [show pixelByte .dec k c = windowBase .dec + (4 * k + c) by simp only [pixelByte]; omega, hmem _ (by omega),
      colourBytes, getElem?_flatMap_const _ _ 4 (fun _ => rfl) k c hc4, raster_map_getElem? _ hk, hpixel,
      Option.bind_some]
  obtain ⟨hr, hg, hb⟩ : Below (pixel k).rgb 256 256 256 := below_decodePixel _ _ _ _ _
  have halpha : alpha k ≤ 255 := by
    simp only [alpha]
    split
    · exact decodeEac8_getD_le a k
    · exact decodePixel_a_le _ _ _ _ _
  exact ⟨by omega, by omega, by omega, halpha, hbyte 0 (by decide), hbyte 1 (by decide), hbyte 2 (by decide),
    hbyte 3 (by decide)⟩

/-! ## 11-bit formats (R161, R176) -/

/-- Sample `k` of channel `ch` of a block in an 11-bit format; R11 formats have 0 for the second channel (R161). -/
def decodedSample (f : Format) (r g : DWord) (ch k : Nat) : Int :=
  if ch = 0 then (decodeEac11 params (formatSigned f) r).getD k 0
  else if formatClass f = .rg11 then (decodeEac11 params (formatSigned f) g).getD k 0
  else 0

/-- The samples of one channel, in raster order. -/
def decodedChannel (f : Format) (r g : DWord) (ch : Nat) : List Int := raster.map (decodedSample f r g ch)

theorem decodedChannel_first (f : Format) (r g : DWord) :
    decodedChannel f r g 0 = decodeEac11 params (formatSigned f) r := rfl

theorem decodedChannel_second_rg11 (h : formatClass f = .rg11) (r g : DWord) :
    decodedChannel f r g 1 = decodeEac11 params (formatSigned f) g := by
  have hsample : decodedSample f r g 1 = fun k => (decodeEac11 params (formatSigned f) g).getD k 0 := by
    funext k
    simp [decodedSample, h]
  rw [decodedChannel, hsample]
  rfl

theorem sampleBytes_second_r11 (h : formatClass f = .r11) (r g : DWord) :
    sampleBytes (decodedChannel f r g 1) = List.replicate 32 0 := by
  have hsample : decodedSample f r g 1 = fun _ => 0 := by
    funext k
    simp [decodedSample, h]
  rw [decodedChannel, hsample]
  rfl

theorem exec_decode_samples {r g : DWord} (hf : formatOfCode s.format = some f) (hc : isColour f = false)
    (hr : HoldsCodeword s.mem 0 r) (hg : formatClass f = .rg11 → HoldsCodeword s.mem 8 g) :
    exec .decode s = .next (decodedState s
      (sampleBytes (decodedChannel f r g 0) ++ sampleBytes (decodedChannel f r g 1)) .eac) := by
  have hexec : exec .decode s = decodeBlock params s f := withFormat_some _ hf
  rw [hexec, decodeBlock, decodedChannel_first]
  cases hclass : formatClass f <;> simp [isColour, hclass] at hc
  case r11 =>
    rw [readCodeword_eq_ok _ _ _ hr, sampleBytes_second_r11 hclass]
    rfl
  case rg11 =>
    rw [readCodeword_eq_ok _ _ _ hr, readCodeword_eq_ok _ _ _ (hg hclass), decodedChannel_second_rg11 hclass]
    rfl

/-- Byte `32·ch + 2·k + i` of DEC is byte `i` of sample `k` of channel `ch`, modulo 2^16 (R176). -/
theorem sampleBytes_getElem? (f : Format) (r g : DWord) {ch k i : Nat} (hch : ch < 2) (hk : k < 16) (hi : i < 2) :
    (sampleBytes (decodedChannel f r g 0) ++ sampleBytes (decodedChannel f r g 1))[32 * ch + (2 * k + i)]? =
      (bytesBE16 (decodedSample f r g ch k % 65536).toNat)[i]? := by
  have hlen : (sampleBytes (decodedChannel f r g 0)).length = 32 := by simp [decodedChannel, raster]
  have hone (ch : Nat) : (sampleBytes (decodedChannel f r g ch))[2 * k + i]? =
      (bytesBE16 (decodedSample f r g ch k % 65536).toNat)[i]? := by
    rw [sampleBytes, getElem?_flatMap_const _ _ 2 (fun _ => rfl) k i hi, decodedChannel, raster_map_getElem? _ hk,
      Option.bind_some]
  obtain rfl | rfl : ch = 0 ∨ ch = 1 := by omega
  · rw [List.getElem?_append_left (by omega), Nat.mul_zero, Nat.zero_add, hone]
  · rw [List.getElem?_append_right (by omega), hlen, Nat.mul_one, Nat.add_sub_cancel_left, hone]

/-- Settles O34: the two bytes of a sample spell it modulo 2^16, since the remainder fits in 16 bits. -/
theorem decodeSampleResult : Obligations.DecodeSampleResult := by
  intro s f r g hf hc hr hg value
  obtain ⟨m, hstate, hmem, hframe⟩ := decodedState_spec s .eac
    (bytes := sampleBytes (decodedChannel f r g 0) ++ sampleBytes (decodedChannel f r g 1))
    (by simp [decodedChannel, raster])
  refine ⟨m, by rw [exec_decode_samples hf hc hr hg, hstate], fun ch hch k hk => ?_, hframe⟩
  have hbyte : ∀ i < 2, memRead m (sampleByte .dec ch k + i) = (bytesBE16 (value ch k % 65536).toNat)[i]? := by
    intro i hi
    rw [show sampleByte .dec ch k + i = windowBase .dec + (32 * ch + (2 * k + i)) by simp only [sampleByte]; omega,
      hmem _ (by omega), sampleBytes_getElem? f r g hch hk hi]
    rfl
  rw [bytesBE16_eq] at hbyte
  refine ⟨_, _, hbyte 0 (by decide), hbyte 1 (by decide), ?_⟩
  simp only [BitVec.toNat_ofNat]
  omega

end Sys2Proof.Machine
end

section
/-! PROOFS: the bounds of the losses, and that every step keeps LOSS and ALOSS within them (spec/42_metric.md R208). -/

namespace Sys2Proof.Machine

variable {s t u : State} {m : List Host.Cell} {win : Window} {f : Format}

/-! ## Operands fit in their bytes (spec/30_encoding.md R114, R115) -/

theorem readWith_ok {α : Type} {l : List Nat} {k : List Nat → α} {a : α} (h : readWith m l k = .ok a) :
    ∃ vs, readBytes m l = .ok vs ∧ a = k vs := by
  unfold readWith at h
  split at h
  · rename_i vs hvs
    exact ⟨vs, hvs, (Except.ok.inj h).symm⟩
  · cases h

theorem readBoth_ok {α β : Type} {x : Except Fault α} {y : Except Fault β} {a : α} {b : β}
    (h : readBoth x y = .ok (a, b)) : x = .ok a ∧ y = .ok b := by
  unfold readBoth at h
  split at h
  · cases h
  · split at h
    · cases h
    · cases h; exact ⟨rfl, rfl⟩

/-- A byte that was read, at any place of the list. -/
theorem readBytes_getD_lt {l vs : List Nat} (h : readBytes m l = .ok vs) (i : Nat) : vs.getD i 0 < 256 :=
  getD_all (· < 256) vs 0 (readBytes_ok h).2.2 (by decide) i

theorem readRgb_ok {px : List Rgb} (h : readRgb m win = .ok px) :
    px.length = 16 ∧ ∀ p ∈ px, Below p 256 256 256 := by
  obtain ⟨vs, hvs, rfl⟩ := readWith_ok h
  refine ⟨rfl, fun p hp => ?_⟩
  obtain ⟨k, -, rfl⟩ := List.mem_map.1 hp
  exact ⟨readBytes_getD_lt hvs _, readBytes_getD_lt hvs _, readBytes_getD_lt hvs _⟩

theorem readAlpha_ok {al : List Nat} (h : readAlpha m win = .ok al) : al.length = 16 ∧ ∀ a ∈ al, a < 256 := by
  obtain ⟨hlen, -, hlt⟩ := readBytes_ok h
  exact ⟨hlen, hlt⟩

theorem readSamples_ok {ch : Nat} {l : List Nat} (h : readSamples m win ch = .ok l) :
    l.length = 16 ∧ ∀ v ∈ l, v < 65536 := by
  obtain ⟨vs, hvs, rfl⟩ := readWith_ok h
  refine ⟨rfl, fun v hv => ?_⟩
  obtain ⟨k, -, rfl⟩ := List.mem_map.1 hv
  have hhi := readBytes_getD_lt hvs (2 * k)
  have hlo := readBytes_getD_lt hvs (2 * k + 1)
  omega

/-- A source block is sixteen pixels of 8-bit channels, whatever its transparency (spec/42_metric.md R204). -/
theorem readSource_ok {px : List SrcPixel} (h : readSource m f = .ok px) :
    px.length = 16 ∧ ∀ p ∈ px, Below p.rgb 256 256 256 := by
  unfold readSource at h
  split at h
  · split at h
    · cases h
    · rename_i px al hr
      obtain ⟨hrgb, hal⟩ := readBoth_ok hr
      obtain ⟨hlen, hpx⟩ := readRgb_ok hrgb
      cases h
      refine ⟨by simp [hlen, (readAlpha_ok hal).1], fun p hp => ?_⟩
      obtain ⟨c, hc, a, -, rfl⟩ := mem_zipWith hp
      exact hpx c hc
  · split at h
    · cases h
    · rename_i px hr
      obtain ⟨hlen, hpx⟩ := readRgb_ok hr
      cases h
      refine ⟨by simp [hlen], fun p hp => ?_⟩
      obtain ⟨c, hc, rfl⟩ := List.mem_map.1 hp
      exact hpx c hc

/-! ## Bounds of the metric (spec/42_metric.md R208) -/

theorem sum_zipWith_le {α β : Type} {g : α → β → Nat} {l : List α} {l' : List β} {n : Nat}
    (h : ∀ a ∈ l, ∀ b ∈ l', g a b ≤ n) : (List.zipWith g l l').sum ≤ l.length * n := by
  have hterm : ∀ v ∈ List.zipWith g l l', v ≤ n := by
    intro v hv
    obtain ⟨a, ha, b, hb, rfl⟩ := mem_zipWith hv
    exact h a ha b hb
  calc (List.zipWith g l l').sum
      ≤ (List.zipWith g l l').length * n := sum_le_mul _ _ hterm
    _ ≤ l.length * n := Nat.mul_le_mul_right n (by simp)

theorem pixelError_le_of_below {p q : Rgb} (hp : Below p 256 256 256) (hq : Below q 256 256 256) :
    pixelError p q ≤ 65025000 := by
  obtain ⟨hpr, hpg, hpb⟩ := hp
  obtain ⟨hqr, hqg, hqb⟩ := hq
  exact pixelError_le ⟨by omega, by omega, by omega⟩ ⟨by omega, by omega, by omega⟩

/-- Sixteen pixel errors; a transparent pixel adds less. -/
theorem colourLoss_le {src : List SrcPixel} {dec : List Rgb} (hlen : src.length = 16)
    (hsrc : ∀ p ∈ src, Below p.rgb 256 256 256) (hdec : ∀ q ∈ dec, Below q 256 256 256) :
    colourLoss src dec ≤ 1040400000 := by
  have h : colourLoss src dec ≤ src.length * 65025000 := by
    refine sum_zipWith_le fun p hp q hq => ?_
    split
    · exact Nat.zero_le _
    · exact pixelError_le_of_below (hsrc p hp) (hdec q hq)
  rwa [hlen] at h

theorem alphaLoss_le {src dec : List Nat} (hlen : src.length = 16) (hsrc : ∀ a ∈ src, a < 256)
    (hdec : ∀ b ∈ dec, b < 256) : alphaLoss src dec ≤ 1040400 := by
  have h : alphaLoss src dec ≤ src.length * 65025 := by
    refine sum_zipWith_le fun a ha b hb => ?_
    have := hsrc a ha
    have := hdec b hb
    exact sqDiff_le (n := 255) (by omega) (by omega)
  rwa [hlen] at h

/-! ### 11-bit samples -/

/-- The range of a 16-bit sample, its target and its reconstruction values (R205, R206; spec/41_decoder.md R170). -/
def SampleRange (signed : Bool) (v : Int) : Prop :=
  if signed then -32768 ≤ v ∧ v ≤ 32767 else 0 ≤ v ∧ v ≤ 65535

theorem sampleRange_signed (v : Int) : SampleRange true v ↔ -32768 ≤ v ∧ v ≤ 32767 := Iff.rfl

theorem sampleRange_unsigned (v : Int) : SampleRange false v ↔ 0 ≤ v ∧ v ≤ 65535 := Iff.rfl

theorem sqDiff_le_of_sampleRange {signed : Bool} {a b : Int} (ha : SampleRange signed a) (hb : SampleRange signed b) :
    sqDiff a b ≤ 4294836225 := by
  cases signed <;> simp only [sampleRange_signed, sampleRange_unsigned] at ha hb <;>
    exact sqDiff_le (n := 65535) (by omega) (by omega)

theorem sampleRange_signedMap {v : Nat} (h : v < 65536) : SampleRange true (signedMap v) := by
  rw [sampleRange_signed, signedMap]
  omega

/-- The targets of a block's samples (R205, R206). -/
theorem sampleRange_sampleTargets (signed : Bool) {l : List Nat} (h : ∀ v ∈ l, v < 65536) :
    ∀ x ∈ sampleTargets params signed l, SampleRange signed x := by
  intro x hx
  obtain ⟨v, hv, rfl⟩ := List.mem_map.1 hx
  have hlt := h v hv
  cases signed
  · exact (sampleRange_unsigned _).2 (by simp; omega)
  · exact sampleRange_signedMap hlt

theorem sampleRange_decSample (signed : Bool) {v : Nat} (h : v < 65536) : SampleRange signed (decSample signed v) := by
  cases signed
  · rw [sampleRange_unsigned]
    simp only [decSample, Bool.false_and, Bool.false_eq_true, if_false]
    omega
  · rw [sampleRange_signed]
    simp only [decSample, Bool.true_and, decide_eq_true_eq]
    split <;> omega

/-- A reconstruction value is clamped and then widened, whatever the codeword's fields (spec/41_decoder.md R172, R173). -/
theorem sampleRange_eac11Value (signed : Bool) (base mult table i : Nat) :
    SampleRange signed (eac11Value params signed base mult table i) := by
  cases signed
  · have h := ext11Unsigned_le (toNat_clampInt_lt ((base : Int) * 8 + 4 + eac11Step mult table i))
    exact (sampleRange_unsigned _).2 ⟨Int.natCast_nonneg _, Int.ofNat_le.2 h⟩
  · obtain ⟨h1, h2⟩ := ext11Signed_bounds (natAbs_clampInt_lt (signedBase base * 8 + eac11Step mult table i))
    exact (sampleRange_signed _).2 ⟨Int.le_trans (by decide) h1, h2⟩

/-- SCORE's loss of one channel (R201, R205). -/
theorem scoreSamples_le (f : Format) {blk dec : List Nat} (hlen : blk.length = 16) (hblk : ∀ v ∈ blk, v < 65536)
    (hdec : ∀ v ∈ dec, v < 65536) : scoreSamples params f blk dec ≤ 68717379600 := by
  have h : scoreSamples params f blk dec ≤ (sampleTargets params (formatSigned f) blk).length * 4294836225 := by
    refine sum_zipWith_le fun a ha b hb => ?_
    obtain ⟨v, hv, rfl⟩ := List.mem_map.1 hb
    exact sqDiff_le_of_sampleRange (sampleRange_sampleTargets _ hblk a ha) (sampleRange_decSample _ (hdec v hv))
  rwa [sampleTargets, List.length_map, hlen] at h

/-! ## Bounds of the searches -/

theorem below_decodeColour (w : DWord) (f : Format) : ∀ q ∈ (decodeColour w f).map Rgba.rgb, Below q 256 256 256 := by
  intro q hq
  obtain ⟨p, hp, rfl⟩ := List.mem_map.1 hq
  obtain ⟨k, -, rfl⟩ := List.mem_map.1 hp
  exact below_decodePixel _ _ _ _ _

/-- Whatever codeword a generator builds, its decoded pixels have 8-bit channels (spec/43_color_candidates.md R216). -/
theorem oracleLoss_le {px : List SrcPixel} (h : readSource m f = .ok px) (w : DWord) : oracleLoss f px w ≤ 1040400000 := by
  obtain ⟨hlen, hpx⟩ := readSource_ok h
  exact colourLoss_le hlen hpx (below_decodeColour w f)

theorem scratchLoss_runCandidates_le {px : List SrcPixel} (h : readSource m f = .ok px) {sc : Scratch}
    (hsc : scratchLoss sc ≤ 1040400000) (l : List Candidate) :
    scratchLoss (runCandidates params f px sc l) ≤ 1040400000 := by
  rcases runCandidates_cases params f px sc l with he | ⟨c, -, he⟩ <;> rw [he]
  · exact hsc
  · exact oracleLoss_le h _

theorem scratchLoss_start_le : scratchLoss scratchStart ≤ 1040400000 := Nat.zero_le _

theorem scratchLoss_colourTree_le {px : List SrcPixel} (h : readSource m f = .ok px) :
    scratchLoss (colourTree params f px) ≤ 1040400000 :=
  scratchLoss_runCandidates_le h (scratchLoss_runCandidates_le h scratchLoss_start_le _) _

theorem scratchLoss_punchTree_le {px : List SrcPixel} (h : readSource m f = .ok px) :
    scratchLoss (punchTree params f px) ≤ 1040400000 :=
  scratchLoss_runCandidates_le h scratchLoss_start_le _

theorem decodeEac8_lt (w : DWord) : ∀ b ∈ decodeEac8 w, b < 256 := by
  intro b hb
  obtain ⟨k, -, rfl⟩ := List.mem_map.1 hb
  exact Nat.lt_succ_of_le (clamp8_le _)

theorem searchAlpha_le {al : List Nat} (h : readAlpha m win = .ok al) : (searchAlpha params al).2 ≤ 1040400 := by
  obtain ⟨hlen, hal⟩ := readAlpha_ok h
  exact alphaLoss_le hlen hal (decodeEac8_lt _)

/-- The nearest reconstruction value is no farther than that of index 0. -/
theorem nearestIndex_le (value : Nat → Nat → Nat → Nat → Int) (c : EacChoice) (x : Int) :
    (nearestIndex (choiceValues value c) x).2 ≤ sqDiff x (value c.base c.mult c.table 0) := by
  obtain ⟨-, -, hle⟩ := argmin_spec 0 (fun i => sqDiff x ((choiceValues value c).getD i 0)) (l := List.range 8) (by decide)
  exact hle 0 (by decide)

/-- A search over choices is no worse than any one of them, with every index 0. -/
theorem eacSearch_le {value : Nat → Nat → Nat → Nat → Int} {choices : List EacChoice} {targets : List Int}
    {c : EacChoice} {n : Nat} (hc : c ∈ choices) (h : ∀ x ∈ targets, sqDiff x (value c.base c.mult c.table 0) ≤ n) :
    (eacSearch value choices targets).2 ≤ targets.length * n := by
  obtain ⟨-, -, hle⟩ := argmin_spec ⟨0, 0, 0⟩ (fun c => valuesLoss (choiceValues value c) targets)
    (List.ne_nil_of_mem hc)
  have hterm : ∀ v ∈ targets.map fun x => (nearestIndex (choiceValues value c) x).2, v ≤ n := by
    intro v hv
    obtain ⟨x, hx, rfl⟩ := List.mem_map.1 hv
    exact (nearestIndex_le value c x).trans (h x hx)
  calc (eacSearch value choices targets).2
      ≤ valuesLoss (choiceValues value c) targets := hle c hc
    _ ≤ (targets.map fun x => (nearestIndex (choiceValues value c) x).2).length * n := sum_le_mul _ _ hterm
    _ = targets.length * n := by rw [List.length_map]

theorem zero_mem_sampleChoices (signed : Bool) : (⟨0, 0, 0⟩ : EacChoice) ∈ sampleChoices signed := by
  simp [sampleChoices, eacChoices]

/-- The 11-bit search on one channel of a block (spec/44_alpha_eac_driver.md R275). -/
theorem searchSamples_le {ch : Nat} {l : List Nat} (h : readSamples m win ch = .ok l) (f : Format) :
    (searchSamples params f l).2 ≤ 68717379600 := by
  obtain ⟨hlen, hl⟩ := readSamples_ok h
  have hle : (searchSamples params f l).2 ≤ (sampleTargets params (formatSigned f) l).length * 4294836225 :=
    eacSearch_le (zero_mem_sampleChoices _) fun x hx =>
      sqDiff_le_of_sampleRange (sampleRange_sampleTargets _ hl x hx) (sampleRange_eac11Value _ _ _ _ _)
  rwa [sampleTargets, List.length_map, hlen] at hle

/-! ## The loss registers -/

/-- A loss within the bounds is held exactly (spec/10_state.md R37). -/
theorem toNat_ofNat_loss {n : Nat} (h : n ≤ 137434759200) : (BitVec.ofNat 64 n).toNat = n := by
  rw [BitVec.toNat_ofNat]
  exact Nat.mod_eq_of_lt (by omega)

/-- The bounds speak of LOSS and ALOSS only. -/
theorem LossInv.of_eq (h : LossInv s) (hl : t.loss = s.loss) (ha : t.aloss = s.aloss) : LossInv t :=
  ⟨hl ▸ h.loss, ha ▸ h.aloss⟩

theorem lossInv_of_losses {n a : Nat} (hn : n ≤ 137434759200) (ha : a ≤ 1040400) (hl : t.loss = BitVec.ofNat 64 n)
    (hal : t.aloss = BitVec.ofNat 64 a) : LossInv t :=
  ⟨by rw [hl, toNat_ofNat_loss hn]; exact hn, by rw [hal, toNat_ofNat_loss (by omega)]; exact ha⟩

/-- A command that writes LOSS and leaves ALOSS. -/
theorem LossInv.withLoss (h : LossInv s) {n : Nat} (hn : n ≤ 137434759200) (hl : t.loss = BitVec.ofNat 64 n)
    (ha : t.aloss = s.aloss) : LossInv t :=
  ⟨by rw [hl, toNat_ofNat_loss hn]; exact hn, ha ▸ h.aloss⟩

theorem lossInv_of_zero (hl : t.loss = 0) (ha : t.aloss = 0) : LossInv t :=
  lossInv_of_losses (n := 0) (a := 0) (Nat.zero_le _) (Nat.zero_le _) hl ha

/-! ## Commands -/

/-- SCORE, by class: one colour loss, with an alpha loss, or the losses of one or two channels (R201). -/
theorem lossInv_scoreBlock (h : LossInv s) (hs : scoreBlock params s f = .next t) : LossInv t := by
  have hcolour {src : List SrcPixel} {dec : List Rgb}
      (hr : readBoth (readSource s.mem f) (readRgb s.mem .dec) = .ok (src, dec)) : colourLoss src dec ≤ 1040400000 := by
    obtain ⟨hsrc, hdec⟩ := readBoth_ok hr
    obtain ⟨hlen, hpx⟩ := readSource_ok hsrc
    exact colourLoss_le hlen hpx (readRgb_ok hdec).2
  have hsamples {ch : Nat} {blk dec : List Nat} (hr : readSamplePair s ch = .ok (blk, dec)) :
      scoreSamples params f blk dec ≤ 68717379600 := by
    obtain ⟨hblk, hdec⟩ := readBoth_ok hr
    obtain ⟨hlen, hlt⟩ := readSamples_ok hblk
    exact scoreSamples_le f hlen hlt (readSamples_ok hdec).2
  cases hc : formatClass f <;> simp only [scoreBlock, hc] at hs
  case rgb | a1 =>
    obtain ⟨⟨src, dec⟩, hr, hs⟩ := withOperand_next hs
    cases succeed_next.1 hs
    exact h.withLoss ((hcolour hr).trans (by decide)) rfl rfl
  case a8 =>
    obtain ⟨⟨⟨src, dec⟩, sa, da⟩, hr, hs⟩ := withOperand_next hs
    obtain ⟨hr, hal⟩ := readBoth_ok hr
    obtain ⟨hsa, hda⟩ := readBoth_ok hal
    obtain ⟨hlen, hlt⟩ := readAlpha_ok hsa
    cases succeed_next.1 hs
    exact lossInv_of_losses ((hcolour hr).trans (by decide)) (alphaLoss_le hlen hlt (readAlpha_ok hda).2) rfl rfl
  case r11 =>
    obtain ⟨⟨blk, dec⟩, hr, hs⟩ := withOperand_next hs
    cases succeed_next.1 hs
    exact h.withLoss ((hsamples hr).trans (by decide)) rfl rfl
  case rg11 =>
    obtain ⟨⟨⟨b0, d0⟩, b1, d1⟩, hr, hs⟩ := withOperand_next hs
    obtain ⟨h0, h1⟩ := readBoth_ok hr
    cases succeed_next.1 hs
    exact h.withLoss (Nat.add_le_add (hsamples h0) (hsamples h1)) rfl rfl

/-- ENCODE, by class: the loss of the best colour candidate, with an alpha loss, or the losses of one or two channels
(spec/44_alpha_eac_driver.md R277). -/
theorem lossInv_encodeBlock (h : LossInv s) (hs : encodeBlock params s f = .next t) : LossInv t := by
  cases hc : formatClass f <;> simp only [encodeBlock, hc] at hs
  case rgb =>
    obtain ⟨px, hr, hs⟩ := withOperand_next hs
    cases succeed_next.1 hs
    exact h.withLoss ((scratchLoss_colourTree_le hr).trans (by decide)) rfl (by simp [setScratch])
  case a1 =>
    obtain ⟨px, hr, hs⟩ := withOperand_next hs
    cases succeed_next.1 hs
    exact h.withLoss ((scratchLoss_punchTree_le hr).trans (by decide)) rfl (by simp [setScratch])
  case a8 =>
    obtain ⟨⟨alpha, px⟩, hr, hs⟩ := withOperand_next hs
    obtain ⟨hal, hpx⟩ := readBoth_ok hr
    cases succeed_next.1 hs
    exact lossInv_of_losses ((scratchLoss_colourTree_le hpx).trans (by decide)) (searchAlpha_le hal) rfl rfl
  case r11 =>
    obtain ⟨l, hr, hs⟩ := withOperand_next hs
    cases succeed_next.1 hs
    exact h.withLoss ((searchSamples_le hr f).trans (by decide)) rfl (by simp)
  case rg11 =>
    obtain ⟨⟨l0, l1⟩, hr, hs⟩ := withOperand_next hs
    obtain ⟨h0, h1⟩ := readBoth_ok hr
    cases succeed_next.1 hs
    exact h.withLoss (Nat.add_le_add (searchSamples_le h0 f) (searchSamples_le h1 f)) rfl (by simp)

/-- A command that checks the format first: BadArgument leaves the loss registers (spec/60_exceptions.md R325). -/
theorem lossInv_withFormat (h : LossInv s) {k : Format → Answer} (hk : ∀ f, k f = .next t → LossInv t)
    (ht : withFormat s k = .next t) : LossInv t := by
  rcases withFormat_next ht with ⟨-, rfl⟩ | ⟨f, -, hf⟩
  · exact h.of_eq rfl rfl
  · exact hk f hf

/-- Every end of a command but those of SCORE and ENCODE, whose losses `Ends` does not name. -/
theorem Ends.lossInv {i : Instr} (h : LossInv s) (he : Ends s i t) (hs : i ≠ .score) (hn : i ≠ .encode) : LossInv t := by
  cases he with
  | sreset => exact lossInv_of_zero rfl rfl
  | candidate _ f px _ _ _ _ hr => exact h.withLoss ((oracleLoss_le hr _).trans (by decide)) rfl (by simp [colourResult])
  | candEac8 f alpha _ _ hr =>
    exact lossInv_of_losses ((searchAlpha_le hr).trans (by decide)) (searchAlpha_le hr) rfl rfl
  | candEac11 ch f samples _ _ hr => exact h.withLoss ((searchSamples_le hr f).trans (by decide)) rfl (by simp)
  | score => exact absurd rfl hs
  | scoreAlpha => exact absurd rfl hs
  | encode => exact absurd rfl hn
  | encodeTwo => exact absurd rfl hn
  | encodeAlpha => exact absurd rfl hn
  | _ => exact h.of_eq (by simp [cfgState, decodedState]) (by simp [cfgState, decodedState])

theorem lossInv_exec (h : LossInv s) {i : Instr} (he : exec i s = .next t) : LossInv t := by
  by_cases hs : i = .score
  · subst hs
    exact lossInv_withFormat h (fun _ hb => lossInv_scoreBlock h hb) he
  by_cases hn : i = .encode
  · subst hn
    exact lossInv_withFormat h (fun _ hb => lossInv_encodeBlock h hb) he
  exact (exec_ends he).lossInv h hs hn

/-! ## Turns -/

/-- LOSS and ALOSS are read-only to the host (spec/10_state.md R37, R38). -/
theorem Writes.lossInv (h : LossInv s) (hw : Writes s u) : LossInv u := by
  cases hw with
  | status v =>
    unfold writeStatus
    split <;> exact h.of_eq rfl rfl
  | _ => exact h.of_eq rfl rfl

theorem lossInv_hostTurn (h : LossInv s) (ht : hostTurn s = .next t) : LossInv t := by
  rcases hostTurn_next ht with rfl | ⟨i, -, rfl⟩
  · exact h
  · obtain ⟨u, pc, vars, hu | rfl, he⟩ := hostInstr_cases s i <;> rw [he]
    · exact (hu.lossInv h).of_eq rfl rfl
    · exact h.of_eq rfl rfl

theorem lossInv_coreTurn (h : LossInv s) (ht : coreTurn s = .next t) : LossInv t := by
  rcases coreTurn_next ht with ⟨-, rfl⟩ | ⟨w, -, ⟨e, -, rfl⟩ | ⟨i, -, he⟩⟩
  · exact h
  · exact h.of_eq rfl rfl
  · exact lossInv_exec h he

/-- Settles O60: of the turns only the core's writes a loss other than 0, and each loss is a sum of sixteen bounded terms
for each channel. -/
theorem lossBoundsKept : Obligations.LossBoundsKept := by
  intro s t h hs
  obtain ⟨ts, ht | ht | ⟨-, rfl⟩⟩ := step_next hs
  · exact lossInv_hostTurn (s := { s with turns := ts }) (h.of_eq rfl rfl) ht
  · exact lossInv_coreTurn (s := { s with turns := ts }) (h.of_eq rfl rfl) ht
  · exact lossInv_of_zero rfl rfl

end Sys2Proof.Machine
end

section
/-! PROOFS: the exact losses SCORE leaves (spec/42_metric.md R201 to R207). -/

namespace Sys2Proof.Machine

variable {s : State} {f : Format} {src dec : Nat → Nat → Byte}

/-- A sum over two lists that run over the same places, as an integer. -/
theorem natCast_sum_zipWith_map {α β : Type} (d : α → β → Nat) (g : Nat → α) (h : Nat → β) (l : List Nat) :
    ((List.zipWith d (l.map g) (l.map h)).sum : Int) = (l.map fun k => (d (g k) (h k) : Int)).sum := by
  induction l with
  | nil => rfl
  | cons k l ih => simp only [List.map_cons, List.zipWith_cons_cons, List.sum_cons, Nat.cast_add, ih]

/-- A command that leaves a loss within the bounds leaves it exactly (spec/10_state.md R37). -/
theorem exists_exact_loss {n : Nat} {x : Int} {a : Answer} {next : DWord → State} (hn : n ≤ 137434759200)
    (hx : (n : Int) = x) (ha : a = .next (next (BitVec.ofNat 64 n))) :
    ∃ loss : DWord, (loss.toNat : Int) = x ∧ a = .next (next loss) :=
  ⟨BitVec.ofNat 64 n, by rw [toNat_ofNat_loss hn, hx], ha⟩

/-! ## Colour formats (R202 to R204, R207) -/

/-- The colour of pixel `k` in a block whose pixel bytes are `g`. -/
def pixelColour (g : Nat → Nat → Byte) (k : Nat) : Rgb := ⟨(g k 0).toNat, (g k 1).toNat, (g k 2).toNat⟩

/-- The pixels of a source block whose pixel bytes are `src` (R204). -/
def sourcePixels (f : Format) (src : Nat → Nat → Byte) : List SrcPixel :=
  (List.range 16).map fun k => ⟨pixelColour src k, isA1 f && decide ((src k 3).toNat < 0x80)⟩

/-- The squared difference of channel `c` of pixel `k`. -/
def channelSquare (src dec : Nat → Nat → Byte) (k c : Nat) : Int := ((src k c).toNat - (dec k c).toNat : Int) ^ 2

/-- `err` of R203 for pixel `k`. -/
def weightedSquares (src dec : Nat → Nat → Byte) (k : Nat) : Int :=
  299 * channelSquare src dec k 0 + 587 * channelSquare src dec k 1 + 114 * channelSquare src dec k 2

theorem pixelError_pixelColour (src dec : Nat → Nat → Byte) (k : Nat) :
    (pixelError (pixelColour src k) (pixelColour dec k) : Int) = weightedSquares src dec k := by
  simp only [pixelError, Nat.cast_add, Nat.cast_mul, Nat.cast_ofNat, sqDiff_cast]
  rfl

theorem colourLoss_sourcePixels (f : Format) (src dec : Nat → Nat → Byte) :
    (colourLoss (sourcePixels f src) ((List.range 16).map (pixelColour dec)) : Int) =
      ((List.range 16).map fun k =>
        if isA1 f && decide ((src k 3).toNat < 0x80) then 0 else weightedSquares src dec k).sum := by
  rw [colourLoss, sourcePixels, natCast_sum_zipWith_map]
  refine congrArg List.sum (List.map_congr_left fun k _ => ?_)
  rw [Nat.cast_ite, pixelError_pixelColour, Nat.cast_zero]

/-- Outside A1 formats every pixel counts (R202). -/
theorem colourLoss_sourcePixels_of_not_a1 (h : isA1 f = false) (src dec : Nat → Nat → Byte) :
    (colourLoss (sourcePixels f src) ((List.range 16).map (pixelColour dec)) : Int) =
      ((List.range 16).map (weightedSquares src dec)).sum := by
  simp only [colourLoss_sourcePixels, h, Bool.false_and, Bool.false_eq_true, if_false]

/-- The alpha values of a block whose pixel bytes are `g`. -/
def alphaValues (g : Nat → Nat → Byte) : List Nat := (List.range 16).map fun k => (g k 3).toNat

theorem alphaValues_lt (g : Nat → Nat → Byte) : ∀ a ∈ alphaValues g, a < 256 := by
  intro a ha
  obtain ⟨k, -, rfl⟩ := List.mem_map.1 ha
  exact (g k 3).isLt

theorem alphaLoss_alphaValues (src dec : Nat → Nat → Byte) :
    (alphaLoss (alphaValues src) (alphaValues dec) : Int) =
      ((List.range 16).map fun k => channelSquare src dec k 3).sum := by
  rw [alphaLoss, alphaValues, alphaValues, natCast_sum_zipWith_map]
  simp only [sqDiff_cast, channelSquare]

/-- BLK and DEC hold the colour bytes `src` and `dec`. -/
def HoldsColours (m : List Host.Cell) (src dec : Nat → Nat → Byte) : Prop :=
  ∀ k < 16, ∀ c < 3, memRead m (pixelByte .blk k c) = some (src k c) ∧ memRead m (pixelByte .dec k c) = some (dec k c)

/-- What SCORE reads first in a colour format. -/
theorem readBoth_colours {m : List Host.Cell} (h : HoldsColours m src dec)
    (ha : isA1 f = true → ∀ k < 16, memRead m (pixelByte .blk k 3) = some (src k 3)) :
    readBoth (readSource m f) (readRgb m .dec) = .ok (sourcePixels f src, (List.range 16).map (pixelColour dec)) := by
  rw [sourceBlockRead m f src (fun k hk c hc => (h k hk c hc).1) ha,
    readRgb_eq_ok m .dec dec fun k hk c hc => (h k hk c hc).2]
  rfl

theorem colourLoss_sourcePixels_le (f : Format) (src dec : Nat → Nat → Byte) :
    colourLoss (sourcePixels f src) ((List.range 16).map (pixelColour dec)) ≤ 137434759200 := by
  have hcolour (g : Nat → Nat → Byte) (k : Nat) : Below (pixelColour g k) 256 256 256 :=
    ⟨(g k 0).isLt, (g k 1).isLt, (g k 2).isLt⟩
  refine (colourLoss_le rfl (fun p hp => ?_) fun q hq => ?_).trans (by decide)
  · obtain ⟨k, -, rfl⟩ := List.mem_map.1 hp
    exact hcolour src k
  · obtain ⟨k, -, rfl⟩ := List.mem_map.1 hq
    exact hcolour dec k

/-- SCORE in the classes without an alpha loss. -/
theorem exec_score_colour (hf : formatOfCode s.format = some f) (hc : formatClass f = .rgb ∨ formatClass f = .a1)
    (h : HoldsColours s.mem src dec)
    (ha : isA1 f = true → ∀ k < 16, memRead s.mem (pixelByte .blk k 3) = some (src k 3)) :
    exec .score s = .next { ended s with
      lvalid := true, loss := BitVec.ofNat 64 (colourLoss (sourcePixels f src) ((List.range 16).map (pixelColour dec))) } := by
  have hexec : exec .score s = scoreBlock params s f := withFormat_some _ hf
  rcases hc with hc | hc <;> rw [hexec, scoreBlock, hc, readBoth_colours h ha] <;> rfl

/-- SCORE in an A8 format reads the alpha bytes too (R207). -/
theorem exec_score_a8 (hf : formatOfCode s.format = some f) (hc : formatClass f = .a8) (h : HoldsColours s.mem src dec)
    (ha : ∀ k < 16, memRead s.mem (pixelByte .blk k 3) = some (src k 3) ∧
      memRead s.mem (pixelByte .dec k 3) = some (dec k 3)) :
    exec .score s = .next { ended s with
      lvalid := true, loss := BitVec.ofNat 64 (colourLoss (sourcePixels f src) ((List.range 16).map (pixelColour dec))),
      aloss := BitVec.ofNat 64 (alphaLoss (alphaValues src) (alphaValues dec)) } := by
  have hexec : exec .score s = scoreBlock params s f := withFormat_some _ hf
  rw [hexec, scoreBlock, hc, readBoth_colours h fun _ k hk => (ha k hk).1, readAlpha_eq_ok _ .blk src fun k hk => (ha k hk).1,
    readAlpha_eq_ok _ .dec dec fun k hk => (ha k hk).2]
  rfl

/-- Settles O41: SCORE computes the loss of the pixels it reads, which the register holds exactly. -/
theorem scoreColourResult : Obligations.ScoreColourResult := by
  intro s f src dec hf hmem sq err total
  have hloss := colourLoss_sourcePixels_le f src dec
  refine ⟨fun hc => ?rgb, fun hc ha => ?a1, fun hc ha => ?a8⟩
  case rgb =>
    have h1 : isA1 f = false := by simp [isA1, hc]
    exact exists_exact_loss (next := fun l => { ended s with lvalid := true, loss := l }) hloss
      (colourLoss_sourcePixels_of_not_a1 h1 src dec)
      (exec_score_colour hf (.inl hc) hmem fun h => absurd h (by simp [h1]))
  case a1 =>
    have h1 : isA1 f = true := by simp [isA1, hc]
    have hsum := colourLoss_sourcePixels f src dec
    simp only [h1, Bool.true_and, decide_eq_true_eq] at hsum
    exact exists_exact_loss (next := fun l => { ended s with lvalid := true, loss := l }) hloss hsum
      (exec_score_colour hf (.inr hc) hmem fun _ => ha)
  case a8 =>
    have h1 : isA1 f = false := by simp [isA1, hc]
    have haloss : alphaLoss (alphaValues src) (alphaValues dec) ≤ 1040400 :=
      alphaLoss_le rfl (alphaValues_lt src) (alphaValues_lt dec)
    refine ⟨_, _, ?_, ?_, exec_score_a8 hf hc hmem ha⟩
    · rw [toNat_ofNat_loss hloss]
      exact colourLoss_sourcePixels_of_not_a1 h1 src dec
    · rw [toNat_ofNat_loss (haloss.trans (by decide))]
      exact alphaLoss_alphaValues src dec

/-! ## 11-bit formats (R201, R205, R206) -/

/-- The two bytes of a sample, high byte first (spec/30_encoding.md R115). -/
theorem toNat_append_bytes (hi lo : Byte) : (hi ++ lo).toNat = 256 * hi.toNat + lo.toNat := by
  rw [BitVec.toNat_append, ← Nat.shiftLeft_add_eq_or_of_lt lo.isLt, Nat.shiftLeft_eq, Nat.mul_comm]

/-- The target of the sample with these bytes. -/
def sampleTarget (signed : Bool) (hi lo : Byte) : Int :=
  if signed then max ((hi ++ lo).toNat - 32768 : Int) (-32767) else (hi ++ lo).toNat

/-- The decoded sample with these bytes. -/
def sampleValue (signed : Bool) (hi lo : Byte) : Int := if signed then (hi ++ lo).toInt else (hi ++ lo).toNat

theorem sampleValue_eq_decSample (signed : Bool) (hi lo : Byte) :
    decSample signed (hi ++ lo).toNat = sampleValue signed hi lo := by
  have hlt := (hi ++ lo).isLt
  cases signed
  · rfl
  · simp only [decSample, sampleValue, Bool.true_and, decide_eq_true_eq, if_true, BitVec.toInt_eq_toNat_cond]
    split_ifs <;> omega

/-- The samples of one channel, by the two bytes of each. -/
def channelSamples (hi lo : Nat → Byte) : List Nat := (List.range 16).map fun k => (hi k ++ lo k).toNat

theorem channelSamples_lt (hi lo : Nat → Byte) : ∀ v ∈ channelSamples hi lo, v < 65536 := by
  intro v hv
  obtain ⟨k, -, rfl⟩ := List.mem_map.1 hv
  exact (hi k ++ lo k).isLt

theorem readSamples_channelSamples {m : List Host.Cell} {win : Window} {ch : Nat} {hi lo : Nat → Byte}
    (h : ∀ k < 16, memRead m (sampleByte win ch k) = some (hi k) ∧ memRead m (sampleByte win ch k + 1) = some (lo k)) :
    readSamples m win ch = .ok (channelSamples hi lo) := by
  simp only [readSamples_eq_ok m win ch hi lo h, channelSamples, toNat_append_bytes]

/-- The sum of R205 for one channel. -/
theorem scoreSamples_channelSamples (f : Format) (srcHi srcLo decHi decLo : Nat → Byte) :
    (scoreSamples params f (channelSamples srcHi srcLo) (channelSamples decHi decLo) : Int) =
      ((List.range 16).map fun k => (sampleTarget (formatSigned f) (srcHi k) (srcLo k) -
        sampleValue (formatSigned f) (decHi k) (decLo k)) ^ 2).sum := by
  rw [scoreSamples, sampleLoss, sampleTargets, channelSamples, channelSamples, List.map_map, List.map_map,
    natCast_sum_zipWith_map]
  refine congrArg List.sum (List.map_congr_left fun k _ => ?_)
  rw [sqDiff_cast, ← sampleValue_eq_decSample]
  rfl

/-- BLK and DEC hold these bytes of one channel's samples. -/
def HoldsSamples (m : List Host.Cell) (ch : Nat) (srcHi srcLo decHi decLo : Nat → Byte) : Prop :=
  ∀ k < 16, memRead m (sampleByte .blk ch k) = some (srcHi k) ∧ memRead m (sampleByte .blk ch k + 1) = some (srcLo k) ∧
    memRead m (sampleByte .dec ch k) = some (decHi k) ∧ memRead m (sampleByte .dec ch k + 1) = some (decLo k)

theorem readSamplePair_channelSamples {ch : Nat} {srcHi srcLo decHi decLo : Nat → Byte}
    (h : HoldsSamples s.mem ch srcHi srcLo decHi decLo) :
    readSamplePair s ch = .ok (channelSamples srcHi srcLo, channelSamples decHi decLo) := by
  have hblk : readSamples s.mem .blk ch = .ok (channelSamples srcHi srcLo) :=
    readSamples_channelSamples fun k hk => ⟨(h k hk).1, (h k hk).2.1⟩
  have hdec : readSamples s.mem .dec ch = .ok (channelSamples decHi decLo) :=
    readSamples_channelSamples fun k hk => (h k hk).2.2
  rw [readSamplePair, hblk, hdec]
  rfl

/-- SCORE in an 11-bit format: the losses of the channels the format has. -/
theorem exec_score_samples {srcHi srcLo decHi decLo : Nat → Nat → Byte} (hf : formatOfCode s.format = some f)
    (hc : isColour f = false)
    (h : ∀ ch < (if formatClass f = .rg11 then 2 else 1), HoldsSamples s.mem ch (srcHi ch) (srcLo ch) (decHi ch) (decLo ch)) :
    let loss (ch : Nat) : Nat :=
      scoreSamples params f (channelSamples (srcHi ch) (srcLo ch)) (channelSamples (decHi ch) (decLo ch))
    exec .score s = .next { ended s with
      lvalid := true, loss := BitVec.ofNat 64 (if formatClass f = .rg11 then loss 0 + loss 1 else loss 0) } := by
  have hexec : exec .score s = scoreBlock params s f := withFormat_some _ hf
  intro loss
  rw [hexec, scoreBlock]
  cases hclass : formatClass f <;> simp only [isColour, hclass, Bool.true_eq_false] at hc <;> rw [hclass] at h
  case r11 =>
    rw [readSamplePair_channelSamples (h 0 (by decide))]
    rfl
  case rg11 =>
    rw [readSamplePair_channelSamples (h 0 (by decide)), readSamplePair_channelSamples (h 1 (by decide))]
    rfl

/-- Settles O42: SCORE sums the squared differences of the samples it reads, over one channel or two. -/
theorem scoreSampleResult : Obligations.ScoreSampleResult := by
  intro s f srcHi srcLo decHi decLo hf hc hmem target value channel
  have hsum (ch : Nat) := scoreSamples_channelSamples f (srcHi ch) (srcLo ch) (decHi ch) (decLo ch)
  have hle (ch : Nat) := scoreSamples_le f (blk := channelSamples (srcHi ch) (srcLo ch))
    (dec := channelSamples (decHi ch) (decLo ch)) rfl (channelSamples_lt _ _) (channelSamples_lt _ _)
  refine exists_exact_loss (next := fun l => { ended s with lvalid := true, loss := l }) ?_ ?_
    (exec_score_samples hf hc hmem)
  · split
    · exact Nat.add_le_add (hle 0) (hle 1)
    · exact (hle 0).trans (by decide)
  · split
    · rw [Nat.cast_add, hsum, hsum]; rfl
    · exact hsum 0

end Sys2Proof.Machine
end

section
/-! PROOFS: the table and index search of a colour generator (spec/43_color_candidates.md R223). -/

namespace Sys2Proof.Machine

/-! ## The first of the least -/

/-- What an ordered search over a list in rising rank answers: an element of least value, and every element of lower
rank has a greater one (spec/00_scope.md R11). -/
theorem exists_argmin_of_rank {α : Type} (dflt : α) (f rank : α → Nat) {l : List α} (hl : l ≠ [])
    (hr : l.Pairwise fun a b => rank a < rank b) :
    ∃ a ∈ l, argmin dflt f l = (a, f a) ∧ (∀ c ∈ l, f a ≤ f c) ∧ ∀ c ∈ l, rank c < rank a → f a < f c := by
  obtain ⟨before, a, after, rfl, hbefore, hafter⟩ := exists_first_min f l hl
  refine ⟨a, by simp, argmin_first dflt f before after a hbefore hafter, fun c hc => ?least, fun c hc hlt => ?first⟩
  case least =>
    rcases List.mem_append.1 hc with hc | hc
    · exact (hbefore c hc).le
    · rcases List.mem_cons.1 hc with rfl | hc
      · exact le_rfl
      · exact hafter c hc
  case first =>
    have hrank := (List.pairwise_cons.1 (List.pairwise_append.1 hr).2.1).1
    rcases List.mem_append.1 hc with hc | hc
    · exact hbefore c hc
    · rcases List.mem_cons.1 hc with rfl | hc
      · exact absurd hlt (lt_irrefl _)
      · exact absurd (hrank c hc) (lt_asymm hlt)

/-! ## One pixel -/

variable {punch : Bool} {base : Rgb} {t v : Nat} {p : SrcPixel}

/-- The index values in search order, `SCRAMBLE` of 0 to 3 without those a punch-through search skips. -/
def indexOrder (punch : Bool) : List Nat := [3, 2, 0, 1].filter fun v => !(punch && v == 2)

theorem indexOrder_opaque : indexOrder false = [3, 2, 0, 1] := rfl

theorem indexOrder_punch : indexOrder true = [3, 0, 1] := rfl

theorem indexChoices_eq (punch : Bool) (t : Nat) :
    indexChoices punch t = (indexOrder punch).map fun v => (v, indexModifier punch t v) := by
  cases punch <;> rfl

/-- Index 2 of a punch-through search is kept for the transparent pixels. -/
def IndexAllowed (punch : Bool) (v : Nat) (p : SrcPixel) : Prop :=
  v < 4 ∧ (punch = true → (v = 2 ↔ p.transparent = true))

/-- The error of a pixel that takes index `v` of table `t`. -/
def indexCost (punch : Bool) (base : Rgb) (t v : Nat) (p : SrcPixel) : Nat :=
  if punch && p.transparent then 0 else pixelError p.rgb (addModifier base (indexModifier punch t v))

theorem indexAllowed_of_transparent (h : (punch && p.transparent) = true) : IndexAllowed punch v p ↔ v = 2 := by
  obtain ⟨rfl, hp⟩ := Bool.and_eq_true_iff.1 h
  simp only [IndexAllowed, hp, forall_const, iff_true]
  omega

theorem indexAllowed_of_opaque (h : (punch && p.transparent) = false) :
    IndexAllowed punch v p ↔ v ∈ indexOrder punch := by
  cases punch
  · simp only [IndexAllowed, indexOrder_opaque, Bool.false_eq_true, false_implies, and_true, List.mem_cons,
      List.not_mem_nil, or_false]
    omega
  · have hp : p.transparent = false := h
    simp only [IndexAllowed, indexOrder_punch, hp, forall_const, Bool.false_eq_true, iff_false, List.mem_cons,
      List.not_mem_nil, or_false]
    omega

theorem indexCost_of_opaque (h : (punch && p.transparent) = false) :
    indexCost punch base t v p = pixelError p.rgb (addModifier base (indexModifier punch t v)) := by
  rw [indexCost, h, if_neg Bool.false_ne_true]

/-- What a pixel takes is an allowed index and that index's cost; no other allowed index costs less, and an earlier one
costs more. -/
structure FirstLeastIndex (punch : Bool) (base : Rgb) (t : Nat) (p : SrcPixel) (found : Nat × Nat) : Prop where
  allowed : IndexAllowed punch found.1 p
  cost : found.2 = indexCost punch base t found.1 p
  least : ∀ v, IndexAllowed punch v p → found.2 ≤ indexCost punch base t v p
  first : ∀ v, IndexAllowed punch v p → [3, 2, 0, 1].idxOf v < [3, 2, 0, 1].idxOf found.1 →
    found.2 < indexCost punch base t v p

/-- Index 2 is the only one a transparent pixel may take. -/
theorem firstLeastIndex_of_transparent (h : (punch && p.transparent) = true) :
    FirstLeastIndex punch base t p (pixelIndex punch base t p) := by
  rw [pixelIndex, if_pos h]
  refine ⟨(indexAllowed_of_transparent h).2 rfl, by rw [indexCost, if_pos h], fun v _ => Nat.zero_le _, ?_⟩
  intro v hv hlt
  rw [(indexAllowed_of_transparent h).1 hv] at hlt
  exact absurd hlt (lt_irrefl _)

theorem indexChoices_pairwise (punch : Bool) (t : Nat) :
    (indexChoices punch t).Pairwise fun a b => [3, 2, 0, 1].idxOf a.1 < [3, 2, 0, 1].idxOf b.1 := by
  have horder : (indexOrder punch).Pairwise fun a b => [3, 2, 0, 1].idxOf a < [3, 2, 0, 1].idxOf b := by
    revert punch
    decide
  rw [indexChoices_eq]
  exact List.pairwise_map.2 horder

theorem mem_indexChoices (h : (punch && p.transparent) = false) (hv : IndexAllowed punch v p) :
    (v, indexModifier punch t v) ∈ indexChoices punch t := by
  rw [indexChoices_eq]
  exact List.mem_map_of_mem ((indexAllowed_of_opaque h).1 hv)

/-- Any other pixel takes what the ordered search over the allowed indices finds. -/
theorem firstLeastIndex_of_opaque (h : (punch && p.transparent) = false) :
    FirstLeastIndex punch base t p (pixelIndex punch base t p) := by
  have hne : indexChoices punch t ≠ [] := by cases punch <;> exact List.cons_ne_nil _ _
  obtain ⟨c, hc, hfound, hleast, hfirst⟩ := exists_argmin_of_rank (0, 0)
    (fun c => pixelError p.rgb (addModifier base c.2)) _ hne (indexChoices_pairwise punch t)
  rw [indexChoices_eq] at hc
  obtain ⟨v, hv, rfl⟩ := List.mem_map.1 hc
  rw [pixelIndex, if_neg (by simp [h]), hfound]
  refine ⟨(indexAllowed_of_opaque h).2 hv, (indexCost_of_opaque h).symm, fun u hu => ?_, fun u hu hlt => ?_⟩ <;>
    rw [indexCost_of_opaque h]
  · exact hleast (u, indexModifier punch t u) (mem_indexChoices h hu)
  · exact hfirst (u, indexModifier punch t u) (mem_indexChoices h hu) hlt

theorem firstLeastIndex_pixelIndex (punch : Bool) (base : Rgb) (t : Nat) (p : SrcPixel) :
    FirstLeastIndex punch base t p (pixelIndex punch base t p) := by
  cases h : punch && p.transparent
  · exact firstLeastIndex_of_opaque h
  · exact firstLeastIndex_of_transparent h

/-! ## One table -/

/-- The total error of table `t` where the listed pixels take the indices `vs`. -/
def indicesCost (punch : Bool) (base : Rgb) (l : List (Nat × SrcPixel)) (t : Nat) (vs : List Nat) : Nat :=
  (List.zipWith (fun v q => indexCost punch base t v q.2) vs l).sum

/-- The index each listed pixel takes in table `t`. -/
def tableIndices (punch : Bool) (base : Rgb) (l : List (Nat × SrcPixel)) (t : Nat) : List Nat :=
  l.map fun q => (pixelIndex punch base t q.2).1

theorem mem_zip_tableIndices {l : List (Nat × SrcPixel)} {q : Nat × Nat × SrcPixel}
    (h : q ∈ List.zip (tableIndices punch base l t) l) : q.1 = (pixelIndex punch base t q.2.2).1 := by
  have hzip : List.zip (tableIndices punch base l t) l = l.map fun x => ((pixelIndex punch base t x.2).1, x) := by
    rw [tableIndices, List.zip, List.zipWith_map_left, List.zipWith_self]
  rw [hzip] at h
  obtain ⟨x, -, rfl⟩ := List.mem_map.1 h
  rfl

theorem indicesCost_tableIndices (punch : Bool) (base : Rgb) (l : List (Nat × SrcPixel)) (t : Nat) :
    indicesCost punch base l t (tableIndices punch base l t) = tableLoss punch base l t := by
  rw [indicesCost, tableIndices, tableLoss, List.zipWith_map_left, List.zipWith_self]
  simp only [(firstLeastIndex_pixelIndex punch base t _).cost]

/-- No choice of allowed indices has a smaller total than each pixel's own search. -/
theorem tableLoss_le_indicesCost {l : List (Nat × SrcPixel)} {vs : List Nat} (hlen : vs.length = l.length)
    (h : ∀ q ∈ List.zip vs l, IndexAllowed punch q.1 q.2.2) :
    tableLoss punch base l t ≤ indicesCost punch base l t vs := by
  induction l generalizing vs with
  | nil => exact Nat.zero_le _
  | cons q l ih =>
    obtain ⟨v, vs, rfl⟩ := List.exists_cons_of_length_eq_add_one hlen
    simp only [List.zip_cons_cons, List.forall_mem_cons] at h
    obtain ⟨hv, hvs⟩ := h
    exact Nat.add_le_add ((firstLeastIndex_pixelIndex punch base t q.2).least v hv) (ih (Nat.succ.inj hlen) hvs)

/-! ## The eight tables -/

/-- Settles O50: the indices found are each pixel's first of least cost, so the table's total is the least any indices
give it, and the table is the first of the eight with the least such total. -/
theorem tableSearchIsOptimal : Obligations.TableSearchIsOptimal := by
  intro punch base l found cost allowed total
  have hindices : found.2.map Prod.snd = tableIndices punch base l found.1 := by
    simp [found, tableSearch, tableIndices, Function.comp_def]
  have htotal (vs : List Nat) (t : Nat) : total t vs = indicesCost punch base l t vs := rfl
  obtain ⟨hmem, hvalue, hleast⟩ := argmin_spec 0 (tableLoss punch base l) (l := List.range 8) (by decide)
  have hfound : indicesCost punch base l found.1 (tableIndices punch base l found.1) =
      (argmin 0 (tableLoss punch base l) (List.range 8)).2 :=
    (indicesCost_tableIndices punch base l _).trans hvalue.symm
  rw [hindices]
  refine ⟨List.mem_range.1 hmem, by simp [found, tableSearch, Function.comp_def], fun q hq => ?_,
    fun t ht vs hlen hvs => ?_⟩
  · have hpixel := firstLeastIndex_pixelIndex punch base found.1 q.2.2
    rw [mem_zip_tableIndices hq]
    exact ⟨hpixel.allowed, fun v hv hlt => hpixel.cost.symm.trans_lt (hpixel.first v hv hlt)⟩
  · have hle : tableLoss punch base l t ≤ indicesCost punch base l t vs := tableLoss_le_indicesCost hlen hvs
    rw [htotal, htotal, hfound]
    exact ⟨(hleast t (List.mem_range.2 ht)).trans hle,
      fun hlt => (argmin_range_first (tableLoss punch base l) 8 t (by decide) hlt).trans_le hle⟩

end Sys2Proof.Machine
end

section
/-! PROOFS: what the colour generator commands leave, and the sub-mode of each generator's codeword
(spec/43_color_candidates.md R216, R226, R231, R235, R253). -/

namespace Sys2Proof.Machine

variable {s t : State} {f : Format} {i : Instr}

/-! ## The command template (R216) -/

/-- Settles O43: the template stores the generator's codeword and its oracle loss, which fits in LOSS. -/
theorem colourCandidateResult : Obligations.ColourCandidateResult := by
  intro i s hg hw
  obtain ⟨allowed, transp, hallowed, hexec⟩ := exec_colourGenerator (s := s) hg hw
  rw [hexec]
  refine ⟨fun hf => ?refused, ?done⟩
  case refused => exact colourCandidate_refused _ fun f hfmt => (hallowed f).symm.trans (hf f hfmt)
  case done =>
    intro f px hf ha hpx w o
    have hloss : (BitVec.ofNat 64 (oracleLoss f px w)).toNat = oracleLoss f px w :=
      toNat_ofNat_loss ((oracleLoss_le hpx w).trans (by decide))
    refine ⟨(putCodeword s o w).mem, BitVec.ofNat 64 (oracleLoss f px w), ?_, hloss, holdsCodeword_putCodeword s o w,
      sameOutside_putCodeword s o w⟩
    rw [colourCandidate_ok _ hf ((hallowed f).symm.trans ha), hpx]
    rfl

/-- A colour generator command that raises no error leaves the sub-mode of its generator's codeword. -/
theorem mode_of_colourGenerator (hg : isColourGenerator i = true) (h : exec i s = .next t) (he : t.err = .none) :
    ∃ f px, t.mode = selectMode (generatorWord f px i) (isA1 f) := by
  cases exec_ends h with
  | failed _ e => cases e <;> cases he
  | candidate _ f px => exact ⟨f, px, rfl⟩
  | _ => cases hg

/-! ## T and H (R227 to R235) -/

theorem below_roundedMean (fl : FloatOps) (pts : List Rgb) : Below (roundedMean fl pts) 256 256 256 := by
  have hclamp (v : Int) : (clampInt v 0 255).toNat < 256 := by
    have := clampInt_bounds v (lo := 0) (hi := 255) (by decide)
    omega
  exact ⟨hclamp _, hclamp _, hclamp _⟩

/-- The clustering answers 8-bit colours, whatever the points (R241). -/
theorem below_kmeans2 (fl : FloatOps) (kp : KMeansParams) (pts : List Rgb) (k : F64) :
    Below (kmeans2 fl kp pts k).1 256 256 256 ∧ Below (kmeans2 fl kp pts k).2 256 256 256 := by
  have hblack : Below ⟨0, 0, 0⟩ 256 256 256 := ⟨by decide, by decide, by decide⟩
  unfold kmeans2 outputCentres
  split
  · exact ⟨hblack, hblack⟩
  · split
    · exact ⟨hblack, hblack⟩
    all_goals exact ⟨below_roundedMean _ _, below_roundedMean _ _⟩

theorem below_map_q4 {c : Rgb} (h : Below c 256 256 256) : Below (c.map q4) 16 16 16 := by
  have hq4 {v : Nat} (hv : v < 256) : q4 v < 16 := by
    unfold q4
    omega
  obtain ⟨hr, hg, hb⟩ := h
  exact ⟨hq4 hr, hq4 hg, hq4 hb⟩

theorem below_clusterColours (px : List SrcPixel) (tr : Bool) (intens : BitVec 2) :
    Below (clusterColours params px tr intens).1 16 16 16 ∧ Below (clusterColours params px tr intens).2 16 16 16 := by
  obtain ⟨h1, h2⟩ := below_kmeans2 ieee754 kmeansDefaults (usedColours tr px) (intensity intens)
  exact ⟨below_map_q4 h1, below_map_q4 h2⟩

theorem pairSearch_mem (palette : Rgb → Rgb → Nat → Nat → Rgb) (tr : Bool) (px : List SrcPixel)
    {choices : List PairChoice} (h : choices ≠ []) : (pairSearch palette tr px choices).1 ∈ choices :=
  (argmin_spec _ _ h).1

theorem below_of_mem_tChoices {a b : Rgb} (ha : Below a 16 16 16) (hb : Below b 16 16 16) {c : PairChoice}
    (hc : c ∈ tChoices a b) : Below c.c0 16 16 16 := by
  obtain ⟨di, -, hc⟩ := List.mem_flatMap.1 hc
  rcases List.mem_pair.1 hc with rfl | rfl
  · exact ha
  · exact hb

theorem below_of_mem_hChoices {a b : Rgb} (ha : Below a 16 16 16) (hb : Below b 16 16 16) {c : PairChoice}
    (hc : c ∈ hChoices a b) : Below c.c0 16 16 16 := by
  obtain ⟨di, -, rfl⟩ := List.mem_map.1 hc
  exact (hOrder_spec ha hb di).2.1

/-- Bit 33 of a T or H codeword is 0 only in an A1 format, where it does not select the mode. -/
theorem diffSet_of_opaqueBit {w : DWord} {tr : Bool} (h : w.getLsbD 33 = opaqueBit f tr) : DiffSet w (isA1 f) := by
  cases ha : isA1 f
  · exact .inr (by simp [h, opaqueBit, ha])
  · exact .inl rfl

theorem selectMode_generateT (f : Format) (px : List SrcPixel) (tr : Bool) (intens : BitVec 2) :
    selectMode (generateT params f px tr intens) (isA1 f) = .t := by
  obtain ⟨h1, h2⟩ := below_clusterColours px tr intens
  have hc0 := below_of_mem_tChoices h1 h2 (pairSearch_mem tPalette tr px (List.cons_ne_nil _ _))
  exact selectMode_t (diffSet_of_opaqueBit getLsbD_packT_opaque) (redSum_packT hc0.1)

theorem selectMode_generateH (f : Format) (px : List SrcPixel) (tr : Bool) (intens : BitVec 2) :
    selectMode (generateH params f px tr intens) (isA1 f) = .h := by
  obtain ⟨h1, h2⟩ := below_clusterColours px tr intens
  have hc0 := below_of_mem_hChoices h1 h2 (pairSearch_mem hPalette tr px (List.cons_ne_nil _ _))
  exact selectMode_h (diffSet_of_opaqueBit getLsbD_packH_opaque) (redSum_packH hc0) (greenSum_packH hc0)

/-! ## Planar (R250 to R253) -/

/-- A clamped solution quantises to at most `m` (R251, R252). -/
theorem planarQuant_le (m : Nat) (v : Int) : planarQuant m (clampInt v 0 (320 * 255)) ≤ m := by
  obtain ⟨hlo, hhi⟩ := clampInt_bounds v (lo := 0) (hi := 320 * 255) (by decide)
  have hmul : (m : Int) * clampInt v 0 (320 * 255) ≤ m * (320 * 255) := mul_le_mul_of_nonneg_left hhi (by omega)
  unfold planarQuant
  rw [mul_assoc]
  omega

theorem selectMode_generatePlanar (px : List SrcPixel) (a1 : Bool) :
    selectMode (generatePlanar px) a1 = .planar := by
  have ho : Below ⟨(planarFitChannel 63 (px.map fun p => (p.rgb.r : Int))).o,
      (planarFitChannel 127 (px.map fun p => (p.rgb.g : Int))).o,
      (planarFitChannel 63 (px.map fun p => (p.rgb.b : Int))).o⟩ 64 128 64 :=
    ⟨Nat.lt_succ_of_le (planarQuant_le 63 _), Nat.lt_succ_of_le (planarQuant_le 127 _),
      Nat.lt_succ_of_le (planarQuant_le 63 _)⟩
  exact selectMode_planar (.inr getLsbD_packP_diff) (redSum_packP ho) (greenSum_packP ho) blueSum_packP

/-! ## ETC1S (R226) -/

/-- A sum of R98 whose delta is 0 is its 5-bit base, and stays in range. -/
theorem not_sumOverflows_of_zero_delta {w : DWord} {lo : Nat} (h : field w (lo + 2) lo = 0) : ¬SumOverflows w lo := by
  have hlt := field_lt w (lo + 7) (lo + 3)
  rw [show lo + 7 + 1 - (lo + 3) = 5 by omega] at hlt
  have hsum : colourSum w lo = field w (lo + 7) (lo + 3) := by simp [colourSum, h, sext3]
  omega

theorem selectMode_packD_zero_delta (b : Rgb) (t0 t1 : Nat) (flip : Bool) (idx : Nat → Nat) (a1 : Bool) :
    selectMode (packD b ⟨0, 0, 0⟩ t0 t1 flip true idx) a1 = .differential := by
  have hdelta : deltaBits 0 = 0 := rfl
  refine selectMode_differential (.inr getLsbD_packD_opaque) (not_sumOverflows_of_zero_delta ?_)
    (not_sumOverflows_of_zero_delta ?_) (not_sumOverflows_of_zero_delta ?_) <;>
    simp (disch := omega) [packD, field_putIdx, field_putField_other, field_putField_same, hdelta]

theorem selectMode_generateEtc1s (px : List SrcPixel) (a1 : Bool) :
    selectMode (generateEtc1s params px) a1 = .differential := by
  unfold generateEtc1s
  exact selectMode_packD_zero_delta _ _ _ _ _ _

/-! ## The mode tags -/

/-- Settles O45: T, H and Planar packing overflow their own channel first, and ETC1S writes deltas of 0. -/
theorem candidateModeTags : Obligations.CandidateModeTags := by
  intro i s t h he
  have hmode (hg : isColourGenerator i = true) : ∃ f px, t.mode = selectMode (generatorWord f px i) (isA1 f) :=
    mode_of_colourGenerator hg h he
  refine ⟨?t, ?h, ?planar, ?etc1s⟩
  case t =>
    rintro ⟨transp, intens, rfl⟩
    obtain ⟨f, px, hm⟩ := hmode rfl
    exact hm.trans (selectMode_generateT f px transp intens)
  case h =>
    rintro ⟨transp, intens, rfl⟩
    obtain ⟨f, px, hm⟩ := hmode rfl
    exact hm.trans (selectMode_generateH f px transp intens)
  case planar =>
    rintro rfl
    obtain ⟨f, px, hm⟩ := hmode rfl
    exact hm.trans (selectMode_generatePlanar px (isA1 f))
  case etc1s =>
    rintro rfl
    obtain ⟨f, px, hm⟩ := hmode rfl
    exact hm.trans (selectMode_generateEtc1s px (isA1 f))

end Sys2Proof.Machine
end

section
/-! PROOFS: which commands write LOSS, ALOSS, MODE and LVALID (spec/44_alpha_eac_driver.md R284). -/

namespace Sys2Proof.Machine

variable {s t : State} {i : Instr}

/-- The commands whose success leaves a loss: ENCODE, SCORE and CAND_*. -/
def Scores (i : Instr) : Prop :=
  isColourGenerator i = true ∨ i = .encode ∨ i = .score ∨ i = .candEac8 ∨ ∃ ch, i = .candEac11 ch

theorem errKind_ne_none (e : CmdError) : errKind e ≠ .none := by cases e <;> nofun

/-- LVALID says that the command succeeded and left a loss. -/
theorem Ends.lvalid_iff (h : Ends s i t) : t.lvalid = true ↔ t.err = .none ∧ Scores i := by
  cases h with
  | failed _ e => simp [errKind_ne_none]
  | extractIo k => simp [errKind_ne_none (.io k)]
  | candidate _ f px hg => simp [Scores, hg, colourResult]
  | _ => simp [Scores, isColourGenerator, cfgState, decodedState]

/-- An error and a command that leaves no loss keep the loss registers, but for SRESET. -/
theorem Ends.keeps_losses (h : Ends s i t) (hi : i ≠ .sreset) (hk : t.err ≠ .none ∨ ¬Scores i) :
    t.loss = s.loss ∧ t.aloss = s.aloss := by
  cases h with
  | sreset => exact absurd rfl hi
  | candidate _ f px hg => simp [Scores, hg] at hk
  | score | scoreAlpha | candEac8 | candEac11 | encode | encodeTwo | encodeAlpha => simp [Scores] at hk
  | _ => simp [cfgState, decodedState]

/-- SCORE keeps MODE too; DECODE alone of the commands that leave no loss sets it. -/
theorem Ends.keeps_mode (h : Ends s i t) (hi : i ≠ .sreset) (hd : i ≠ .decode)
    (hk : t.err ≠ .none ∨ ¬Scores i ∨ i = .score) : t.mode = s.mode := by
  cases h with
  | sreset => exact absurd rfl hi
  | decode => exact absurd rfl hd
  | candidate _ f px hg =>
    have hs : i ≠ .score := by rintro rfl; cases hg
    simp [Scores, hg, hs] at hk
  | candEac8 | candEac11 | encode | encodeTwo | encodeAlpha => simp [Scores] at hk
  | _ => simp [cfgState]

/-- Beside SRESET, ALOSS changes only where alpha is searched or scored. -/
theorem Ends.aloss_writer (h : Ends s i t) (hne : t.aloss ≠ s.aloss) :
    i = .sreset ∨ i = .candEac8 ∨
      ((i = .encode ∨ i = .score) ∧ ∃ f, formatOfCode s.format = some f ∧ isA8 f = true) := by
  cases h with
  | sreset => exact .inl rfl
  | candEac8 => exact .inr (.inl rfl)
  | scoreAlpha f _ _ hf ha => exact .inr (.inr ⟨.inr rfl, f, hf, ha⟩)
  | encodeAlpha f _ _ _ _ _ hf ha => exact .inr (.inr ⟨.inl rfl, f, hf, ha⟩)
  | _ => exact absurd (by simp [cfgState, decodedState, colourResult]) hne

/-- Settles O17: the ends of a command, by what each does to the result registers. -/
theorem resultRegisterWriters : Obligations.ResultRegisterWriters := by
  intro i s t h
  have he := exec_ends h
  exact ⟨he.lvalid_iff, he.keeps_losses, he.keeps_mode, he.aloss_writer⟩

end Sys2Proof.Machine
end

section
/-! PROOFS: the exhaustive EAC searches, and what CAND_EAC8 and CAND_EAC11 leave
(spec/44_alpha_eac_driver.md R271 to R275). -/

namespace Sys2Proof.Machine

variable {s t : State} {f : Format}

/-! ## Codewords as choices -/

section Search
variable {value : Nat → Nat → Nat → Nat → Int} {choices : List EacChoice} {targets : List Int} {c : EacChoice}

/-- The base, multiplier and table of a codeword (spec/30_encoding.md R111). -/
def wordChoice (w : DWord) : EacChoice := ⟨field w 63 56, field w 55 52, field w 51 48⟩

/-- The reconstruction values of a codeword's pixels, in raster order. -/
def wordValues (value : Nat → Nat → Nat → Nat → Int) (w : DWord) : List Int :=
  raster.map fun k =>
    value (wordChoice w).base (wordChoice w).mult (wordChoice w).table (eacIndex w (pixelX k) (pixelY k))

theorem decodeEac11_eq_wordValues (p : Params) (signed : Bool) (w : DWord) :
    decodeEac11 p signed w = wordValues (eac11Value p signed) w := rfl

/-- The fields of a choice fit in the layout of R111. -/
def EacChoice.Fits (c : EacChoice) : Prop := c.base < 256 ∧ c.mult < 16 ∧ c.table < 16

theorem fits_wordChoice (w : DWord) : (wordChoice w).Fits := ⟨field_lt w 63 56, field_lt w 55 52, field_lt w 51 48⟩

theorem mem_eacChoices {bases mults : List Nat} :
    c ∈ eacChoices bases mults ↔ c.base ∈ bases ∧ c.mult ∈ mults ∧ c.table < 16 := by
  obtain ⟨b, m, t⟩ := c
  simp [eacChoices]

theorem eacIndex_lt (w : DWord) (x y : Nat) : eacIndex w x y < 8 := by
  rw [eacIndex_eq_extract]
  exact BitVec.isLt _

/-- The index found for a target is one of the eight, and no value of the choice is nearer. -/
theorem nearestIndex_spec (value : Nat → Nat → Nat → Nat → Int) (c : EacChoice) (x : Int) :
    let found := nearestIndex (choiceValues value c) x
    found.1 < 8 ∧ found.2 = sqDiff x (value c.base c.mult c.table found.1) ∧
      ∀ i < 8, found.2 ≤ sqDiff x (value c.base c.mult c.table i) := by
  have hval : ∀ i < 8, (choiceValues value c).getD i 0 = value c.base c.mult c.table i := by
    intro i hi
    simp [choiceValues, hi]
  obtain ⟨hmem, heq, hle⟩ :=
    argmin_spec 0 (fun i => sqDiff x ((choiceValues value c).getD i 0)) (l := List.range 8) (by decide)
  have hlt := List.mem_range.1 hmem
  exact ⟨hlt, heq.trans (congrArg (sqDiff x) (hval _ hlt)),
    fun i hi => (hle i (List.mem_range.2 hi)).trans_eq (by rw [hval i hi])⟩

/-! ## Losses, pixel by pixel -/

theorem eq_raster_map (h : targets.length = 16) : targets = raster.map fun k => targets.getD k 0 := by
  refine List.ext_getElem (by simp [h, raster]) fun k hk _ => ?_
  simp [raster, hk]

theorem sampleLoss_wordValues (h : targets.length = 16) (value : Nat → Nat → Nat → Nat → Int) (w : DWord) :
    sampleLoss targets (wordValues value w) = (raster.map fun k => sqDiff (targets.getD k 0)
      (value (wordChoice w).base (wordChoice w).mult (wordChoice w).table (eacIndex w (pixelX k) (pixelY k)))).sum := by
  conv_lhs => rw [eq_raster_map h]
  rw [sampleLoss, wordValues, List.zipWith_map, List.zipWith_self]

theorem valuesLoss_eq_sum (h : targets.length = 16) (val : List Int) :
    valuesLoss val targets = (raster.map fun k => (nearestIndex val (targets.getD k 0)).2).sum := by
  conv_lhs => rw [eq_raster_map h]
  rw [valuesLoss, List.map_map]
  rfl

/-- The codeword built from a choice and its nearest indices has the loss the search gave the choice. -/
theorem sampleLoss_packE (h : targets.length = 16) (hc : c.Fits) :
    sampleLoss targets (wordValues value
        (packE c.base c.mult c.table (valuesIndex (choiceValues value c) targets))) =
      valuesLoss (choiceValues value c) targets := by
  obtain ⟨hb, hm, ht⟩ := hc
  have hidx (k : Nat) : valuesIndex (choiceValues value c) targets k < 8 := (nearestIndex_spec value c _).1
  have hword : wordChoice (packE c.base c.mult c.table (valuesIndex (choiceValues value c) targets)) = c := by
    obtain ⟨h1, h2, h3⟩ := fields_packE (idx := valuesIndex (choiceValues value c) targets) hb hm ht
    simp [wordChoice, h1, h2, h3]
  rw [sampleLoss_wordValues h, valuesLoss_eq_sum h, hword]
  refine congrArg List.sum (List.map_congr_left fun k hk => ?_)
  have hk16 : k < 16 := List.mem_range.1 hk
  have hx : pixelX k < 4 := Nat.mod_lt k (by decide)
  have hy : pixelY k < 4 := by simp only [pixelY]; omega
  rw [eacIndex_packE hidx hx hy,
    show 4 * pixelY k + pixelX k = k by simp only [pixelX, pixelY]; omega]
  exact (nearestIndex_spec value c _).2.1.symm

/-! ## The search -/

/-- Every value of `c` is one of the values of `c'`. -/
def Covers (value : Nat → Nat → Nat → Nat → Int) (c' c : EacChoice) : Prop :=
  ∀ i < 8, ∃ j < 8, value c'.base c'.mult c'.table j = value c.base c.mult c.table i

theorem Covers.refl (value : Nat → Nat → Nat → Nat → Int) (c : EacChoice) : Covers value c c :=
  fun i hi => ⟨i, hi, rfl⟩

/-- A choice that covers a codeword's own loses no more than the codeword: each target takes its nearest value. -/
theorem valuesLoss_le_of_covers (h : targets.length = 16) {w : DWord} (hc : Covers value c (wordChoice w)) :
    valuesLoss (choiceValues value c) targets ≤ sampleLoss targets (wordValues value w) := by
  rw [valuesLoss_eq_sum h, sampleLoss_wordValues h]
  refine List.sum_le_sum fun k _ => ?_
  obtain ⟨j, hj, hv⟩ := hc _ (eacIndex_lt w (pixelX k) (pixelY k))
  rw [← hv]
  exact (nearestIndex_spec value c _).2.2 j hj

/-- The search answers a codeword with its own decoded loss. -/
theorem eacSearch_loss (h : targets.length = 16) (hne : choices ≠ []) (hfit : ∀ c ∈ choices, c.Fits) :
    (eacSearch value choices targets).2 = sampleLoss targets (wordValues value (eacSearch value choices targets).1) := by
  obtain ⟨hmem, heq, -⟩ := argmin_spec ⟨0, 0, 0⟩ (fun c => valuesLoss (choiceValues value c) targets) hne
  exact heq.trans (sampleLoss_packE h (hfit _ hmem)).symm

/-- The search answers a loss no greater than that of a codeword whose values some choice covers. -/
theorem eacSearch_le_of_covers (h : targets.length = 16) {w : DWord} (hmem : c ∈ choices)
    (hc : Covers value c (wordChoice w)) :
    (eacSearch value choices targets).2 ≤ sampleLoss targets (wordValues value w) :=
  ((argmin_spec ⟨0, 0, 0⟩ _ (List.ne_nil_of_mem hmem)).2.2 c hmem).trans (valuesLoss_le_of_covers h hc)

end Search

/-! ## The alpha search (R272) -/

/-- The reconstruction value of the alpha search. -/
def alphaValue (base mult table i : Nat) : Int := (eac8Value base mult table i : Int)

theorem alphaLoss_eq_sampleLoss (alpha : List Nat) (w : DWord) :
    alphaLoss alpha (decodeEac8 w) = sampleLoss (alpha.map fun (a : Nat) => (a : Int)) (wordValues alphaValue w) := by
  have hdec : wordValues alphaValue w = (decodeEac8 w).map fun (a : Nat) => (a : Int) := by
    rw [decodeEac8, List.map_map]
    rfl
  rw [hdec, alphaLoss, sampleLoss, List.zipWith_map]

theorem mem_alphaChoices {c : EacChoice} : c ∈ alphaChoices ↔ c.Fits ∧ 1 ≤ c.mult := by
  rw [alphaChoices, mem_eacChoices, EacChoice.Fits]
  have hm : c.mult ∈ (List.range 16).drop 1 ↔ 1 ≤ c.mult ∧ c.mult < 16 := by
    rw [show (List.range 16).drop 1 = List.range' 1 15 from rfl, List.mem_range'_1]
  rw [hm, List.mem_range]
  omega

/-- Row 13 of EAC_MOD holds modifier 0, so multiplier 1 covers the one value of a codeword of multiplier 0. -/
theorem covers_alpha_zero_mult (base table : Nat) : Covers alphaValue ⟨base, 1, 13⟩ ⟨base, 0, table⟩ := by
  refine fun i _ => ⟨4, by decide, ?_⟩
  have hmod : eacMod 13 4 = 0 := rfl
  simp [alphaValue, eac8Value, hmod]

/-- The choices of the alpha search cover every codeword. -/
theorem exists_alphaChoice_covers (w : DWord) : ∃ c ∈ alphaChoices, Covers alphaValue c (wordChoice w) := by
  have hfit := fits_wordChoice w
  by_cases hm : 1 ≤ (wordChoice w).mult
  · exact ⟨_, mem_alphaChoices.2 ⟨hfit, hm⟩, Covers.refl _ _⟩
  · have hw : wordChoice w = ⟨(wordChoice w).base, 0, (wordChoice w).table⟩ := by
      rw [EacChoice.mk.injEq]
      exact ⟨rfl, by omega, rfl⟩
    have hmem : ⟨(wordChoice w).base, 1, 13⟩ ∈ alphaChoices :=
      mem_alphaChoices.2 ⟨⟨hfit.1, (by decide : 1 < 16), (by decide : 13 < 16)⟩, le_rfl⟩
    rw [hw]
    exact ⟨_, hmem, covers_alpha_zero_mult _ _⟩

/-- The alpha codeword found loses no more than any other (R272). -/
theorem alphaSearch_le {alpha : List Nat} (h : alpha.length = 16) (w : DWord) :
    alphaLoss alpha (decodeEac8 (alphaSearch alpha)) ≤ alphaLoss alpha (decodeEac8 w) := by
  have hlen : (alpha.map fun (a : Nat) => (a : Int)).length = 16 := by rw [List.length_map, h]
  obtain ⟨c, hmem, hc⟩ := exists_alphaChoice_covers w
  rw [alphaLoss_eq_sampleLoss, alphaLoss_eq_sampleLoss]
  exact (eacSearch_loss hlen (List.ne_nil_of_mem hmem) fun c hc => (mem_alphaChoices.1 hc).1).ge.trans
    (eacSearch_le_of_covers hlen hmem hc)

/-! ## The 11-bit search (R275) -/

theorem mem_sampleChoices {signed : Bool} {c : EacChoice} :
    c ∈ sampleChoices signed ↔ c.Fits ∧ ¬(signed = true ∧ c.base = 0x80) := by
  simp only [sampleChoices, mem_eacChoices, EacChoice.Fits, List.mem_filter, List.mem_range, Bool.not_eq_true',
    Bool.and_eq_false_iff, beq_eq_false_iff_ne]
  cases signed <;> simp
  tauto

/-- A signed base of −128 is read as −127, the base of byte 0x81 (spec/30_encoding.md R113). -/
theorem covers_signed_skipped (p : Params) (mult table : Nat) :
    Covers (eac11Value p true) ⟨0x81, mult, table⟩ ⟨0x80, mult, table⟩ :=
  fun i hi => ⟨i, hi, rfl⟩

/-- The choices of the 11-bit search cover every codeword. -/
theorem exists_sampleChoice_covers (p : Params) (signed : Bool) (w : DWord) :
    ∃ c ∈ sampleChoices signed, Covers (eac11Value p signed) c (wordChoice w) := by
  have hfit := fits_wordChoice w
  by_cases hskip : signed = true ∧ (wordChoice w).base = 0x80
  · obtain ⟨rfl, hb⟩ := hskip
    have hw : wordChoice w = ⟨0x80, (wordChoice w).mult, (wordChoice w).table⟩ := by rw [← hb]
    have hmem : ⟨0x81, (wordChoice w).mult, (wordChoice w).table⟩ ∈ sampleChoices true :=
      mem_sampleChoices.2 ⟨⟨(by decide : 0x81 < 256), hfit.2⟩, by simp⟩
    rw [hw]
    exact ⟨_, hmem, covers_signed_skipped p _ _⟩
  · exact ⟨_, mem_sampleChoices.2 ⟨hfit, hskip⟩, Covers.refl _ _⟩

theorem sampleTargets_length (p : Params) (signed : Bool) (l : List Nat) :
    (sampleTargets p signed l).length = l.length := List.length_map _

/-- The loss found is that of the codeword found. -/
theorem searchSamples_loss {l : List Nat} (h : l.length = 16) (p : Params) (f : Format) :
    (searchSamples p f l).2 = sampleLoss (sampleTargets p (formatSigned f) l)
      (decodeEac11 p (formatSigned f) (searchSamples p f l).1) := by
  rw [decodeEac11_eq_wordValues]
  exact eacSearch_loss ((sampleTargets_length _ _ _).trans h) (List.ne_nil_of_mem (zero_mem_sampleChoices _))
    fun _ hc => (mem_sampleChoices.1 hc).1

/-- The loss found is at most that of every codeword. -/
theorem searchSamples_le_word {l : List Nat} (h : l.length = 16) (p : Params) (f : Format) (w : DWord) :
    (searchSamples p f l).2 ≤ sampleLoss (sampleTargets p (formatSigned f) l) (decodeEac11 p (formatSigned f) w) := by
  obtain ⟨c, hmem, hc⟩ := exists_sampleChoice_covers p (formatSigned f) w
  rw [decodeEac11_eq_wordValues]
  exact eacSearch_le_of_covers ((sampleTargets_length _ _ _).trans h) hmem hc

/-! ## The commands (R271, R274) -/

/-- A command that refuses the format it finds, or finds none. -/
theorem withFormat_refused {refuses : Format → Bool} {k : Format → Answer}
    (h : ∀ f, formatOfCode s.format = some f → refuses f = true) :
    (withFormat s fun f => if refuses f then raise s .badArgument else k f) = .next (failedWith s .badArgument) := by
  cases hf : formatOfCode s.format with
  | none => exact withFormat_none _ hf
  | some f =>
    rw [withFormat_some _ hf, if_pos (h f hf)]
    rfl

/-- A command that accepts the format it finds. -/
theorem withFormat_accepted {refuses : Format → Bool} {k : Format → Answer} (hf : formatOfCode s.format = some f)
    (h : refuses f = false) :
    (withFormat s fun f => if refuses f then raise s .badArgument else k f) = k f := by
  rw [withFormat_some _ hf, if_neg (by simp [h])]

/-- `u` is `s` but for the byte windows. -/
def OnlyWindows (s u : State) : Prop := u = { s with mem := u.mem }

theorem onlyWindows_putCodeword (s : State) (o : Nat) (w : DWord) : OnlyWindows s (putCodeword s o w) := by
  simp only [OnlyWindows, putCodeword, writeWindow]

theorem OnlyWindows.trans {u v : State} (h : OnlyWindows s u) (h' : OnlyWindows u v) : OnlyWindows s v := by
  unfold OnlyWindows at h h' ⊢
  generalize v.mem = m at h' ⊢
  generalize u.mem = m₀ at h
  rw [h', h]

/-- A success that stores codewords, LOSS and MODE, as an update of the state it found. -/
theorem complete_stored {u : State} (h : OnlyWindows s u) (n : Nat) (m : Mode) :
    complete (setMode (setLoss u n) m) =
      { ended s with lvalid := true, loss := BitVec.ofNat 64 n, mode := m, mem := u.mem } := by
  unfold OnlyWindows at h
  generalize u.mem = m₀ at h ⊢
  rw [h]
  rfl

theorem complete_setAloss (s : State) (al : Nat) :
    complete (setAloss s al) = { complete s with aloss := BitVec.ofNat 64 al } := rfl

/-- A success that stores ALOSS too. -/
theorem complete_storedAlpha {u : State} (h : OnlyWindows s u) (n al : Nat) (m : Mode) :
    complete (setAloss (setMode (setLoss u n) m) al) =
      { ended s with
        lvalid := true, loss := BitVec.ofNat 64 n, aloss := BitVec.ofNat 64 al, mode := m, mem := u.mem } := by
  rw [complete_setAloss, complete_stored h]

/-- MODE and ALOSS are apart. -/
theorem setMode_setAloss (s : State) (al : Nat) (m : Mode) :
    setMode (setAloss s al) m = setAloss (setMode s m) al := rfl

theorem exec_candEac8_ok {alpha : List Nat} (hf : formatOfCode s.format = some f) (ha : isA8 f = true)
    (hr : readAlpha s.mem .blk = .ok alpha) :
    exec .candEac8 s = .next (complete (setAloss (setMode (setLoss (putCodeword s 0 (searchAlpha params alpha).1)
      (searchAlpha params alpha).2) .eac) (searchAlpha params alpha).2)) := by
  rw [← setMode_setAloss]
  have h : exec .candEac8 s = _ := withFormat_accepted (refuses := fun f => !isA8 f) hf (by simp [ha])
  rw [h, hr]
  rfl

/-- CAND_EAC11's own check of FORMAT and CH. -/
theorem candEac11_refuses_iff (ch : Bool) (f : Format) :
    (!isEac11 f || (ch && formatClass f != .rg11)) = !allowedFormat (.candEac11 ch) f := by
  simp only [allowedFormat]
  cases isEac11 f <;> cases ch <;> simp [bne]

theorem exec_candEac11_ok {ch : Bool} {samples : List Nat} (hf : formatOfCode s.format = some f)
    (ha : allowedFormat (.candEac11 ch) f = true) (hr : readSamples s.mem .blk ch.toNat = .ok samples) :
    exec (.candEac11 ch) s = .next (complete (setMode (setLoss (putCodeword s (8 * ch.toNat)
      (searchSamples params f samples).1) (searchSamples params f samples).2) .eac)) := by
  have h : exec (.candEac11 ch) s = _ :=
    withFormat_accepted (refuses := fun f => !isEac11 f || (ch && formatClass f != .rg11)) hf
      (by simp only [candEac11_refuses_iff, ha]; rfl)
  rw [h, hr]
  rfl

theorem searchAlpha_toNat {alpha : List Nat} (h : readAlpha s.mem .blk = .ok alpha) :
    (BitVec.ofNat 64 (searchAlpha params alpha).2).toNat = alphaLoss alpha (decodeEac8 (alphaSearch alpha)) :=
  toNat_ofNat_loss ((searchAlpha_le h).trans (by decide))

theorem searchSamples_toNat {ch : Nat} {l : List Nat} (h : readSamples s.mem .blk ch = .ok l) (f : Format) :
    (BitVec.ofNat 64 (searchSamples params f l).2).toNat = (searchSamples params f l).2 :=
  toNat_ofNat_loss ((searchSamples_le h f).trans (by decide))

/-- Settles O51: each command stores the codeword its search answers, with that codeword's own decoded loss. -/
theorem eacCandidateResults : Obligations.EacCandidateResults := by
  intro s
  refine ⟨fun hf => ?refused8, fun f alpha hf ha hr => ?done8, fun ch => ⟨fun hf => ?refused11,
    fun f samples hf ha hr => ?done11⟩⟩
  case refused8 => exact withFormat_refused (refuses := fun f => !isA8 f) fun f h => by simp [hf f h]
  case done8 =>
    exact ⟨(putCodeword s 0 (searchAlpha params alpha).1).mem, BitVec.ofNat 64 (searchAlpha params alpha).2,
      (exec_candEac8_ok hf ha hr).trans (congrArg _ (complete_storedAlpha (onlyWindows_putCodeword _ _ _) _ _ _)),
      searchAlpha_toNat hr, holdsCodeword_putCodeword s 0 _, sameOutside_putCodeword s 0 _⟩
  case refused11 =>
    exact withFormat_refused (refuses := fun f => !isEac11 f || (ch && formatClass f != .rg11))
      fun f h => by simp only [candEac11_refuses_iff, hf f h]; rfl
  case done11 =>
    exact ⟨(putCodeword s (8 * ch.toNat) (searchSamples params f samples).1).mem,
      BitVec.ofNat 64 (searchSamples params f samples).2, (searchSamples params f samples).1,
      (exec_candEac11_ok hf ha hr).trans (congrArg _ (complete_stored (onlyWindows_putCodeword _ _ _) _ _)), rfl,
      (searchSamples_toNat hr f).trans (searchSamples_loss (readSamples_ok hr).1 params f),
      holdsCodeword_putCodeword s _ _, sameOutside_putCodeword s _ _⟩

/-- Settles O52: the choices leave out multiplier 0 only, and multiplier 1 in row 13 gives its one value. -/
theorem candEac8IsOptimal : Obligations.CandEac8IsOptimal := by
  intro s t alpha h he hr w
  rcases candEac8_next h with ⟨rfl, -⟩ | ⟨f, alpha', -, -, hr', rfl⟩
  · cases he
  · obtain rfl : alpha = alpha' := Except.ok.inj (hr.symm.trans hr')
    exact (searchAlpha_toNat hr).trans_le (alphaSearch_le (readAlpha_ok hr).1 w)

/-- Settles O53: the choices leave out the signed base of −128 only, which reads as the base of −127. -/
theorem candEac11IsOptimal : Obligations.CandEac11IsOptimal := by
  intro ch s t f samples h he hf hr w
  rcases candEac11_next h with ⟨rfl, -⟩ | ⟨f', samples', hf', -, hr', rfl⟩
  · cases he
  · obtain rfl : f = f' := Option.some.inj (hf.symm.trans hf')
    obtain rfl : samples = samples' := Except.ok.inj (hr.symm.trans hr')
    exact (searchSamples_toNat hr f).trans_le (searchSamples_le_word (readSamples_ok hr).1 params f w)

end Sys2Proof.Machine
end

section
/-! PROOFS: the driver's mode search, and what ENCODE leaves (spec/44_alpha_eac_driver.md R277 to R285). -/

namespace Sys2Proof.Machine

variable {s t : State} {f : Format} {px : List SrcPixel} {m m' : List Host.Cell}

/-! ## ENCODE by class (R277) -/

/-- The driver's search in a colour format (R279, R280). -/
def colourSearch (f : Format) (px : List SrcPixel) : Scratch :=
  if isA1 f then punchTree params f px else colourTree params f px

theorem exec_encode (hf : formatOfCode s.format = some f) : exec .encode s = encodeBlock params s f :=
  withFormat_some _ hf

theorem exec_encode_colour (hf : formatOfCode s.format = some f) (hc : formatClass f = .rgb ∨ formatClass f = .a1) :
    exec .encode s = withOperand (readSource s.mem f) fun px => .next (complete (setScratch s 0 (colourSearch f px))) := by
  rw [exec_encode hf]
  rcases hc with hc | hc <;> simp only [encodeBlock, colourSearch, isA1, hc] <;> rfl

theorem exec_encode_a8 (hf : formatOfCode s.format = some f) (hc : formatClass f = .a8) :
    exec .encode s = withOperand (readBoth (readAlpha s.mem .blk) (readSource s.mem f)) fun r =>
      .next (complete (setAloss (setScratch (putCodeword s 0 (searchAlpha params r.1).1) 8 (colourSearch f r.2))
        (searchAlpha params r.1).2)) := by
  rw [exec_encode hf]
  simp only [encodeBlock, colourSearch, isA1, hc]
  rfl

theorem exec_encode_r11 (hf : formatOfCode s.format = some f) (hc : formatClass f = .r11) :
    exec .encode s = withOperand (readSamples s.mem .blk 0) fun l =>
      .next (complete (setMode (setLoss (putCodeword s 0 (searchSamples params f l).1) (searchSamples params f l).2)
        .eac)) := by
  rw [exec_encode hf]
  simp only [encodeBlock, hc]
  rfl

theorem exec_encode_rg11 (hf : formatOfCode s.format = some f) (hc : formatClass f = .rg11) :
    exec .encode s = withOperand (readBoth (readSamples s.mem .blk 0) (readSamples s.mem .blk 1)) fun r =>
      .next (complete (setMode (setLoss (putCodeword (putCodeword s 0 (searchSamples params f r.1).1) 8
        (searchSamples params f r.2).1) ((searchSamples params f r.1).2 + (searchSamples params f r.2).2)) .eac)) := by
  rw [exec_encode hf]
  simp only [encodeBlock, hc]
  rfl

theorem readBoth_values {α β : Type} (a : α) (b : β) : readBoth (.ok a) (.ok b) = .ok (a, b) := rfl

/-! ## The driver's lists (R279, R280, R283) -/

/-- The candidates a colour search always runs. -/
def baseCandidates (f : Format) (px : List SrcPixel) : List Candidate :=
  if isA1 f then punchPass true ++ (if px.any SrcPixel.transparent then [] else punchPass false) else treeCandidates f

theorem baseCandidates_ne_nil (f : Format) (px : List SrcPixel) : baseCandidates f px ≠ [] := by
  unfold baseCandidates
  split
  · exact List.cons_ne_nil _ _
  · exact List.cons_ne_nil _ _

/-- The list as commands is the one the statements write out. -/
theorem baseCandidates_commands (f : Format) (px : List SrcPixel) :
    (baseCandidates f px).map candidateCommand = triedCommands f px := by
  unfold baseCandidates triedCommands
  split
  · split <;> rfl
  · by_cases hf : f = .etc1 <;> simp [treeCandidates, idCandidates, candidateCommand, hf]

/-- The scratch after the candidates that always run. -/
def baseSearch (f : Format) (px : List SrcPixel) : Scratch :=
  runCandidates params f px scratchStart (baseCandidates f px)

/-- The harder re-run of a colour search; A1 formats have none. -/
def rerunCandidates (f : Format) (px : List SrcPixel) : List Candidate :=
  if isA1 f then [] else harderCandidates f (baseSearch f px).bestMode

theorem runCandidates_nil (p : Params) (f : Format) (px : List SrcPixel) (sc : Scratch) :
    runCandidates p f px sc [] = sc := rfl

/-- Every colour search is the base list and then the re-run. -/
theorem colourSearch_eq (f : Format) (px : List SrcPixel) :
    colourSearch f px = runCandidates params f px (baseSearch f px) (rerunCandidates f px) := by
  unfold colourSearch rerunCandidates baseSearch baseCandidates
  cases isA1 f
  · simp only [Bool.false_eq_true, if_false, colourTree]
  · simp only [if_true, punchTree, runCandidates_nil]

/-- The harder candidates are of the mode that has won, at one of the other two intensities. -/
theorem mem_harderCandidates {c : Candidate} {m : Mode} (h : c ∈ harderCandidates f m) :
    f ≠ .etc1 ∧ ∃ n ∈ [(1 : BitVec 2), 2], (c = .t false n ∧ m = .t) ∨ (c = .h false n ∧ m = .h) := by
  by_cases hf : f = .etc1
  · subst hf
    cases m <;> cases h
  · refine ⟨hf, ?_⟩
    cases m <;> simp [harderCandidates, hf] at h
    case t => rcases h with rfl | rfl <;> simp
    case h => rcases h with rfl | rfl <;> simp

theorem mem_rerunCandidates {c : Candidate} (h : c ∈ rerunCandidates f px) :
    isA1 f = false ∧ c ∈ harderCandidates f (baseSearch f px).bestMode := by
  unfold rerunCandidates at h
  split at h
  · cases h
  · rename_i ha
    exact ⟨by simpa using ha, h⟩

/-! ## What the search leaves (R278) -/

/-- The scratch holds a codeword, its own decode's loss and its sub-mode. -/
def Scored (f : Format) (px : List SrcPixel) (sc : Scratch) : Prop :=
  sc.bestLoss = some (oracleLoss f px sc.best) ∧ sc.bestMode = selectMode sc.best (isA1 f)

/-- The candidates that always run leave one of theirs: NONE exceeds every loss (spec/10_state.md R46). -/
theorem baseSearch_spec (f : Format) (px : List SrcPixel) :
    Scored f px (baseSearch f px) ∧
      ∃ c ∈ baseCandidates f px, (baseSearch f px).best = candidateWord params f px c := by
  rcases runCandidates_cases params f px scratchStart (baseCandidates f px) with h | ⟨c, hc, h⟩
  · obtain ⟨b, hb, -⟩ :=
      runCandidates_le params f px scratchStart (baseCandidates f px) (.inl (baseCandidates_ne_nil f px))
    rw [h] at hb
    cases hb
  · rw [baseSearch, h]
    exact ⟨⟨rfl, rfl⟩, c, hc, rfl⟩

/-- A colour search leaves what the base list left, or a candidate of the re-run. -/
theorem colourSearch_cases (f : Format) (px : List SrcPixel) :
    Scored f px (colourSearch f px) ∧ (colourSearch f px = baseSearch f px ∨
      ∃ c ∈ rerunCandidates f px, (colourSearch f px).best = candidateWord params f px c) := by
  rw [colourSearch_eq]
  rcases runCandidates_cases params f px (baseSearch f px) (rerunCandidates f px) with h | ⟨c, hc, h⟩
  · rw [h]
    exact ⟨(baseSearch_spec f px).1, .inl rfl⟩
  · rw [h]
    exact ⟨⟨rfl, rfl⟩, .inr ⟨c, hc, rfl⟩⟩

theorem scratchLoss_eq {sc : Scratch} (h : Scored f px sc) : scratchLoss sc = oracleLoss f px sc.best := by
  rw [scratchLoss, h.1]
  rfl

/-- The loss left is at most that of every candidate of the base list and of the re-run. -/
theorem scratchLoss_colourSearch_le (f : Format) (px : List SrcPixel) :
    ∀ c, c ∈ baseCandidates f px ∨ c ∈ rerunCandidates f px →
      scratchLoss (colourSearch f px) ≤ oracleLoss f px (candidateWord params f px c) := by
  obtain ⟨b, hb, hbase, -⟩ :=
    runCandidates_le params f px scratchStart (baseCandidates f px) (.inl (baseCandidates_ne_nil f px))
  have hsome : (baseSearch f px).bestLoss ≠ none := by simp [baseSearch, hb]
  obtain ⟨b', hb', hrerun, hle⟩ := runCandidates_le params f px (baseSearch f px) (rerunCandidates f px) (.inr hsome)
  have hloss : scratchLoss (colourSearch f px) = b' := by simp [scratchLoss, colourSearch_eq, hb']
  intro c hc
  rw [hloss]
  rcases hc with hc | hc
  · exact (hle b hb).trans (hbase c hc)
  · exact hrerun c hc

/-- The re-run keeps the mode that has won: T candidates build T codewords and H candidates H ones (R283). -/
theorem colourSearch_bestMode (f : Format) (px : List SrcPixel) :
    (colourSearch f px).bestMode = (baseSearch f px).bestMode := by
  obtain ⟨⟨-, hmode⟩, h | ⟨c, hc, hw⟩⟩ := colourSearch_cases f px
  · rw [h]
  · obtain ⟨-, n, -, ⟨rfl, hb⟩ | ⟨rfl, hb⟩⟩ := mem_harderCandidates (mem_rerunCandidates hc).2
    · rw [hmode, hw, hb]
      exact selectMode_generateT f px false n
    · rw [hmode, hw, hb]
      exact selectMode_generateH f px false n

/-- A command of the driver's lists (R279, R280, R283). -/
def Listed (f : Format) (px : List SrcPixel) (i : Instr) : Prop :=
  i ∈ triedCommands f px ∨
    (isA1 f = false ∧ f ≠ .etc1 ∧ i ∈ [.candT false 1, .candT false 2, .candH false 1, .candH false 2])

theorem listed_of_base {c : Candidate} (h : c ∈ baseCandidates f px) : Listed f px (candidateCommand c) :=
  .inl (baseCandidates_commands f px ▸ List.mem_map_of_mem h)

theorem listed_of_rerun {c : Candidate} (h : c ∈ rerunCandidates f px) : Listed f px (candidateCommand c) := by
  obtain ⟨ha, hc⟩ := mem_rerunCandidates h
  obtain ⟨hf, n, hn, hc⟩ := mem_harderCandidates hc
  refine .inr ⟨ha, hf, ?_⟩
  rcases List.mem_pair.1 hn with rfl | rfl <;> rcases hc with ⟨rfl, -⟩ | ⟨rfl, -⟩ <;> simp [candidateCommand]

/-- The codeword left is one that a listed command builds. -/
theorem colourSearch_best (f : Format) (px : List SrcPixel) :
    ∃ i, Listed f px i ∧ (colourSearch f px).best = generatorWord f px i := by
  obtain ⟨-, h | ⟨c, hc, hw⟩⟩ := colourSearch_cases f px
  · obtain ⟨-, c, hc, hw⟩ := baseSearch_spec f px
    exact ⟨_, listed_of_base hc, by rw [h, hw, candidateWord_eq]⟩
  · exact ⟨_, listed_of_rerun hc, by rw [hw, candidateWord_eq]⟩

theorem scratchLoss_toNat (h : readSource s.mem f = .ok px) :
    (BitVec.ofNat 64 (scratchLoss (colourSearch f px))).toNat = scratchLoss (colourSearch f px) := by
  rw [scratchLoss_eq (colourSearch_cases f px).1]
  exact toNat_ofNat_loss ((oracleLoss_le h _).trans (by decide))

/-! ## ENCODE in a colour format (R277 to R281) -/

theorem formatClass_of_colour (hc : isColour f = true) :
    (isA8 f = false ∧ (formatClass f = .rgb ∨ formatClass f = .a1)) ∨ (isA8 f = true ∧ formatClass f = .a8) := by
  unfold isColour at hc
  cases h : formatClass f <;> simp [h, isA8] at hc ⊢

/-- Two codewords side by side fill CW. -/
theorem twoCodewords (s : State) (w v : DWord) :
    HoldsCodeword (putCodeword (putCodeword s 0 w) 8 v).mem 0 w ∧
    HoldsCodeword (putCodeword (putCodeword s 0 w) 8 v).mem 8 v ∧
    SameOutside s.mem (putCodeword (putCodeword s 0 w) 8 v).mem 0x080 16 :=
  ⟨(holdsCodeword_putCodeword s 0 w).of_sameOutside (sameOutside_putCodeword _ 8 v) (.inl (by decide)),
    holdsCodeword_putCodeword _ 8 v,
    (sameOutside_putCodeword s 0 w).trans (sameOutside_putCodeword _ 8 v) (by decide) (by decide)⟩

theorem onlyWindows_twoCodewords (s : State) (w v : DWord) : OnlyWindows s (putCodeword (putCodeword s 0 w) 8 v) :=
  (onlyWindows_putCodeword s 0 w).trans (onlyWindows_putCodeword _ 8 v)

/-- Settles O54: the search leaves a listed command's codeword with its own loss and sub-mode. -/
theorem encodeColourResult : Obligations.EncodeColourResult := by
  intro s f px alpha hf hc hpx hal o listed
  obtain ⟨i, hi, hw⟩ := colourSearch_best f px
  obtain ⟨hsc, -⟩ := colourSearch_cases f px
  have hloss := (scratchLoss_toNat hpx).trans (scratchLoss_eq hsc)
  rcases formatClass_of_colour hc with ⟨ha, hclass⟩ | ⟨ha, hclass⟩
  · have ho : o = 0 := by simp [o, ha]
    rw [exec_encode_colour hf hclass, hpx, withOperand_ok, setScratch, hsc.2,
      complete_stored (onlyWindows_putCodeword s 0 _), ho]
    exact ⟨(putCodeword s 0 (colourSearch f px).best).mem, (colourSearch f px).best, _, s.aloss, i, rfl, hi, hw, hloss,
      holdsCodeword_putCodeword s 0 _, sameOutside_putCodeword s 0 _, by rw [if_neg (by simp [ha])]⟩
  · have ho : o = 8 := by simp [o, ha]
    have halpha := hal ha
    obtain ⟨hfirst, hsecond, hframe⟩ := twoCodewords s (searchAlpha params alpha).1 (colourSearch f px).best
    rw [exec_encode_a8 hf hclass, halpha, hpx, readBoth_values, withOperand_ok, setScratch, hsc.2,
      complete_storedAlpha (onlyWindows_twoCodewords s _ _), ho]
    exact ⟨_, (colourSearch f px).best, _, _, i, rfl, hi, hw, hloss, hsecond, hframe,
      by rw [if_pos ha]; exact ⟨hfirst, searchAlpha_toNat halpha⟩⟩

/-! ## ENCODE in an 11-bit format (R282) -/

theorem formatClass_of_not_colour (hc : isColour f = false) : formatClass f = .r11 ∨ formatClass f = .rg11 := by
  unfold isColour at hc
  cases h : formatClass f <;> simp [h] at hc ⊢

/-- Settles O55: one search for each channel, and the sum of two losses fits in LOSS. -/
theorem encodeSampleResult : Obligations.EncodeSampleResult := by
  intro s f s0 s1 hf hc h0 h1 found
  rcases formatClass_of_not_colour hc with hclass | hclass
  · rw [exec_encode_r11 hf hclass, h0, withOperand_ok, complete_stored (onlyWindows_putCodeword s 0 _)]
    refine ⟨_, _, rfl, holdsCodeword_putCodeword s 0 _, ?_⟩
    rw [if_neg (by simp [hclass])]
    exact ⟨searchSamples_toNat h0 f, sameOutside_putCodeword s 0 _⟩
  · obtain ⟨hfirst, hsecond, hframe⟩ := twoCodewords s (found s0).1 (found s1).1
    have hloss : (found s0).2 + (found s1).2 ≤ 137434759200 :=
      Nat.add_le_add (searchSamples_le h0 f) (searchSamples_le (h1 hclass) f)
    rw [exec_encode_rg11 hf hclass, h0, h1 hclass, readBoth_values, withOperand_ok,
      complete_stored (onlyWindows_twoCodewords s _ _)]
    refine ⟨_, _, rfl, hfirst, ?_⟩
    rw [if_pos hclass]
    exact ⟨toNat_ofNat_loss hloss, hsecond, hframe⟩

/-! ## The best of the list (R278 to R280, R283) -/

/-- The command of a candidate runs in the format. -/
def Runs (f : Format) (c : Candidate) : Prop :=
  WellFormed (candidateCommand c) = true ∧ allowedFormat (candidateCommand c) f = true

/-- In an A1 format every candidate of a legal intensity runs. -/
theorem runs_of_a1 (ha : isA1 f = true) {c : Candidate} (hw : WellFormed (candidateCommand c) = true) : Runs f c := by
  have hc : isColour f = true := by
    simp only [isA1, beq_iff_eq] at ha
    simp [isColour, ha]
  have he : isEtc2Colour f = true := by
    have hne : f ≠ .etc1 := by rintro rfl; cases ha
    simp [isEtc2Colour, hc, hne]
  refine ⟨hw, ?_⟩
  cases c <;> simp [candidateCommand, allowedFormat, hc, he, ha]

/-- In an ETC2 colour format every opaque candidate of a legal intensity runs. -/
theorem runs_of_etc2 (hc : isColour f = true) (hf : f ≠ .etc1) {n : BitVec 2} (hn : intensityLegal n = true) :
    Runs f .planar ∧ Runs f (.t false n) ∧ Runs f (.h false n) := by
  have he : isEtc2Colour f = true := by simp [isEtc2Colour, hc, hf]
  simp [Runs, candidateCommand, WellFormed, allowedFormat, he, hn]

/-- The four Individual/Differential candidates run in every colour format. -/
theorem runs_of_id (hc : isColour f = true) {c : Candidate} (h : c ∈ idCandidates false) : Runs f c := by
  simp only [idCandidates, List.mem_cons, List.not_mem_nil, or_false] at h
  rcases h with rfl | rfl | rfl | rfl <;> exact ⟨rfl, by simp [candidateCommand, allowedFormat, hc]⟩

theorem runs_of_base (hc : isColour f = true) {c : Candidate} (h : c ∈ baseCandidates f px) : Runs f c := by
  unfold baseCandidates at h
  split at h
  · rename_i ha
    have hw : ∀ tr, ∀ c ∈ punchPass tr, WellFormed (candidateCommand c) = true := by decide
    rcases List.mem_append.1 h with h | h
    · exact runs_of_a1 ha (hw _ c h)
    · split at h
      · cases h
      · exact runs_of_a1 ha (hw _ c h)
  · rcases List.mem_append.1 h with h | h
    · exact runs_of_id hc h
    · by_cases hf : f = .etc1
      · simp [hf] at h
      · obtain ⟨hp, ht, hh⟩ := runs_of_etc2 hc hf (n := 0) rfl
        simp only [hf, beq_iff_eq, if_false, List.mem_cons, List.not_mem_nil, or_false] at h
        rcases h with rfl | rfl | rfl <;> assumption

theorem exec_candidate (hf : formatOfCode s.format = some f) (hpx : readSource s.mem f = .ok px) {c : Candidate}
    (hr : Runs f c) : ∃ u, exec (candidateCommand c) s = .next u ∧
      u.loss.toNat = oracleLoss f px (candidateWord params f px c) := by
  have hg : isColourGenerator (candidateCommand c) = true := by cases c <;> rfl
  obtain ⟨m, loss, he, hl, -, -⟩ := (colourCandidateResult _ s hg hr.1).2 f px hf hr.2 hpx
  exact ⟨_, he, by rw [hl, candidateWord_eq]; rfl⟩

/-- What ENCODE leaves in LOSS and MODE in a colour format. -/
theorem loss_mode_of_encode (hf : formatOfCode s.format = some f) (hc : isColour f = true)
    (hpx : readSource s.mem f = .ok px) (h : exec .encode s = .next t) :
    t.loss.toNat = scratchLoss (colourSearch f px) ∧ t.mode = (colourSearch f px).bestMode := by
  rcases formatClass_of_colour hc with ⟨-, hclass⟩ | ⟨-, hclass⟩
  · rw [exec_encode_colour hf hclass, hpx] at h
    cases h
    exact ⟨scratchLoss_toNat hpx, rfl⟩
  · rw [exec_encode_a8 hf hclass] at h
    obtain ⟨⟨alpha, px'⟩, hr, h⟩ := withOperand_next h
    obtain rfl : px = px' := Except.ok.inj (hpx.symm.trans (readBoth_ok hr).2)
    cases h
    exact ⟨scratchLoss_toNat hpx, rfl⟩

/-- Settles O56: the search keeps the least loss of its list, and the re-run is of the mode that ENCODE reports. -/
theorem encodeBestOfTried : Obligations.EncodeBestOfTried := by
  intro s t f px hf hc hpx h
  obtain ⟨hloss, hmode⟩ := loss_mode_of_encode hf hc hpx h
  have hbest (c : Candidate) (hr : Runs f c) (hl : c ∈ baseCandidates f px ∨ c ∈ rerunCandidates f px) :
      ∃ u, exec (candidateCommand c) s = .next u ∧ t.loss.toNat ≤ u.loss.toNat := by
    obtain ⟨u, he, hu⟩ := exec_candidate hf hpx hr
    exact ⟨u, he, by rw [hloss, hu]; exact scratchLoss_colourSearch_le f px c hl⟩
  refine ⟨fun i hi => ?tried, fun ha hne n hn => ?rerun⟩
  case tried =>
    rw [← baseCandidates_commands] at hi
    obtain ⟨c, hc', rfl⟩ := List.mem_map.1 hi
    exact hbest c (runs_of_base hc hc') (.inl hc')
  case rerun =>
    have hlist : rerunCandidates f px = harderCandidates f t.mode := by
      rw [rerunCandidates, if_neg (by simp [ha]), hmode, colourSearch_bestMode]
    have hlegal : ∀ n ∈ [(1 : BitVec 2), 2], intensityLegal n = true := by decide
    obtain ⟨-, ht, hh⟩ := runs_of_etc2 hc hne (hlegal n hn)
    refine ⟨fun hm => hbest (.t false n) ht (.inr ?_), fun hm => hbest (.h false n) hh (.inr ?_)⟩
    all_goals
      rw [hlist, hm]
      rcases List.mem_pair.1 hn with rfl | rfl <;> simp [harderCandidates, hne]

/-! ## ENCODE as a function of FORMAT and BLK (R285) -/

/-- Two memories hold the same bytes of BLK. -/
def SameBlock (m m' : List Host.Cell) : Prop := ∀ a, windowAt a = some .blk → memRead m a = memRead m' a

theorem SameBlock.readBytes (h : SameBlock m m') {l : List Nat} (hl : ∀ a ∈ l, windowAt a = some .blk) :
    readBytes m l = readBytes m' l := readBytes_congr m m' l fun a ha => h a (hl a ha)

theorem SameBlock.readRgb (h : SameBlock m m') : readRgb m .blk = readRgb m' .blk := by
  unfold Machine.readRgb readWith
  rw [readRgb_offsets, h.readBytes (by decide)]

theorem SameBlock.readAlpha (h : SameBlock m m') : readAlpha m .blk = readAlpha m' .blk := by
  unfold Machine.readAlpha
  rw [readAlpha_offsets, h.readBytes (by decide)]

theorem SameBlock.readSamples (h : SameBlock m m') {ch : Nat} (hch : ch < 2) :
    readSamples m .blk ch = readSamples m' .blk ch := by
  have hl : ∀ ch < 2, ∀ a ∈ sampleOffsets .blk ch, windowAt a = some .blk := by decide
  unfold Machine.readSamples readWith
  simp only [readSamples_offsets]
  rw [h.readBytes (hl ch hch)]

theorem SameBlock.readSource (h : SameBlock m m') (f : Format) : readSource m f = readSource m' f := by
  unfold Machine.readSource
  rw [h.readRgb, h.readAlpha]

/-- The first `n` bytes of CW hold values, and `m'` has the same ones as `m`. -/
def SameCodewords (n : Nat) (m m' : List Host.Cell) : Prop :=
  ∀ j < n, memRead m' (0x080 + j) = memRead m (0x080 + j) ∧ (memRead m (0x080 + j)).isSome = true

theorem sameCodewords_of_holds {w : DWord} (h : HoldsCodeword m 0 w) (h' : HoldsCodeword m' 0 w) :
    SameCodewords 8 m m' := by
  intro j hj
  have hb : windowBase .cw + 0 + j = 0x080 + j := rfl
  rw [← hb, h j hj, h' j hj]
  exact ⟨rfl, rfl⟩

theorem sameCodewords_of_holds_two {w v : DWord} (h : HoldsCodeword m 0 w ∧ HoldsCodeword m 8 v)
    (h' : HoldsCodeword m' 0 w ∧ HoldsCodeword m' 8 v) : SameCodewords 16 m m' := by
  intro j hj
  by_cases hj8 : j < 8
  · exact sameCodewords_of_holds h.1 h'.1 j hj8
  · have hb : windowBase .cw + 8 + (j - 8) = 0x080 + j := by
      have : windowBase .cw = 0x080 := rfl
      omega
    rw [← hb, h.2 _ (by omega), h'.2 _ (by omega)]
    exact ⟨rfl, rfl⟩

/-- The two states hold the same results of an ENCODE in the format. -/
def SameResults (f : Format) (t t' : State) : Prop :=
  t'.loss = t.loss ∧ t'.mode = t.mode ∧ (isA8 f = true → t'.aloss = t.aloss) ∧
    SameCodewords (blockBytes f) t.mem t'.mem

@[simp] theorem setScratch_mem (s : State) (o : Nat) (sc : Scratch) :
    (setScratch s o sc).mem = (putCodeword s o sc.best).mem := by
  rw [setScratch, setMode_mem, setLoss_mem]

/-- Two commands that go on from one operand to the same results: where one answers, so does the other. -/
theorem sameResults_of_operand {α : Type} {r : Except Fault α} {k k' : α → State}
    (h : (withOperand r fun a => .next (k a)) = .next t) (hk : ∀ a, SameResults f (k a) (k' a)) :
    ∃ t', (withOperand r fun a => .next (k' a)) = .next t' ∧ SameResults f t t' := by
  obtain ⟨a, rfl, h⟩ := withOperand_next h
  cases h
  exact ⟨k' a, rfl, hk a⟩

/-- Settles O57: ENCODE reads FORMAT and BLK only, and each class stores what it computes from them. -/
theorem encodeDeterminism : Obligations.EncodeDeterminism := by
  intro s s' t f hf hfmt hblk h
  have hf' : formatOfCode s'.format = some f := hfmt ▸ hf
  have hsame : SameBlock s.mem s'.mem := hblk
  have hone (w : DWord) : SameCodewords 8 (putCodeword s 0 w).mem (putCodeword s' 0 w).mem :=
    sameCodewords_of_holds (holdsCodeword_putCodeword s 0 w) (holdsCodeword_putCodeword s' 0 w)
  have htwo (w v : DWord) :
      SameCodewords 16 (putCodeword (putCodeword s 0 w) 8 v).mem (putCodeword (putCodeword s' 0 w) 8 v).mem := by
    obtain ⟨h0, h8, -⟩ := twoCodewords s w v
    obtain ⟨h0', h8', -⟩ := twoCodewords s' w v
    exact sameCodewords_of_holds_two ⟨h0, h8⟩ ⟨h0', h8'⟩
  suffices hres : ∃ t', exec .encode s' = .next t' ∧ SameResults f t t' by
    obtain ⟨t', he, hl, hm, ha, hcw⟩ := hres
    exact ⟨t', he, hl, hm, ha, hcw⟩
  cases hc : formatClass f
  case rgb | a1 =>
    rw [exec_encode_colour hf (by simp [hc]), hsame.readSource] at h
    rw [exec_encode_colour hf' (by simp [hc])]
    refine sameResults_of_operand h fun px => ⟨rfl, rfl, by simp [isA8, hc], ?_⟩
    simpa only [blockBytes, hc, complete_mem, setAloss_mem, setScratch_mem, setMode_mem, setLoss_mem] using hone _
  case a8 =>
    rw [exec_encode_a8 hf hc, hsame.readSource, hsame.readAlpha] at h
    rw [exec_encode_a8 hf' hc]
    refine sameResults_of_operand h fun r => ⟨rfl, rfl, fun _ => rfl, ?_⟩
    simpa only [blockBytes, hc, complete_mem, setAloss_mem, setScratch_mem, setMode_mem, setLoss_mem] using htwo _ _
  case r11 =>
    rw [exec_encode_r11 hf hc, hsame.readSamples (by decide)] at h
    rw [exec_encode_r11 hf' hc]
    refine sameResults_of_operand h fun l => ⟨rfl, rfl, by simp [isA8, hc], ?_⟩
    simpa only [blockBytes, hc, complete_mem, setAloss_mem, setScratch_mem, setMode_mem, setLoss_mem] using hone _
  case rg11 =>
    rw [exec_encode_rg11 hf hc, hsame.readSamples (ch := 0) (by decide), hsame.readSamples (ch := 1) (by decide)] at h
    rw [exec_encode_rg11 hf' hc]
    refine sameResults_of_operand h fun r => ⟨rfl, rfl, by simp [isA8, hc], ?_⟩
    simpa only [blockBytes, hc, complete_mem, setAloss_mem, setScratch_mem, setMode_mem, setLoss_mem] using htwo _ _

end Sys2Proof.Machine
end

section
/-! PROOFS: NOP, SRESET, CFG and the PKM header (spec/45_control_container.md R301 to R307). -/

namespace Sys2Proof.Machine

variable {s t : State} {f : Format}

/-! ## NOP and SRESET (R301, R302) -/

/-- STATUS[7:0] after a normal completion that leaves LVALID and ACCERR clear; MODE lies above (spec/10_state.md R29). -/
theorem statusWord_low_of_ended (ha : s.accErr = false) (hl : s.lvalid = false) :
    statusWord (ended s) &&& 0xFF = 0x02 := by
  simp only [statusWord, ended, isBusy, ha, hl]
  cases s.mode <;> rfl

/-- Settles O22: both commands complete what they write to the registers, and NOP writes LVALID only. -/
theorem nopAndSresetResults : Obligations.NopAndSresetResults := by
  refine fun s => ⟨rfl, fun ha t ht => ?_, rfl⟩
  rw [execNop_next ht, regRead_reg (r := .status) rfl]
  exact statusWord_low_of_ended (s := clearLvalid s) ha rfl

/-! ## Image sizes (R304) -/

/-- A size that `checkImage` accepts, as the unsigned value of its register. -/
def SizeLegal (v : Word) : Prop := 1 ≤ v.toNat ∧ v.toNat ≤ 65532

/-- A size in range has the same value read as signed. -/
theorem signedReg_of_sizeLegal {v : Word} (h : SizeLegal v) : signedReg v = v.toNat := by
  obtain ⟨-, hle⟩ := h
  exact BitVec.toInt_eq_toNat_of_lt (by omega)

theorem sizeLegal_iff {v : Word} : SizeLegal v ↔ 1 ≤ signedReg v ∧ signedReg v ≤ 65532 := by
  simp only [SizeLegal, signedReg, BitVec.toInt_eq_toNat_cond]
  split <;> omega

theorem imageError_signedReg_eq_none {w h : Word} :
    imageError (signedReg w) (signedReg h) = none ↔ SizeLegal w ∧ SizeLegal h := by
  rw [imageError_eq_none, sizeLegal_iff, sizeLegal_iff, and_assoc]

/-- `round4` on sizes (spec/10_state.md R33). -/
def paddedSize (n : Nat) : Nat := 4 * ((n + 3) / 4)

theorem round4_eq_paddedSize (n : Nat) : round4 n = (paddedSize n : Int) := round4_natCast n

/-- The padded size as the register holds it. -/
theorem ofInt_round4_signedReg {v : Word} (h : SizeLegal v) :
    BitVec.ofInt 32 (round4 (signedReg v)) = BitVec.ofNat 32 (paddedSize v.toNat) := by
  rw [signedReg_of_sizeLegal h, round4_eq_paddedSize, BitVec.ofInt_natCast]

theorem toNat_ofNat_paddedSize {n : Nat} (h : n ≤ 65532) : (BitVec.ofNat 32 (paddedSize n)).toNat = paddedSize n := by
  rw [BitVec.toNat_ofNat, paddedSize]
  omega

/-- The padded size is the one multiple of 4 from the size to 3 above it. -/
theorem paddedSize_spec (n : Nat) : n ≤ paddedSize n ∧ paddedSize n < n + 4 ∧ paddedSize n % 4 = 0 := by
  unfold paddedSize
  omega

/-! ## CFG (R303) -/

theorem exec_cfg_ok (hf : formatOfCode s.format = some f) (hw : SizeLegal s.imgW) (hh : SizeLegal s.imgH) :
    exec .cfg s = .next
      { ended s with
        lvalid := false, padW := BitVec.ofNat 32 (paddedSize s.imgW.toNat),
        padH := BitVec.ofNat 32 (paddedSize s.imgH.toNat) } := by
  rw [← ofInt_round4_signedReg hw, ← ofInt_round4_signedReg hh, exec, execCfg,
    withImage_ok _ hf (imageError_signedReg_eq_none.2 ⟨hw, hh⟩)]
  rfl

/-- Settles O23: sizes in range pass the checks, and 32 bits hold the rounded ones. -/
theorem cfgResult : Obligations.CfgResult := by
  intro s f hf hw1 hw2 hh1 hh2
  have hw : SizeLegal s.imgW := ⟨hw1, hw2⟩
  have hh : SizeLegal s.imgH := ⟨hh1, hh2⟩
  refine ⟨_, _, exec_cfg_ok hf hw hh, ?_⟩
  rw [toNat_ofNat_paddedSize hw2, toNat_ofNat_paddedSize hh2]
  obtain ⟨hle, hlt, hmod⟩ := paddedSize_spec s.imgW.toNat
  exact ⟨hle, hlt, hmod, paddedSize_spec s.imgH.toNat⟩

/-! ## The image errors (R304; spec/60_exceptions.md R323) -/

theorem imageError_eq_badArgument {w h : Int} :
    imageError w h = some .badArgument ↔ w < 1 ∨ 65536 ≤ w ∨ h < 1 ∨ 65536 ≤ h := by
  have hd : (dimensionInvalid w || dimensionInvalid h) = true ↔ w < 1 ∨ 65536 ≤ w ∨ h < 1 ∨ 65536 ≤ h := by
    simp [dimensionInvalid, or_assoc]
  rw [← hd, imageError]
  split
  · simp [*]
  · split <;> simp [*]

theorem imageError_eq_imageTooLarge {w h : Int} (hd : ¬(w < 1 ∨ 65536 ≤ w ∨ h < 1 ∨ 65536 ≤ h))
    (hl : 65532 < w ∨ 65532 < h) : imageError w h = some .imageTooLarge := by
  rcases imageError_cases w h with he | he | he
  · obtain ⟨-, hw, -, hh⟩ := imageError_eq_none.1 he
    omega
  · exact absurd (imageError_eq_badArgument.1 he) hd
  · exact he

theorem withImage_raises {e : CmdError} (k : Format → Int → Int → Answer) (hf : formatOfCode s.format = some f)
    (he : imageError (signedReg s.imgW) (signedReg s.imgH) = some e) :
    withImage s k = .next (failedWith s (errKind e)) := by
  rw [withImage, withFormat_some _ hf, he]
  rfl

/-- CFG and HDR_EMIT begin with `checkImage`. -/
theorem exec_eq_withImage {i : Instr} (h : i = .cfg ∨ i = .hdrEmit) (s : State) : ∃ k, exec i s = withImage s k := by
  rcases h with rfl | rfl
  · simp only [exec, execCfg]
    exact ⟨_, rfl⟩
  · simp only [exec, execHdrEmit]
    exact ⟨_, rfl⟩

/-- Settles O24: the format is checked first, then both sizes for BadArgument, then both for ImageTooLarge. -/
theorem imageCheckErrors : Obligations.ImageCheckErrors := by
  intro i s hi w h
  obtain ⟨k, hk⟩ := exec_eq_withImage hi s
  rw [hk]
  refine ⟨fun hbad => ?_, fun hf hw1 hw2 hh1 hh2 hl => ?_⟩
  · cases hf : formatOfCode s.format with
    | none => exact withFormat_none _ hf
    | some f =>
      have hsize := hbad.resolve_left (by simp [hf])
      exact withImage_raises k hf (imageError_eq_badArgument.2 hsize)
  · obtain ⟨f, hf⟩ := Option.isSome_iff_exists.1 hf
    have hsize : ¬(w < 1 ∨ 65536 ≤ w ∨ h < 1 ∨ 65536 ≤ h) := by omega
    exact withImage_raises k hf (imageError_eq_imageTooLarge hsize hl)

/-! ## HDR_EMIT (R305; spec/30_encoding.md R117) -/

/-- Byte `j` of the header of the configured image. -/
def emittedByte (s : State) (j : Nat) : Byte :=
  (headerBytes s.format (signedReg s.imgW) (signedReg s.imgH)).getD j 0

theorem getElem?_headerBytes {j : Nat} (hj : j < 16) :
    (headerBytes s.format (signedReg s.imgW) (signedReg s.imgH))[j]? = some (emittedByte s j) := by
  rw [emittedByte, List.getD_eq_getElem _ _ hj]
  exact List.getElem?_eq_getElem hj

/-- HDR after HDR_EMIT. -/
def emittedMem (s : State) : List Host.Cell :=
  (writeWindow s .hdr 0 (headerBytes s.format (signedReg s.imgW) (signedReg s.imgH))).mem

theorem exec_hdrEmit_ok (hf : formatOfCode s.format = some f) (hw : SizeLegal s.imgW) (hh : SizeLegal s.imgH) :
    exec .hdrEmit s = .next { ended s with lvalid := false, mem := emittedMem s } := by
  rw [exec, execHdrEmit, withImage_ok _ hf (imageError_signedReg_eq_none.2 ⟨hw, hh⟩)]
  rfl

/-- HDR_EMIT writes HDR whole, with the bytes of the header. -/
theorem holdsHeader_emittedMem (s : State) : HoldsHeader (emittedMem s) (emittedByte s) (List.range 16) := by
  intro j hj
  have hlt : j < 16 := List.mem_range.1 hj
  exact (memRead_writeWindow s .hdr 0 (headerBytes s.format _ _) j hlt).trans (getElem?_headerBytes hlt)

theorem sameOutside_emittedMem (s : State) : SameOutside s.mem (emittedMem s) 0x090 16 :=
  sameOutside_writeWindow s .hdr 0 _

theorem toNat_ofNat_versionByte (n : Nat) : (BitVec.ofNat 8 (versionByte n)).toNat = versionByte n := by
  unfold versionByte
  split <;> rfl

theorem versionByte_toNat (c : Byte) : versionByte c.toNat = if c = 0 then 0x31 else 0x32 := by
  simp [versionByte, ← BitVec.toNat_inj]

/-- The sixteen header bytes as numbers (R305). -/
def headerNumbers (code : Byte) (w h : Nat) : List Nat :=
  [0x50, 0x4B, 0x4D, 0x20, if code = 0 then 0x31 else 0x32, 0x30, 0x00, code.toNat,
    paddedSize w / 256, paddedSize w % 256, paddedSize h / 256, paddedSize h % 256,
    w / 256, w % 256, h / 256, h % 256]

/-- Two bytes hold a 16-bit value (spec/00_scope.md R11). -/
theorem bytesBE16_toNat {v : Nat} (hv : v < 65536) : (bytesBE16 v).map BitVec.toNat = [v / 256, v % 256] := by
  simp only [bytesBE16, List.map_cons, List.map_nil, BitVec.toNat_ofNat]
  rw [Nat.mod_eq_of_lt (by omega : v / 256 < 2 ^ 8)]

theorem headerBytes_toNat (code : Byte) {w h : Nat} (hw : w ≤ 65532) (hh : h ≤ 65532) :
    (headerBytes code w h).map BitVec.toNat = headerNumbers code w h := by
  have hpw : paddedSize w < 65536 := by unfold paddedSize; omega
  have hph : paddedSize h < 65536 := by unfold paddedSize; omega
  have hversion : (BitVec.ofNat 8 (versionByte code.toNat)).toNat = if code = 0 then 0x31 else 0x32 := by
    rw [toNat_ofNat_versionByte, versionByte_toNat]
  simp only [headerBytes, round4_eq_paddedSize, Int.toNat_natCast, List.map_append, List.map_cons, hversion,
    bytesBE16_toNat hpw, bytesBE16_toNat hph, bytesBE16_toNat (show w < 65536 by omega),
    bytesBE16_toNat (show h < 65536 by omega)]
  rfl

theorem emittedByte_toNat (hw : SizeLegal s.imgW) (hh : SizeLegal s.imgH) {j : Nat} (hj : j < 16) :
    some (emittedByte s j).toNat = (headerNumbers s.format s.imgW.toNat s.imgH.toNat)[j]? := by
  rw [← headerBytes_toNat s.format hw.2 hh.2, ← signedReg_of_sizeLegal hw, ← signedReg_of_sizeLegal hh,
    List.getElem?_map, getElem?_headerBytes hj]
  rfl

/-- Settles O25: the bytes HDR_EMIT writes, one by one, and the window it writes them to. -/
theorem hdrEmitResult : Obligations.HdrEmitResult := by
  intro s f hf hw1 hw2 hh1 hh2 w h pw ph version
  have hw : SizeLegal s.imgW := ⟨hw1, hw2⟩
  have hh : SizeLegal s.imgH := ⟨hh1, hh2⟩
  refine ⟨_, exec_hdrEmit_ok hf hw hh, fun j hj => ?_, sameOutside_emittedMem s⟩
  exact ⟨_, holdsHeader_emittedMem s j (List.mem_range.2 hj), emittedByte_toNat hw hh hj⟩

/-! ## HDR_PARSE (R306, R307) -/

/-- The configuration a header of the bytes `b` holds, loaded by a normal completion (R306). -/
def parsedState (s : State) (b : Nat → Byte) : State :=
  { ended s with
    lvalid := false, format := b 7,
    imgW := BitVec.ofNat 32 (bigEndian16 b 12), imgH := BitVec.ofNat 32 (bigEndian16 b 14),
    padW := BitVec.ofNat 32 (bigEndian16 b 8), padH := BitVec.ofNat 32 (bigEndian16 b 10) }

theorem readHeader_of_holdsHeader {b : Nat → Byte} (h : HoldsHeader s.mem b (List.range 16)) :
    readHeader s.mem = .ok ((List.range 16).map fun o => (b o).toNat) := by
  rw [readHeader, windowRange_eq]
  exact readBytes_of_holdsHeader h

theorem loadHeader_eq_parsedState (s : State) (b : Nat → Byte) :
    complete (clearLvalid (loadHeader s ((List.range 16).map fun o => (b o).toNat))) = parsedState s b := by
  have hformat : BitVec.ofNat 8 (b 7).toNat = b 7 := BitVec.eq_of_toNat_eq (by simp)
  rw [parsedState, ← hformat]
  rfl

/-- The tests of R307 on the bytes of HDR are those of the checks on what they read. -/
theorem headerValid_map (b : Nat → Byte) :
    headerValid ((List.range 16).map fun o => (b o).toNat) = headerChecks.all (headerTest b) := rfl

/-- HDR_PARSE on a header whose bytes are all written. -/
theorem exec_hdrParse_of_holdsHeader {b : Nat → Byte} (h : HoldsHeader s.mem b (List.range 16)) :
    exec .hdrParse s = if headerChecks.all (headerTest b) then .next (parsedState s b)
      else .next (failedWith s .notAContainer) := by
  rw [exec, execHdrParse_of_readHeader (readHeader_of_holdsHeader h), headerValid_map, loadHeader_eq_parsedState,
    errorCompletion_eq_failedWith]
  rfl

theorem bigEndian16_lt (b : Nat → Byte) (j : Nat) : bigEndian16 b j < 65536 := by
  have h0 := (b j).isLt
  have h1 := (b (j + 1)).isLt
  simp only [bigEndian16]
  omega

/-- A size whose padded size 16 bits hold is at most 65532 (R307, check 8). -/
theorem le_of_padded_lt {p v : Nat} (hp : p < 65536) (h : p = paddedSize v) : v ≤ 65532 := by
  unfold paddedSize at h
  omega

theorem firstBytesPass_eight (b : Nat → Byte) : FirstBytesPass b 8 ↔
    (b 0 = 0x50 ∧ b 1 = 0x4B ∧ b 2 = 0x4D ∧ b 3 = 0x20) ∧ (b 4 = 0x31 ∨ b 4 = 0x32) ∧ b 5 = 0x30 ∧ b 6 = 0x00 ∧
      (formatOfCode (b 7)).isSome = true ∧ (b 4 = 0x31 ↔ b 7 = 0x00) := by
  simp [FirstBytesPass]

/-- Settles O26: the eight checks in the words of R307; the padded sizes of check 8 bound the sizes. -/
theorem hdrParseResult : Obligations.HdrParseResult := by
  intro s b hb be w h accepted
  have hh : HoldsHeader s.mem b (List.range 16) := fun j hj => hb j (List.mem_range.1 hj)
  have hiff : headerChecks.all (headerTest b) = true ↔ accepted := by
    rw [allChecks_iff, firstBytesPass_eight]
    simp only [and_assoc]
    rfl
  rw [exec_hdrParse_of_holdsHeader hh]
  refine ⟨fun ha => ?_, fun hn => if_neg (mt hiff.1 hn)⟩
  obtain ⟨-, hpw, hph⟩ := (allChecks_iff b).1 (hiff.2 ha)
  exact ⟨le_of_padded_lt (bigEndian16_lt b 8) hpw, le_of_padded_lt (bigEndian16_lt b 10) hph, if_pos (hiff.2 ha)⟩

/-! ## The round trip (R306) -/

/-- Two bytes of `putBE16` read back by `BE16` (spec/00_scope.md R11). -/
theorem bigEndian16_of_toNat {b : Nat → Byte} {j v : Nat} (h0 : some (b j).toNat = some (v / 256))
    (h1 : some (b (j + 1)).toNat = some (v % 256)) : bigEndian16 b j = v := by
  rw [bigEndian16, Option.some.inj h0, Option.some.inj h1, Nat.div_add_mod]

/-- The sizes and the padded sizes that an emitted header spells. -/
theorem bigEndian16_emittedByte (hw : SizeLegal s.imgW) (hh : SizeLegal s.imgH) :
    bigEndian16 (emittedByte s) 8 = paddedSize s.imgW.toNat ∧
    bigEndian16 (emittedByte s) 10 = paddedSize s.imgH.toNat ∧
    bigEndian16 (emittedByte s) 12 = s.imgW.toNat ∧ bigEndian16 (emittedByte s) 14 = s.imgH.toNat := by
  have hb {j : Nat} (hj : j < 16) := emittedByte_toNat hw hh hj
  refine ⟨?_, ?_, ?_, ?_⟩ <;> exact bigEndian16_of_toNat (hb (by decide)) (hb (by decide))

/-- Every header HDR_EMIT writes passes the eight checks. -/
theorem emittedByte_accepted (hf : formatOfCode s.format = some f) (hw : SizeLegal s.imgW) (hh : SizeLegal s.imgH) :
    headerChecks.all (headerTest (emittedByte s)) = true := by
  obtain ⟨hpw, hph, hew, heh⟩ := bigEndian16_emittedByte hw hh
  have hversion : emittedByte s 4 = 0x31 ∨ emittedByte s 4 = 0x32 := by
    change BitVec.ofNat 8 (versionByte s.format.toNat) = 0x31 ∨ BitVec.ofNat 8 (versionByte s.format.toNat) = 0x32
    unfold versionByte
    split
    · exact .inl rfl
    · exact .inr rfl
  have hagree : emittedByte s 4 = 0x31 ↔ emittedByte s 7 = 0x00 :=
    (versionByte_iff s.format hversion).1 (toNat_ofNat_versionByte _)
  have hformat : (formatOfCode (emittedByte s 7)).isSome = true := Option.isSome_of_eq_some hf
  have hfirst : FirstBytesPass (emittedByte s) 8 :=
    (firstBytesPass_eight _).2 ⟨⟨rfl, rfl, rfl, rfl⟩, hversion, rfl, rfl, hformat, hagree⟩
  rw [allChecks_iff, hpw, hph, hew, heh]
  exact ⟨⟨hfirst, Nat.one_le_iff_ne_zero.1 hw.1, Nat.one_le_iff_ne_zero.1 hh.1⟩, rfl, rfl⟩

/-- HDR_PARSE on an emitted header gives back the configuration it was emitted for. -/
theorem exec_hdrParse_emitted (hm : t.mem = emittedMem s) (hf : formatOfCode s.format = some f) (hw : SizeLegal s.imgW)
    (hh : SizeLegal s.imgH) :
    exec .hdrParse t = .next
      { ended t with
        lvalid := false, format := s.format, imgW := s.imgW, imgH := s.imgH,
        padW := BitVec.ofNat 32 (paddedSize s.imgW.toNat),
        padH := BitVec.ofNat 32 (paddedSize s.imgH.toNat) } := by
  have hholds : HoldsHeader t.mem (emittedByte s) (List.range 16) := hm ▸ holdsHeader_emittedMem s
  obtain ⟨hpw, hph, hew, heh⟩ := bigEndian16_emittedByte hw hh
  rw [exec_hdrParse_of_holdsHeader hholds, if_pos (emittedByte_accepted hf hw hh), parsedState, hpw, hph, hew, heh,
    BitVec.ofNat_toNat, BitVec.ofNat_toNat, BitVec.setWidth_eq, BitVec.setWidth_eq]
  rfl

/-- HDR_EMIT without an error had a valid format and legal sizes, and left its header. -/
theorem emitted_of_exec_hdrEmit (h : exec .hdrEmit s = .next t) (he : t.err = .none) :
    ∃ f, formatOfCode s.format = some f ∧ SizeLegal s.imgW ∧ SizeLegal s.imgH ∧ t.mem = emittedMem s := by
  rcases execHdrEmit_next h with rfl | rfl | ⟨hi, hf, rfl⟩
  · cases he
  · cases he
  · obtain ⟨f, hf⟩ := Option.isSome_iff_exists.1 hf
    obtain ⟨hw, hh⟩ := imageError_signedReg_eq_none.1 hi
    exact ⟨f, hf, hw, hh, rfl⟩

/-- Settles O27: the emitted bytes pass the checks and spell the configuration, whatever the registers hold. -/
theorem headerRoundTrip : Obligations.HeaderRoundTrip := by
  intro s t format imgW imgH padW padH h he
  obtain ⟨f, hf, hw, hh, hm⟩ := emitted_of_exec_hdrEmit h he
  exact ⟨_, _, exec_hdrParse_emitted hm hf hw hh, exec_cfg_ok hf hw hh, rfl, rfl, rfl, rfl, rfl, rfl⟩

end Sys2Proof.Machine
end

section
/-! PROOFS: illegal words, ACCERR, and the error completions (spec/60_exceptions.md R321 to R328). -/

namespace Sys2Proof.Machine

variable {s t : State} {i : Instr} {e : CmdError}

/-! ## Illegal words (R327) -/

theorem coreTurn_of_illegal {w : Word} (hs : s.seq = .busy w) (hl : legalWord w = false) :
    coreTurn s = .next (failedWith s .badCommand) := by
  cases hd : decode w with
  | ok i => rw [decodes_iff_legalWord.1 ⟨i, hd⟩] at hl; cases hl
  | error r => simp only [coreTurn, fetchCommand, hs, hd]; rfl

/-- Settles O5: an illegal word decodes to no command, so the core's turn raises BAD_COMMAND. -/
theorem illegalWordIsBadCommand : Obligations.IllegalWordIsBadCommand := by
  refine fun s w hs hl => ⟨fun ht => ?_, fun ts ht => ?_⟩
  · rw [step_of_busy hs ht, coreTurn_of_illegal hs hl]
  · rw [step_of_core ht]; exact coreTurn_of_illegal hs hl

/-! ## What clears ACCERR (R328) -/

/-- A write to STATUS clears ACCERR by bit 2 of the value only. -/
theorem bit_of_writeStatus_accErr {v : Word} (ha : s.accErr = true) (hc : (writeStatus s v).accErr = false) :
    v.getLsbD 2 = true := by
  unfold writeStatus at hc
  split at hc
  · assumption
  · cases ha.symm.trans hc

/-- A write that reaches anything but STATUS keeps ACCERR set. -/
theorem writeTarget_accErr {off : Nat} {v : Word} {tg : Target} (ha : s.accErr = true) (hn : tg ≠ .reg .status) :
    (writeTarget s off v tg).accErr = true := by
  have hbytes (win : Window) (l : List Byte) : (writeBytesTo s win off l).accErr = true := by
    unfold writeBytesTo
    split
    · rfl
    · exact ha
  cases tg with
  | reg r =>
    cases r with
    | status => exact absurd rfl hn
    | id | padW | padH | lossLo | lossHi | alossLo | alossHi => rfl
    | _ => exact ha
  | byte win => exact hbytes win _
  | quad win => exact hbytes win _

/-- Of all host writes only a 4-byte one to STATUS with bit 2 set clears ACCERR. -/
theorem regWrite_clears_accErr {width : Width} {off : Nat} {v : Word} (ha : s.accErr = true)
    (hc : (regWrite s width off v).accErr = false) : width = .w4 ∧ off = 0x008 ∧ v.getLsbD 2 = true := by
  cases ht : accessTarget width off with
  | none => rw [regWrite_of_none v ht] at hc; cases hc
  | some tg =>
    rw [regWrite_of_some v ht] at hc
    split at hc
    · cases hc
    · by_cases hst : tg = .reg .status
      · subst hst
        obtain ⟨hw, hr⟩ := accessTarget_reg ht
        exact ⟨hw, regAt_status hr, bit_of_writeStatus_accErr ha hc⟩
      · rw [writeTarget_accErr ha hst] at hc; cases hc

theorem hostInstr_clears_accErr {h : HostInstr} (ha : s.accErr = true) (hc : (hostInstr s h).accErr = false) :
    ∃ v, h = .write .w4 0x008 v ∧ v.getLsbD 2 = true := by
  cases h with
  | write width off v =>
    obtain ⟨rfl, hoff, hv⟩ := regWrite_clears_accErr ha hc
    obtain rfl : off = 0x008 := BitVec.eq_of_toNat_eq hoff
    exact ⟨v, rfl, hv⟩
  | read width off name =>
    have hkeep : (regRead s width off.toNat).2.accErr = true := by
      rcases regRead_state s width off.toNat with hr | hr <;> rw [hr]
      · exact ha
      · rfl
    cases hkeep.symm.trans hc
  | bnz name mask target => cases ha.symm.trans hc

theorem hostTurn_clears_accErr (h : hostTurn s = .next t) (ha : s.accErr = true) (hc : t.accErr = false) :
    ∃ v : Word, s.hostProg[s.hostPc]? = some (.write .w4 0x008 v) ∧ v.getLsbD 2 = true := by
  rcases hostTurn_next h with rfl | ⟨i, hi, rfl⟩
  · cases ha.symm.trans hc
  · obtain ⟨v, rfl, hv⟩ := hostInstr_clears_accErr ha hc
    exact ⟨v, hi, hv⟩

/-- SRESET is the one command that clears ACCERR (spec/45_control_container.md R302). -/
theorem exec_clears_accErr (h : exec i s = .next t) (ha : s.accErr = true) (hc : t.accErr = false) : i = .sreset := by
  by_contra hi
  obtain ⟨-, -, -, -, -, -, -, hkeep⟩ := (exec_ends h).keeps_source hi
  cases ha.symm.trans (hkeep.symm.trans hc)

theorem coreTurn_clears_accErr (h : coreTurn s = .next t) (ha : s.accErr = true) (hc : t.accErr = false) :
    s.seq = .busy 0x00000001 := by
  rcases coreTurn_next h with ⟨-, rfl⟩ | ⟨w, hw, ⟨_, -, rfl⟩ | ⟨i, hd, he⟩⟩
  · cases ha.symm.trans hc
  · cases ha.symm.trans hc
  · obtain rfl := exec_clears_accErr he ha hc
    obtain ⟨-, rfl⟩ := (decodeExactlyEncode w .sreset).1 hd
    exact hw

/-- Settles O14: each agent's turn, by the one way it has to clear ACCERR. -/
theorem accerrIsSticky : Obligations.AccerrIsSticky := by
  intro s t h ha hc
  obtain ⟨ts, hh | hcore | ⟨hr, -⟩⟩ := step_next h
  · exact .inr (.inr (hostTurn_clears_accErr (s := { s with turns := ts }) hh ha hc))
  · exact .inr (.inl (coreTurn_clears_accErr (s := { s with turns := ts }) hcore ha hc))
  · exact .inl ⟨ts, hr⟩

/-! ## Completions (R325, R326) -/

/-- Every end of a command is a normal completion, an error completion of the state it found, or IO in EXTRACT. -/
theorem Ends.completion (h : Ends s i t) :
    (∃ u, t = complete u) ∨ (∃ e, Raises s i e ∧ t = errorCompletion s e) ∨
      (i = .extract ∧ ∃ k rest, t = errorCompletion (forgetBlock (afterReads s rest)) (.io k)) := by
  cases h with
  | failed _ e hr => exact .inr (.inl ⟨e, hr, rfl⟩)
  | extractIo k rest => exact .inr (.inr ⟨rfl, k, rest, rfl⟩)
  | _ => exact .inl ⟨_, rfl⟩

/-- Settles O15: the three completions, the last of which forgets BLK whole. -/
theorem errorCompletionsArePrecise : Obligations.ErrorCompletionsArePrecise := by
  intro i s t h
  rcases (exec_ends h).completion with ⟨u, rfl⟩ | ⟨e, -, rfl⟩ | ⟨hi, k, rest, rfl⟩
  · exact ⟨rfl, rfl, fun he => absurd rfl he⟩
  · exact ⟨rfl, rfl, fun _ => .inl rfl⟩
  · refine ⟨rfl, rfl, fun _ => .inr ⟨hi, rfl, memForget s.mem 0x100 64, rest, rfl, fun a ha => ?_,
      sameOutside_memForget _ _ _⟩⟩
    rw [memRead_memForget, if_pos ha]

/-! ## The errors of each command (R322 to R324, R326, R327) -/

/-- STATUS.ERR after a command: no error, one that the command raises, or IO in EXTRACT. -/
theorem Ends.err_cases (h : Ends s i t) :
    t.err = .none ∨ (∃ e, Raises s i e ∧ t.err = errKind e) ∨ (i = .extract ∧ t.err = .io) := by
  rcases h.completion with ⟨u, rfl⟩ | ⟨e, hr, rfl⟩ | ⟨hi, k, rest, rfl⟩
  · exact .inl rfl
  · exact .inr (.inl ⟨e, hr, rfl⟩)
  · exact .inr (.inr ⟨hi, rfl⟩)

/-- The control commands and EXTRACT check more than the format, or nothing. -/
theorem not_checksFormatOnly (h : i ∈ [.nop, .sreset, .cfg, .extract, .hdrEmit, .hdrParse]) : ¬checksFormatOnly i := by
  simp only [List.mem_cons, List.not_mem_nil, or_false] at h
  rcases h with rfl | rfl | rfl | rfl | rfl | rfl <;> simp [checksFormatOnly, isColourGenerator]

/-- A command of the encoder, the decoder or the metric raises BadArgument only, on a format it does not allow. -/
theorem Raises.of_checksFormatOnly (h : Raises s i e) (hw : WellFormed i = true) (hc : checksFormatOnly i) :
    e = .badArgument ∧ ∀ f, formatOfCode s.format = some f → allowedFormat i f = false := by
  cases h with
  | format _ hf => exact ⟨rfl, hf⟩
  | intensity hi => rw [hw] at hi; cases hi
  | extract hi => exact absurd hc (not_checksFormatOnly (by simp [hi]))
  | image hi => exact absurd hc (not_checksFormatOnly (by rcases hi with rfl | rfl <;> simp))
  | header hi => exact absurd hc (not_checksFormatOnly (by simp [hi]))

/-- Such a command succeeds on a format it allows only. -/
theorem Ends.allowed (h : Ends s i t) (hc : checksFormatOnly i) (he : t.err = .none) :
    ∃ f, formatOfCode s.format = some f ∧ allowedFormat i f = true := by
  cases h with
  | failed _ e => exact absurd he (errKind_ne_none e)
  | nop | sreset | cfg | hdrEmit | hdrParse | extract | extractIo => exact absurd hc (not_checksFormatOnly (by simp))
  | candidate _ f _ _ _ hf ha => exact ⟨f, hf, ha⟩
  | candEac8 f _ hf ha => exact ⟨f, hf, ha⟩
  | candEac11 _ f _ hf ha => exact ⟨f, hf, ha⟩
  | decode | score | scoreAlpha | encode | encodeTwo | encodeAlpha =>
    exact ⟨_, ‹formatOfCode s.format = some _›, rfl⟩

theorem Ends.badArgument_iff (h : Ends s i t) (hw : WellFormed i = true) (hc : checksFormatOnly i) :
    t.err = .badArgument ↔ ∀ f, formatOfCode s.format = some f → allowedFormat i f = false := by
  rcases h.err_cases with he | ⟨e, hr, he⟩ | ⟨rfl, -⟩
  · obtain ⟨f, hf, ha⟩ := h.allowed hc he
    simp [he, hf, ha]
  · obtain ⟨rfl, hf⟩ := hr.of_checksFormatOnly hw hc
    exact ⟨fun _ => hf, fun _ => he⟩
  · exact absurd hc (not_checksFormatOnly (by simp))

/-- Which commands may end with each kind of STATUS.ERR (R322 to R327). -/
def MayEndWith (i : Instr) : ErrKind → Prop
  | .none => True
  | .badArgument => i ≠ .nop ∧ i ≠ .sreset ∧ i ≠ .hdrParse
  | .imageTooLarge => i = .cfg ∨ i = .hdrEmit
  | .notAContainer => i = .hdrParse
  | .io => i = .extract
  | .badCommand => False

theorem mayEndWith_badArgument_of_checksFormatOnly (h : checksFormatOnly i) : MayEndWith i .badArgument := by
  refine ⟨?_, ?_, ?_⟩ <;> rintro rfl <;> exact not_checksFormatOnly (by simp) h

theorem Raises.mayEndWith (h : Raises s i e) (hw : WellFormed i = true) : MayEndWith i (errKind e) := by
  cases h with
  | extract hi => simp [errKind, MayEndWith, hi]
  | image hi e he =>
    rcases he with rfl | rfl
    · rcases hi with rfl | rfl <;> simp [errKind, MayEndWith]
    · exact hi
  | header hi => exact hi
  | intensity hi => rw [hw] at hi; cases hi
  | format hc => exact mayEndWith_badArgument_of_checksFormatOnly hc

theorem Ends.mayEndWith (h : Ends s i t) (hw : WellFormed i = true) : MayEndWith i t.err := by
  rcases h.err_cases with he | ⟨e, hr, he⟩ | ⟨hi, he⟩ <;> rw [he]
  · trivial
  · exact hr.mayEndWith hw
  · exact hi

theorem eq_none_of_mayEndWith {k : ErrKind} (hi : i = .nop ∨ i = .sreset) (h : MayEndWith i k) : k = .none := by
  rcases hi with rfl | rfl <;> cases k <;> simp [MayEndWith] at h ⊢

theorem of_mayEndWith_hdrParse {k : ErrKind} (h : MayEndWith .hdrParse k) : k = .none ∨ k = .notAContainer := by
  cases k <;> simp [MayEndWith] at h ⊢

/-- Settles O16: which commands may end with each kind, and what BadArgument says where only the format is checked. -/
theorem errorKindsByCommand : Obligations.ErrorKindsByCommand := by
  intro i s t hw h
  have he := exec_ends h
  have hkind {k : ErrKind} (hk : t.err = k) : MayEndWith i k := hk ▸ he.mayEndWith hw
  refine ⟨hkind, hkind, hkind, hkind, fun hi => eq_none_of_mayEndWith hi (hkind rfl), ?_, he.badArgument_iff hw⟩
  rintro rfl
  exact of_mayEndWith_hdrParse (hkind rfl)

end Sys2Proof.Machine
end

section
/-! PROOFS: hardware reset (spec/70_reset_and_hazards.md R351, R352). -/

namespace Sys2Proof.Machine

variable {s : State}

/-! ## The registers after reset (R351) -/

/-- The registers that reset to 0 (spec/10_state.md R25). -/
def zeroAtReset : List Reg :=
  [.cmd, .status, .format, .imgW, .imgH, .padW, .padH, .bx, .by', .srcX0, .srcY0, .srcX1, .srcY1, .lossLo, .lossHi,
    .alossLo, .alossHi]

theorem readReg_reset_zero : ∀ r ∈ zeroAtReset, readReg State.reset r = 0 := by decide

/-! ## The reset turn (R352) -/

/-- A listed reset turn is hardware reset, whatever the sequencer was doing. -/
theorem step_of_reset {ts : List Turn} (ht : s.turns = .reset :: ts) :
    step s = .next (hardwareReset { s with turns := ts }) := by
  simp [step, nextTurn, ht, takeTurn]

/-- Settles O1: the registers are read off the reset state, and a reset turn is hardware reset. -/
theorem resetStateAndTurn : Obligations.ResetStateAndTurn := by
  refine ⟨rfl, ?_, fun off ho => ?_, ?_, fun _ => rfl, fun s ts ht => step_of_reset ht⟩
  · rw [regRead_reg (r := .id) rfl]; rfl
  · have hall : ∀ off ∈ [0x004, 0x008, 0x00C, 0x010, 0x014, 0x018, 0x01C, 0x020, 0x024, 0x02C, 0x030, 0x034, 0x038,
        0x040, 0x044, 0x048, 0x04C], ∃ r ∈ zeroAtReset, regAt off = some r := by decide
    obtain ⟨r, hr, hoff⟩ := hall off ho
    rw [regRead_reg hoff, readReg_reset_zero r hr]
  · rw [regRead_reg (r := .srcCfg) rfl]; rfl

/-- The invariant after reset is that of a reset turn, which touches nothing else it looks at. -/
theorem inv_reset : Inv State.reset := by
  obtain ⟨hmem, hbusy, hpending, hfailed, hw, hh⟩ := inv_hardwareReset State.reset
  exact ⟨hmem, hbusy, hpending, hfailed, hw, hh⟩

/-- Settles O58: reset lists no memory, pends no command and zeroes the padded sizes and the losses. -/
theorem invariantsAtReset : Obligations.InvariantsAtReset := ⟨inv_reset, lossInv_of_zero rfl rfl⟩

end Sys2Proof.Machine
end

section
/-! PROOFS: host writes while BUSY (spec/70_reset_and_hazards.md R356). -/

namespace Sys2Proof.Machine

variable {s : State}

/-- A 4-byte write reaches STATUS in every state of the sequencer (spec/10_state.md R29). -/
theorem regWrite_status (s : State) (v : Word) : regWrite s .w4 0x008 v = writeStatus s v := by
  have ht : accessTarget .w4 0x008 = some (.reg .status) := accessTarget_of_regAt rfl
  simp [regWrite_of_some v ht, writeTarget, writeReg]

/-- While BUSY a write of any width to any other offset is dropped, be it a legal access or not. -/
theorem regWrite_busy_dropped {c : Word} (hs : s.seq = .busy c) (width : Width) {off : Nat} (v : Word)
    (ho : off ≠ 0x008) : regWrite s width off v = accessError s := by
  cases ht : accessTarget width off with
  | none => exact regWrite_of_none v ht
  | some tg =>
    have hn : tg ≠ .reg .status := by
      rintro rfl
      exact ho (regAt_status (accessTarget_reg ht).2)
    simp [regWrite_of_some v ht, isBusy_of_busy hs, hn]

/-- Settles O8: STATUS is the one target a BUSY core lets a write reach, and bit 2 is the one bit it looks at. -/
theorem writesDroppedWhileBusy : Obligations.WritesDroppedWhileBusy := by
  refine ⟨fun s v => ?_, fun s c hs => ⟨fun width _ v ho => regWrite_busy_dropped hs width v ho, hostInstr_busy hs⟩⟩
  rw [regWrite_status]
  exact ⟨fun hv => if_pos hv, fun hv => if_neg (by rw [hv]; decide)⟩

end Sys2Proof.Machine
end

section
/-! PROOFS: a command with its inputs set up completes normally (spec/70_reset_and_hazards.md R353,
spec/60_exceptions.md R325). -/

namespace Sys2Proof.Machine

variable {s : State} {m : List Host.Cell} {l : List Nat} {f : Format}

/-- An answer that is a normal completion. -/
def Completes (ans : Answer) : Prop := ∃ u, ans = .next (complete u)

theorem completes_succeed (s : State) : Completes (succeed s) := ⟨s, rfl⟩

/-- An operand whose bytes are all defined has a value. -/
theorem ReadsOffsets.exists_value {α : Type} {r : Except Fault α} (h : ReadsOffsets m r l) (hd : ∀ a ∈ l, Defined m a) :
    ∃ v, r = .ok v := by
  rcases h with ⟨hv, -⟩ | ⟨a, ha, hn, -⟩
  · exact hv
  · have hdef := hd a ha
    rw [Defined, hn] at hdef
    cases hdef

/-- A command that completes whatever value its operand has completes when the operand's bytes are defined: the other
half of `faultsOnUnspec_withOperand`. -/
theorem completes_withOperand {α : Type} {r : Except Fault α} (h : ReadsOffsets m r l) (hd : ∀ a ∈ l, Defined m a)
    {k : α → Answer} (hk : ∀ v, Completes (k v)) : Completes (withOperand r k) := by
  obtain ⟨v, rfl⟩ := h.exists_value hd
  exact hk v

theorem completes_encodeBlock (p : Params) (hd : ∀ a ∈ encodeOffsets f, Defined s.mem a) :
    Completes (encodeBlock p s f) := by
  cases hc : formatClass f <;> simp only [encodeOffsets, hc] at hd <;> simp only [encodeBlock, hc]
  case rgb | a1 => exact completes_withOperand (readsOffsets_readSource _ _) hd fun _ => completes_succeed _
  case a8 =>
    exact completes_withOperand (readsOffsets_readBoth (readsOffsets_readAlpha _ _) (readsOffsets_readSource _ _)) hd
      fun _ => completes_succeed _
  case r11 => exact completes_withOperand (readsOffsets_readSamples _ _ _) hd fun _ => completes_succeed _
  case rg11 =>
    exact completes_withOperand
      (readsOffsets_readBoth (readsOffsets_readSamples _ _ _) (readsOffsets_readSamples _ _ _)) hd
      fun _ => completes_succeed _

theorem completes_decodeBlock (p : Params) (hd : ∀ a ∈ leadingOffsets .cw (blockBytes f), Defined s.mem a) :
    Completes (decodeBlock p s f) := by
  cases hc : formatClass f <;> simp only [blockBytes, hc] at hd <;> simp only [decodeBlock, hc]
  case rgb | a1 | r11 => exact completes_withOperand (readsOffsets_readCodeword_first _) hd fun _ => completes_succeed _
  case a8 | rg11 => exact completes_withOperand (readsOffsets_readBothCodewords _) hd fun _ => completes_succeed _

theorem completes_scoreBlock (p : Params) (hd : ∀ a ∈ scoreOffsets f, Defined s.mem a) :
    Completes (scoreBlock p s f) := by
  have hcolour : ReadsOffsets s.mem (readBoth (readSource s.mem f) (readRgb s.mem .dec))
      (sourceOffsets f ++ rgbOffsets .dec) :=
    readsOffsets_readBoth (readsOffsets_readSource _ _) (readsOffsets_readRgb _ _)
  have halpha : ReadsOffsets s.mem (readBoth (readAlpha s.mem .blk) (readAlpha s.mem .dec))
      (alphaOffsets .blk ++ alphaOffsets .dec) :=
    readsOffsets_readBoth (readsOffsets_readAlpha _ _) (readsOffsets_readAlpha _ _)
  cases hc : formatClass f <;> simp only [scoreOffsets, hc] at hd <;> simp only [scoreBlock, hc]
  case rgb | a1 => exact completes_withOperand hcolour hd fun _ => completes_succeed _
  case a8 =>
    rw [List.append_assoc _ (alphaOffsets .blk)] at hd
    exact completes_withOperand (readsOffsets_readBoth hcolour halpha) hd fun _ => completes_succeed _
  case r11 => exact completes_withOperand (readsOffsets_readSamplePair s 0) hd fun _ => completes_succeed _
  case rg11 =>
    exact completes_withOperand
      (readsOffsets_readBoth (readsOffsets_readSamplePair s 0) (readsOffsets_readSamplePair s 1)) hd
      fun _ => completes_succeed _

theorem completes_colourGenerator {i : Instr} (hg : isColourGenerator i = true) (hw : WellFormed i = true)
    (hf : formatOfCode s.format = some f) (ha : allowedFormat i f = true) (hd : ∀ a ∈ sourceOffsets f, Defined s.mem a) :
    Completes (exec i s) := by
  obtain ⟨allowed, transp, hal, he⟩ := exec_colourGenerator (s := s) hg hw
  rw [he, colourCandidate_ok _ hf (by rw [← hal f]; exact ha)]
  exact completes_withOperand (readsOffsets_readSource _ _) hd fun _ => completes_succeed _

/-- The commands that read their operand whole (R353), and those that read none. -/
theorem completes_exec {i : Instr} (hw : WellFormed i = true) (hi : i ∉ [.extract, .cfg, .hdrEmit, .hdrParse])
    (hf : formatOfCode s.format = some f) (ha : allowedFormat i f = true) (hd : OperandsDefined i f s.mem) :
    Completes (exec i s) := by
  cases i
  case extract | cfg | hdrEmit | hdrParse => simp at hi
  case nop | sreset => exact completes_succeed _
  case encode => rw [exec_encode hf]; exact completes_encodeBlock _ hd
  case decode => simp only [exec, execDecode, withFormat_some _ hf]; exact completes_decodeBlock _ hd
  case score => simp only [exec, execScore, withFormat_some _ hf]; exact completes_scoreBlock _ hd
  case candEac8 =>
    obtain ⟨alpha, hr⟩ := (readsOffsets_readAlpha s.mem .blk).exists_value hd
    exact ⟨_, exec_candEac8_ok hf ha hr⟩
  case candEac11 ch =>
    obtain ⟨samples, hr⟩ := (readsOffsets_readSamples s.mem .blk ch.toNat).exists_value hd
    exact ⟨_, exec_candEac11_ok hf ha hr⟩
  case candId | candEtc1s | candPlanar | candT | candH => exact completes_colourGenerator rfl hw hf ha hd

/-- Settles O19: such a command checks its format, reads its operand if it has one, and completes what it computes. -/
theorem setUpCommandsComplete : Obligations.SetUpCommandsComplete := by
  intro i s f hw hextract hcfg hemit hparse hf ha hd
  obtain ⟨u, hu⟩ := completes_exec hw (by simp [hextract, hcfg, hemit, hparse]) hf ha hd
  exact ⟨complete u, hu, rfl, rfl, rfl⟩

end Sys2Proof.Machine
end
